-- ==== Sys2Proof/Word.lean ====
section
/-! DEFINITION. The word types of the engine: bytes, 32-bit words, and a file of eight words (R7, R8, R9). -/

namespace Sys2Proof

/-- A 32-bit unsigned word; `+` on it is addition modulo 2^32 (R10). -/
abbrev Word := BitVec 32

/-- One byte of a message or of the block buffer. -/
abbrev Byte := BitVec 8

/-- Eight words at indices 0 to 7: the hash state `H[0..7]` (R47) or the working registers
`R[0..7]` = `a..h` (R22). -/
structure Words8 where
  w0 : Word
  w1 : Word
  w2 : Word
  w3 : Word
  w4 : Word
  w5 : Word
  w6 : Word
  w7 : Word
  deriving DecidableEq, Repr

end Sys2Proof
end

