-- ==== Sys2Proof/Syntax.lean ====
section
/-! DEFINITION. The instructions: one constructor per row of spec/opcode_table.json (18 legal host transactions,
18 rows of illegal transactions, 6 micro-operations), and the register map the transactions address. -/

namespace Sys2Proof

/-- What a register number names (R35). The five `gap` constructors are the unmapped ranges, cut as the
opcode table cuts them into aligned rows. -/
inductive Reg where
  | id | cfg | ctrl | status | err | din | lenLo | lenHi
  | h (i : BitVec 3)
  | r (i : BitVec 3)
  | blk (j : BitVec 4)
  | w (t : BitVec 6)
  | k (t : BitVec 6)
  | iv (i : BitVec 3)
  | gap18 | gap30 | gapC8 | gapD0 | gapE0
  deriving DecidableEq, Repr

/-- The instructions. Operands are the sub-fields of R82 at their exact widths, so every value of this type is
well formed. Bits the decoder ignores (R86) are no part of an instruction. -/
inductive Instr where
  /-- `RD.ID`, R171 -/
  | rdId
  /-- `RD.CFG`, R172 -/
  | rdCfg
  /-- `WR.CFG`, R173: `v` = `IE_ERR`, `IE_DONE`, `STEP` -/
  | wrCfg (v : BitVec 3)
  /-- `NOP`, R190 -/
  | nop
  /-- `INIT`, R191 -/
  | init
  /-- `FINAL`, R192 -/
  | final
  /-- `CONT`, R193 -/
  | cont
  /-- `RD.STATUS`, R174 -/
  | rdStatus
  /-- `RD.ERR`, R175 -/
  | rdErr
  /-- `PUSH`, R108 -/
  | push (b : Byte)
  /-- `RD.LEN_LO`, R176 -/
  | rdLenLo
  /-- `RD.LEN_HI`, R177 -/
  | rdLenHi
  /-- `RD.H`, R178 -/
  | rdH (i : BitVec 3)
  /-- `RD.R`, R179 -/
  | rdR (i : BitVec 3)
  /-- `RD.BLK`, R180 -/
  | rdBlk (j : BitVec 4)
  /-- `RD.W`, R181 -/
  | rdW (t : BitVec 6)
  /-- `RD.K`, R182 -/
  | rdK (t : BitVec 6)
  /-- `RD.IV`, R183 -/
  | rdIv (i : BitVec 3)
  /-- `ILL.ADDR.18`, R184: numbers 0x18 to 0x1F -/
  | illAddr18
  /-- `ILL.ADDR.30`, R184: numbers 0x30 to 0x3F -/
  | illAddr30
  /-- `ILL.ADDR.C8`, R184: numbers 0xC8 to 0xCF -/
  | illAddrC8
  /-- `ILL.ADDR.D0`, R184: numbers 0xD0 to 0xDF -/
  | illAddrD0
  /-- `ILL.ADDR.E0`, R184: numbers 0xE0 to 0xFF -/
  | illAddrE0
  /-- `ILL.ACCESS.WR_ID`, R185 -/
  | illAccessWrId
  /-- `ILL.ACCESS.RD_CTRL`, R185 -/
  | illAccessRdCtrl
  /-- `ILL.ACCESS.WR_STATUS`, R185 -/
  | illAccessWrStatus
  /-- `ILL.ACCESS.WR_ERR`, R185 -/
  | illAccessWrErr
  /-- `ILL.ACCESS.RD_DIN`, R185 -/
  | illAccessRdDin
  /-- `ILL.ACCESS.WR_LEN`, R185 -/
  | illAccessWrLen
  /-- `ILL.ACCESS.WR_H`, R185 -/
  | illAccessWrH
  /-- `ILL.ACCESS.WR_R`, R185 -/
  | illAccessWrR
  /-- `ILL.ACCESS.WR_BLK`, R185 -/
  | illAccessWrBlk
  /-- `ILL.ACCESS.WR_W`, R185 -/
  | illAccessWrW
  /-- `ILL.ACCESS.WR_K`, R185 -/
  | illAccessWrK
  /-- `ILL.ACCESS.WR_IV`, R185 -/
  | illAccessWrIv
  /-- `ILL.CMD`, R194: command codes 4 to 7 -/
  | illCmd
  /-- `uPAD1`, R110 -/
  | uPad1
  /-- `uSCHED`, R135 -/
  | uSched
  /-- `uLOAD`, R146 -/
  | uLoad
  /-- `uROUND`, R147 -/
  | uRound
  /-- `uACCUM`, R156 -/
  | uAccum
  /-- `uPAD2`, R112 -/
  | uPad2
  deriving DecidableEq, Repr

/-- Where an instruction stands: a 41-bit transaction word on the bus (R81), or the 3-bit `PHASE` code that selects
a micro-operation (R90). -/
inductive Encoded where
  | transaction (tw : BitVec 41)
  | microOp (phase : BitVec 3)
  deriving DecidableEq, Repr

/-- Why bits name no instruction. Every 41-bit transaction word names one (R86). -/
inductive DecodeError where
  /-- the `PHASE` code is 0 (`ACCEPT`) or 7 (`DONE`): the engine has no step (R90); safe -/
  | noMicroOperation
  /-- a bit above the top of the word is set: above bit 40 of a transaction word, whose spelling keeps the top three
  of its 44 bits 0 (R81), or above bit 2 of a `PHASE` code; safe -/
  | bitAboveWord
  deriving DecidableEq, Repr

/-- One row of spec/opcode_table.json: the bits looked at and what they must be. -/
structure TableRow where
  mnemonic : String
  mask : Nat
  pattern : Nat
  deriving DecidableEq, Repr

end Sys2Proof
end

