-- ==== Sys2Proof/WellFormed.lean ====
section
/-! DEFINITION. Well-formedness of what arrives as bits. An `Instr` carries its operands at their exact widths, so
none is ill formed; the checks are on the raw numbers a decoder is given. -/

namespace Sys2Proof

/-- A transaction word is 41 bits: of its 11 hexadecimal digits the top three bits are 0 (R81). -/
def WellFormed.transactionWord (w : Nat) : Bool := decide (w < 2 ^ 41)

/-- A `PHASE` code is 3 bits and selects a micro-operation exactly when it is 1 to 6 (R90). -/
def WellFormed.microOpCode (p : Nat) : Bool := decide (1 ≤ p ∧ p ≤ 6)

/-- A message the engine can be given has at most 2^61 - 1 bytes (R100, R107). -/
def WellFormed.message (m : List Byte) : Bool := decide (m.length < 2 ^ 61)

end Sys2Proof
end

