-- ==== Sys2Proof/Decode.lean ====
section
/-! DEFINITION. The decoder (R83 to R88, R90), the encoder, and the rows of the opcode table they are held
against. -/

namespace Sys2Proof

/-! ### The transaction word (R81) -/

/-- `TW[40:0] = WE || ADDR[7:0] || WDATA[31:0]` (R81). -/
def transactionWord (we : Bool) (addr : BitVec 8) (wdata : Word) : BitVec 41 :=
  BitVec.ofBool we ++ addr ++ wdata

/-- `WE` = `TW[40]`. -/
def twWe (tw : BitVec 41) : Bool := tw.getLsbD 40

/-- `ADDR` = `TW[39:32]`. -/
def twAddr (tw : BitVec 41) : BitVec 8 := tw.extractLsb' 32 8

/-- `WDATA` = `TW[31:0]`. -/
def twWdata (tw : BitVec 41) : Word := tw.extractLsb' 0 32

/-! ### The register map (R35) -/

/-- What each of the 256 register numbers names (R35). -/
def regOf (addr : BitVec 8) : Reg :=
  let a := addr.toNat
  if a = 0x00 then .id
  else if a = 0x01 then .cfg
  else if a = 0x02 then .ctrl
  else if a = 0x03 then .status
  else if a = 0x04 then .err
  else if a = 0x05 then .din
  else if a = 0x06 then .lenLo
  else if a = 0x07 then .lenHi
  else if a ≤ 0x0F then .h (addr.extractLsb' 0 3)
  else if a ≤ 0x17 then .r (addr.extractLsb' 0 3)
  else if a ≤ 0x1F then .gap18
  else if a ≤ 0x2F then .blk (addr.extractLsb' 0 4)
  else if a ≤ 0x3F then .gap30
  else if a ≤ 0x7F then .w (addr.extractLsb' 0 6)
  else if a ≤ 0xBF then .k (addr.extractLsb' 0 6)
  else if a ≤ 0xC7 then .iv (addr.extractLsb' 0 3)
  else if a ≤ 0xCF then .gapC8
  else if a ≤ 0xDF then .gapD0
  else .gapE0

/-- The register number of a register; of a gap, its first number (R35). -/
def regAddr : Reg → BitVec 8
  | .id => 0x00
  | .cfg => 0x01
  | .ctrl => 0x02
  | .status => 0x03
  | .err => 0x04
  | .din => 0x05
  | .lenLo => 0x06
  | .lenHi => 0x07
  | .h i => 0b00001#5 ++ i
  | .r i => 0b00010#5 ++ i
  | .blk j => 0b0010#4 ++ j
  | .w t => 0b01#2 ++ t
  | .k t => 0b10#2 ++ t
  | .iv i => 0b11000#5 ++ i
  | .gap18 => 0x18
  | .gap30 => 0x30
  | .gapC8 => 0xC8
  | .gapD0 => 0xD0
  | .gapE0 => 0xE0

/-! ### Decoding -/

/-- A write of `CTRL`, by `CMD = WDATA[2:0]` (R85). -/
def decodeCommand (cmd : BitVec 3) : Instr :=
  if cmd = 0 then .nop
  else if cmd = 1 then .init
  else if cmd = 2 then .final
  else if cmd = 3 then .cont
  else .illCmd

/-- A read (`WE = 0`), in the order of R88. -/
def decodeRead : Reg → Instr
  | .gap18 => .illAddr18
  | .gap30 => .illAddr30
  | .gapC8 => .illAddrC8
  | .gapD0 => .illAddrD0
  | .gapE0 => .illAddrE0
  | .ctrl => .illAccessRdCtrl
  | .din => .illAccessRdDin
  | .id => .rdId
  | .cfg => .rdCfg
  | .status => .rdStatus
  | .err => .rdErr
  | .lenLo => .rdLenLo
  | .lenHi => .rdLenHi
  | .h i => .rdH i
  | .r i => .rdR i
  | .blk j => .rdBlk j
  | .w t => .rdW t
  | .k t => .rdK t
  | .iv i => .rdIv i

/-- A write (`WE = 1`), in the order of R88. -/
def decodeWrite (wdata : Word) : Reg → Instr
  | .gap18 => .illAddr18
  | .gap30 => .illAddr30
  | .gapC8 => .illAddrC8
  | .gapD0 => .illAddrD0
  | .gapE0 => .illAddrE0
  | .id => .illAccessWrId
  | .status => .illAccessWrStatus
  | .err => .illAccessWrErr
  | .lenLo => .illAccessWrLen
  | .lenHi => .illAccessWrLen
  | .h _ => .illAccessWrH
  | .r _ => .illAccessWrR
  | .blk _ => .illAccessWrBlk
  | .w _ => .illAccessWrW
  | .k _ => .illAccessWrK
  | .iv _ => .illAccessWrIv
  | .ctrl => decodeCommand (wdata.extractLsb' 0 3)
  | .cfg => .wrCfg (wdata.extractLsb' 0 3)
  | .din => .push (wdata.extractLsb' 0 8)

/-- The instruction a transaction word is: every word is exactly one (R84, R86, R88). -/
def decodeBus (tw : BitVec 41) : Instr :=
  if twWe tw then decodeWrite (twWdata tw) (regOf (twAddr tw)) else decodeRead (regOf (twAddr tw))

/-- The micro-operation a `PHASE` code selects (R90). -/
def decodeMicroOp (phase : BitVec 3) : Except DecodeError Instr :=
  if phase = 1 then .ok .uPad1
  else if phase = 2 then .ok .uSched
  else if phase = 3 then .ok .uLoad
  else if phase = 4 then .ok .uRound
  else if phase = 5 then .ok .uAccum
  else if phase = 6 then .ok .uPad2
  else .error .noMicroOperation

/-- The decoder of both kinds of instruction. -/
def decode : Encoded → Except DecodeError Instr
  | .transaction tw => .ok (decodeBus tw)
  | .microOp p => decodeMicroOp p

/-- Raw bits as an encoded instruction: a row of at most 8 bits is a `PHASE` code, a longer one a transaction word
(R81, R90; log entry 9). -/
def encodedOfBits (nbits w : Nat) : Except DecodeError Encoded :=
  if nbits ≤ 8 then
    if w < 2 ^ 3 then .ok (.microOp (BitVec.ofNat 3 w)) else .error .bitAboveWord
  else
    if w < 2 ^ 41 then .ok (.transaction (BitVec.ofNat 41 w)) else .error .bitAboveWord

/-- The decoder on raw bits, rejecting by name. -/
def decodeBits (nbits w : Nat) : Except DecodeError Instr :=
  match encodedOfBits nbits w with
  | .ok e => decode e
  | .error x => .error x

/-- The instruction the decoder reads from an instruction whose bits are `w`, numbered as the opcode table numbers
them: bit 0 is the least significant (R9, R81). -/
def decodeTableWord (nbits w : Nat) : Option Instr := (decodeBits nbits w).toOption

/-! ### Encoding -/

/-- A read of a register; the canonical `WDATA` of a read is 0 (R81). -/
def readWord (r : Reg) : Encoded := .transaction (transactionWord false (regAddr r) 0)

/-- A write of `wdata` to a register. -/
def writeWord (r : Reg) (wdata : Word) : Encoded := .transaction (transactionWord true (regAddr r) wdata)

/-- The canonical encoding of an instruction: every ignored bit 0 (R81, R84 to R86, R90). -/
def encode : Instr → Encoded
  | .rdId => readWord .id
  | .rdCfg => readWord .cfg
  | .wrCfg v => writeWord .cfg (v.setWidth 32)
  | .nop => writeWord .ctrl 0
  | .init => writeWord .ctrl 1
  | .final => writeWord .ctrl 2
  | .cont => writeWord .ctrl 3
  | .rdStatus => readWord .status
  | .rdErr => readWord .err
  | .push b => writeWord .din (b.setWidth 32)
  | .rdLenLo => readWord .lenLo
  | .rdLenHi => readWord .lenHi
  | .rdH i => readWord (.h i)
  | .rdR i => readWord (.r i)
  | .rdBlk j => readWord (.blk j)
  | .rdW t => readWord (.w t)
  | .rdK t => readWord (.k t)
  | .rdIv i => readWord (.iv i)
  | .illAddr18 => readWord .gap18
  | .illAddr30 => readWord .gap30
  | .illAddrC8 => readWord .gapC8
  | .illAddrD0 => readWord .gapD0
  | .illAddrE0 => readWord .gapE0
  | .illAccessWrId => writeWord .id 0
  | .illAccessRdCtrl => readWord .ctrl
  | .illAccessWrStatus => writeWord .status 0
  | .illAccessWrErr => writeWord .err 0
  | .illAccessRdDin => readWord .din
  | .illAccessWrLen => writeWord .lenLo 0
  | .illAccessWrH => writeWord (.h 0) 0
  | .illAccessWrR => writeWord (.r 0) 0
  | .illAccessWrBlk => writeWord (.blk 0) 0
  | .illAccessWrW => writeWord (.w 0) 0
  | .illAccessWrK => writeWord (.k 0) 0
  | .illAccessWrIv => writeWord (.iv 0) 0
  | .illCmd => writeWord .ctrl 4
  | .uPad1 => .microOp 1
  | .uSched => .microOp 2
  | .uLoad => .microOp 3
  | .uRound => .microOp 4
  | .uAccum => .microOp 5
  | .uPad2 => .microOp 6

/-! ### The opcode table -/

/-- The bits of an encoded instruction as one number. -/
def encodedValue : Encoded → Nat
  | .transaction tw => tw.toNat
  | .microOp p => p.toNat

/-- The bits a row looks at are what the row says. -/
def rowMatches (row : TableRow) (w : Nat) : Bool := w &&& row.mask == row.pattern

/-- The rows of the legal transactions (R84). -/
def legalRows : List TableRow :=
  [⟨"RD.ID", 0x1ff00000000, 0x00000000000⟩, ⟨"RD.CFG", 0x1ff00000000, 0x00100000000⟩,
   ⟨"WR.CFG", 0x1ff00000000, 0x10100000000⟩, ⟨"NOP", 0x1ff00000007, 0x10200000000⟩,
   ⟨"INIT", 0x1ff00000007, 0x10200000001⟩, ⟨"FINAL", 0x1ff00000007, 0x10200000002⟩,
   ⟨"CONT", 0x1ff00000007, 0x10200000003⟩, ⟨"RD.STATUS", 0x1ff00000000, 0x00300000000⟩,
   ⟨"RD.ERR", 0x1ff00000000, 0x00400000000⟩, ⟨"PUSH", 0x1ff00000000, 0x10500000000⟩,
   ⟨"RD.LEN_LO", 0x1ff00000000, 0x00600000000⟩, ⟨"RD.LEN_HI", 0x1ff00000000, 0x00700000000⟩,
   ⟨"RD.H", 0x1f800000000, 0x00800000000⟩, ⟨"RD.R", 0x1f800000000, 0x01000000000⟩,
   ⟨"RD.BLK", 0x1f000000000, 0x02000000000⟩, ⟨"RD.W", 0x1c000000000, 0x04000000000⟩,
   ⟨"RD.K", 0x1c000000000, 0x08000000000⟩, ⟨"RD.IV", 0x1f800000000, 0x0c000000000⟩]

/-- The rows of the illegal transactions (R86). -/
def illegalRows : List TableRow :=
  [⟨"ILL.ADDR.18", 0x0f800000000, 0x01800000000⟩, ⟨"ILL.ADDR.30", 0x0f000000000, 0x03000000000⟩,
   ⟨"ILL.ADDR.C8", 0x0f800000000, 0x0c800000000⟩, ⟨"ILL.ADDR.D0", 0x0f000000000, 0x0d000000000⟩,
   ⟨"ILL.ADDR.E0", 0x0e000000000, 0x0e000000000⟩,
   ⟨"ILL.ACCESS.WR_ID", 0x1ff00000000, 0x10000000000⟩, ⟨"ILL.ACCESS.RD_CTRL", 0x1ff00000000, 0x00200000000⟩,
   ⟨"ILL.ACCESS.WR_STATUS", 0x1ff00000000, 0x10300000000⟩, ⟨"ILL.ACCESS.WR_ERR", 0x1ff00000000, 0x10400000000⟩,
   ⟨"ILL.ACCESS.RD_DIN", 0x1ff00000000, 0x00500000000⟩, ⟨"ILL.ACCESS.WR_LEN", 0x1fe00000000, 0x10600000000⟩,
   ⟨"ILL.ACCESS.WR_H", 0x1f800000000, 0x10800000000⟩, ⟨"ILL.ACCESS.WR_R", 0x1f800000000, 0x11000000000⟩,
   ⟨"ILL.ACCESS.WR_BLK", 0x1f000000000, 0x12000000000⟩, ⟨"ILL.ACCESS.WR_W", 0x1c000000000, 0x14000000000⟩,
   ⟨"ILL.ACCESS.WR_K", 0x1c000000000, 0x18000000000⟩, ⟨"ILL.ACCESS.WR_IV", 0x1f800000000, 0x1c000000000⟩,
   ⟨"ILL.CMD", 0x1ff00000004, 0x10200000004⟩]

/-- The rows of the micro-operations, over the 3-bit `PHASE` register (R90). -/
def microOpRows : List TableRow :=
  [⟨"uPAD1", 7, 1⟩, ⟨"uSCHED", 7, 2⟩, ⟨"uLOAD", 7, 3⟩, ⟨"uROUND", 7, 4⟩, ⟨"uACCUM", 7, 5⟩, ⟨"uPAD2", 7, 6⟩]

/-- The rows that look at the same kind of word as an encoding. -/
def rowsFor : Encoded → List TableRow
  | .transaction _ => legalRows ++ illegalRows
  | .microOp _ => microOpRows

/-- The mnemonic of an instruction, as the opcode table spells it. -/
def mnemonic : Instr → String
  | .rdId => "RD.ID"
  | .rdCfg => "RD.CFG"
  | .wrCfg _ => "WR.CFG"
  | .nop => "NOP"
  | .init => "INIT"
  | .final => "FINAL"
  | .cont => "CONT"
  | .rdStatus => "RD.STATUS"
  | .rdErr => "RD.ERR"
  | .push _ => "PUSH"
  | .rdLenLo => "RD.LEN_LO"
  | .rdLenHi => "RD.LEN_HI"
  | .rdH _ => "RD.H"
  | .rdR _ => "RD.R"
  | .rdBlk _ => "RD.BLK"
  | .rdW _ => "RD.W"
  | .rdK _ => "RD.K"
  | .rdIv _ => "RD.IV"
  | .illAddr18 => "ILL.ADDR.18"
  | .illAddr30 => "ILL.ADDR.30"
  | .illAddrC8 => "ILL.ADDR.C8"
  | .illAddrD0 => "ILL.ADDR.D0"
  | .illAddrE0 => "ILL.ADDR.E0"
  | .illAccessWrId => "ILL.ACCESS.WR_ID"
  | .illAccessRdCtrl => "ILL.ACCESS.RD_CTRL"
  | .illAccessWrStatus => "ILL.ACCESS.WR_STATUS"
  | .illAccessWrErr => "ILL.ACCESS.WR_ERR"
  | .illAccessRdDin => "ILL.ACCESS.RD_DIN"
  | .illAccessWrLen => "ILL.ACCESS.WR_LEN"
  | .illAccessWrH => "ILL.ACCESS.WR_H"
  | .illAccessWrR => "ILL.ACCESS.WR_R"
  | .illAccessWrBlk => "ILL.ACCESS.WR_BLK"
  | .illAccessWrW => "ILL.ACCESS.WR_W"
  | .illAccessWrK => "ILL.ACCESS.WR_K"
  | .illAccessWrIv => "ILL.ACCESS.WR_IV"
  | .illCmd => "ILL.CMD"
  | .uPad1 => "uPAD1"
  | .uSched => "uSCHED"
  | .uLoad => "uLOAD"
  | .uRound => "uROUND"
  | .uAccum => "uACCUM"
  | .uPad2 => "uPAD2"

/-- The rows an encoding matches, by mnemonic. -/
def matchingRows (e : Encoded) : List String :=
  ((rowsFor e).filter (fun row => rowMatches row (encodedValue e))).map TableRow.mnemonic

end Sys2Proof
end

