-- ==== Sys2Proof/Machine/Functions.lean ====
section
/-! DEFINITION. The word functions of the schedule and the rounds, each written once, and the access to a file of
eight words. -/

namespace Sys2Proof.Machine

/-- `rotr(x, n)` for `1 <= n <= 31` (R10, R130). DESIGN CHOICE, safe (log entry 17): the spec defines no rotate by 0 or by
32 or more and the engine uses none; the function is total and gives `x` there. -/
def rotr (x : Word) (n : Nat) : Word := (x >>> n) ||| (x <<< (32 - n))

/-- `shr(x, n)`, zero fill (R10, R130). DESIGN CHOICE, safe (log entry 17): the spec defines no shift by 0 or by 32 or more
and the engine uses none; the function is total and gives `x` and 0 there. -/
def shr (x : Word) (n : Nat) : Word := x >>> n

/-- Lower-case sigma zero (R131). -/
def smallSigma0 (x : Word) : Word := rotr x 7 ^^^ rotr x 18 ^^^ shr x 3

/-- Lower-case sigma one (R132). -/
def smallSigma1 (x : Word) : Word := rotr x 17 ^^^ rotr x 19 ^^^ shr x 10

/-- Upper-case sigma zero (R141). -/
def bigSigma0 (x : Word) : Word := rotr x 2 ^^^ rotr x 13 ^^^ rotr x 22

/-- Upper-case sigma one (R142). -/
def bigSigma1 (x : Word) : Word := rotr x 6 ^^^ rotr x 11 ^^^ rotr x 25

/-- Choice (R143). -/
def ch (x y z : Word) : Word := (x &&& y) ^^^ (~~~x &&& z)

/-- Majority (R144). -/
def maj (x y z : Word) : Word := (x &&& y) ^^^ (x &&& z) ^^^ (y &&& z)

/-- The recurrence of the schedule on the four words `W[i-2]`, `W[i-7]`, `W[i-15]`, `W[i-16]` (R134). -/
def expandWord (w2 w7 w15 w16 : Word) : Word := smallSigma1 w2 + w7 + smallSigma0 w15 + w16

/-- The wire `T1` of a round with schedule word `w` and constant `k` (R147). -/
def roundT1 (w k : Word) (v : Words8) : Word := w + k + bigSigma1 v.w4 + ch v.w4 v.w5 v.w6 + v.w7

/-- The wire `T2` of a round (R147). -/
def roundT2 (v : Words8) : Word := bigSigma0 v.w0 + maj v.w0 v.w1 v.w2

/-- One round of the compression on `a..h` (R145, R147). -/
def compressRound (w k : Word) (v : Words8) : Words8 :=
  { w0 := roundT1 w k v + roundT2 v, w1 := v.w0, w2 := v.w1, w3 := v.w2,
    w4 := v.w3 + roundT1 w k v, w5 := v.w4, w6 := v.w5, w7 := v.w6 }

/-- The eight words of a file, word 0 first. -/
def wordList (v : Words8) : List Word := [v.w0, v.w1, v.w2, v.w3, v.w4, v.w5, v.w6, v.w7]

/-- Element `i` of a file of eight words. -/
def wordAt (v : Words8) (i : BitVec 3) : Word :=
  match i.toNat with
  | 0 => v.w0
  | 1 => v.w1
  | 2 => v.w2
  | 3 => v.w3
  | 4 => v.w4
  | 5 => v.w5
  | 6 => v.w6
  | _ => v.w7

/-- Elementwise sum modulo 2^32 (R156). -/
def addWords (u v : Words8) : Words8 :=
  { w0 := u.w0 + v.w0, w1 := u.w1 + v.w1, w2 := u.w2 + v.w2, w3 := u.w3 + v.w3,
    w4 := u.w4 + v.w4, w5 := u.w5 + v.w5, w6 := u.w6 + v.w6, w7 := u.w7 + v.w7 }

/-- The eight words as 256 bits, word 0 most significant (R158). -/
def joinWords (v : Words8) : BitVec 256 :=
  v.w0 ++ v.w1 ++ v.w2 ++ v.w3 ++ v.w4 ++ v.w5 ++ v.w6 ++ v.w7

/-- Four bytes as a word, the first most significant (R12, R62). -/
def wordOfBytes (b0 b1 b2 b3 : Byte) : Word := b0 ++ b1 ++ b2 ++ b3

/-- The eight bytes of a 64-bit value, most significant first (R12, R62, R106). -/
def be64 (v : BitVec 64) : List Byte :=
  [v.extractLsb' 56 8, v.extractLsb' 48 8, v.extractLsb' 40 8, v.extractLsb' 32 8,
   v.extractLsb' 24 8, v.extractLsb' 16 8, v.extractLsb' 8 8, v.extractLsb' 0 8]

end Sys2Proof.Machine
end

