-- ==== Sys2Proof/Config.lean ====
section
/-! DEFINITION. The free values. The engine has no parameter an implementation may vary (R7); what the spec leaves
open is what a location of `W` or `BUF` reads as while nothing has written it since reset (R15, U1, U2, U4). -/

namespace Sys2Proof

/-- What byte `j` of `BUF` reads as at draw number `d` while it is unwritten: any value, possibly a
different one at each read (R15, R49, U2). No body: nothing can be proved of it. Log entry 4. -/
opaque Config.freeByte (d j : Nat) : Byte

/-- What word `t` of `W` reads as at draw number `d` while it is unwritten (R15, R48, U1). Log entry 4. -/
opaque Config.freeWord (d t : Nat) : Word

end Sys2Proof
end

