-- ==== Sys2Proof/Machine/State.lean ====
section
/-! DEFINITION. The state of `sha256_core` (R20), its pins (R80), the reasons a step can stop, and the state after
reset (R53, R240). -/

namespace Sys2Proof.Machine

/-- The sequencer state `PHASE`; all eight codes are legal (R24). -/
inductive Phase where
  | accept | pad1 | sched | load | rounds | accum | pad2 | done
  deriving DecidableEq, Repr

/-- The five sticky bits of `ERR`, in bit order (R43, R213). -/
inductive ErrBit where
  | eAddr | eAccess | eIllCmd | eSeq | eTooLong
  deriving DecidableEq, Repr

/-- One sample of the input pins (R80), and whether the engine takes its step in this step of the model if it is
enabled (R70, R77). Log entry 1. -/
structure Inputs where
  rst : Bool
  reqValid : Bool
  reqWe : Bool
  reqAddr : BitVec 8
  reqWdata : Word
  engine : Bool
  deriving DecidableEq, Repr

/-- The state. The first thirteen fields are R20's complete list. -/
structure State where
  /-- `H[0..7]`, the running hash state (R47) -/
  h : Words8
  /-- `R[0..7]` = `a..h`, the working registers (R22) -/
  r : Words8
  /-- `W[0..63]`, the schedule memory: (index, word), strictly rising; an unlisted word has not been written since
  reset (R48) -/
  w : List (Nat × Word)
  /-- `BUF[0..63]`, the block buffer: (index, byte), strictly rising; an unlisted byte has not been written since
  reset (R49) -/
  buf : List Host.Cell
  /-- `FILL` (R34) -/
  fill : BitVec 7
  /-- `NBYTES` (R30) -/
  nbytes : BitVec 61
  /-- `FIN` (R31) -/
  fin : Bool
  /-- `LASTBLK` (R32) -/
  lastblk : Bool
  /-- `HALT` (R33) -/
  halt : Bool
  /-- `PHASE` (R24) -/
  phase : Phase
  /-- `T` (R25) -/
  t : BitVec 6
  /-- `CFG[2:0]`: `STEP`, `IE_DONE`, `IE_ERR` (R40) -/
  cfg : BitVec 3
  /-- `ERR[4:0]` (R43) -/
  err : BitVec 5
  /-- the pin `rsp_rdata` in the last step (R80); an output: nothing reads it (log entry 2) -/
  rspRdata : Word
  /-- the pin `rsp_err` in the last step (R80); an output: nothing reads it (log entry 2) -/
  rspErr : Bool
  /-- the input-pin samples still to come, the next one first (log entry 1) -/
  inputs : List Inputs
  /-- how many steps have drawn an unspecified value (R15; log entry 4) -/
  draws : Nat
  deriving DecidableEq, Repr

/-- Why the machine stops. The engine itself never faults (R201, R211); these are the model's. -/
inductive Fault where
  /-- `PUSH` or `uPAD1` with `FILL` above 63: the byte of `BUF` it would write does not exist (R34, R60). Raised by
  `execPush` and `execUPad1`, only in states the invariant of R34 rules out. Safe (log entry 6). -/
  | bufIndexOutside
  deriving DecidableEq, Repr

/-- Why the machine gives no meaning. -/
inductive Refusal where
  /-- an instruction that has no meaning yet; no arm of `exec` answers it; safe -/
  | notModelled (mnemonic : String)
  /-- a micro-operation that `PHASE` and `HALT` do not select: "otherwise no engine step exists" (R201), and taking
  one is what "a model refuses" (R204). Raised by every `execU…`; `step` never asks for one. Safe (log entry 7). -/
  | microOpNotSelected
  deriving DecidableEq, Repr

/-- The state after reset (R53, R240): `W` and `BUF` unwritten, no input sample waiting. -/
def State.reset : State :=
  { h := initialValue
    r := ⟨0, 0, 0, 0, 0, 0, 0, 0⟩
    w := []
    buf := []
    fill := 0
    nbytes := 0
    fin := false
    lastblk := false
    halt := false
    phase := .accept
    t := 0
    cfg := 0
    err := 0
    rspRdata := 0
    rspErr := false
    inputs := []
    draws := 0 }

end Sys2Proof.Machine
end

