-- ==== Sys2Proof/Machine/Ops.lean ====
section
/-! DEFINITION. The named operations over memories and registers, and raising an error (R212), the one exception
mechanism of the engine. There is no return from it (R223): `INIT` and reset clear `ERR`. -/

namespace Sys2Proof.Memory

/-- What location `j` holds; `none` where nothing has been written since reset. -/
def read? {α : Type} (j : Nat) : List (Nat × α) → Option α
  | [] => none
  | (a, v) :: m => if a = j then some v else read? j m

/-- Write `v` to location `j`, keeping the list strictly rising. -/
def write {α : Type} (j : Nat) (v : α) : List (Nat × α) → List (Nat × α)
  | [] => [(j, v)]
  | (a, x) :: m =>
    if j < a then (j, v) :: (a, x) :: m
    else if j = a then (j, v) :: m
    else (a, x) :: write j v m

/-- Write consecutive locations from `j` on (`MemWrite`, R12). -/
def writeAll {α : Type} (j : Nat) : List α → List (Nat × α) → List (Nat × α)
  | [], m => m
  | v :: vs, m => writeAll (j + 1) vs (write j v m)

/-- Strictly rising locations, from `lo` on and below `size`. -/
def rising {α : Type} (size : Nat) : Nat → List (Nat × α) → Bool
  | _, [] => true
  | lo, (a, _) :: m => decide (lo ≤ a) && decide (a < size) && rising size (a + 1) m

/-- The canonical form of a memory of `size` locations. -/
def wf {α : Type} (size : Nat) (m : List (Nat × α)) : Bool := rising size 0 m

end Sys2Proof.Memory

namespace Sys2Proof.Machine

/-! ### Phases (R24) -/

/-- The 3-bit code of a phase (R24). -/
def phaseCode : Phase → BitVec 3
  | .accept => 0
  | .pad1 => 1
  | .sched => 2
  | .load => 3
  | .rounds => 4
  | .accum => 5
  | .pad2 => 6
  | .done => 7

/-- The phase of a 3-bit code (R24). -/
def phaseOfCode (p : BitVec 3) : Phase :=
  if p = 0 then .accept
  else if p = 1 then .pad1
  else if p = 2 then .sched
  else if p = 3 then .load
  else if p = 4 then .rounds
  else if p = 5 then .accum
  else if p = 6 then .pad2
  else .done

/-- `1 <= PHASE <= 6` (R28, R42). -/
def busy : Phase → Bool
  | .accept => false
  | .done => false
  | _ => true

/-! ### The response of a transaction (R80, R170) -/

/-- A transaction that raises nothing answers `rdata` with `err = 0` (R170). -/
def respond (rdata : Word) (s : State) : State := { s with rspRdata := rdata, rspErr := false }

/-- A step without a transaction: `rsp_rdata = 0`, `rsp_err = 0` (R80). -/
def quiet (s : State) : State := respond 0 s

/-! ### Raising an error (R212) -/

/-- The bit of `ERR` (R43). -/
def errMask : ErrBit → BitVec 5
  | .eAddr => 0b00001
  | .eAccess => 0b00010
  | .eIllCmd => 0b00100
  | .eSeq => 0b01000
  | .eTooLong => 0b10000

/-- `raise Err(E_x)`: the bit is set and stays set, `rdata = 0`, `err = 1`, nothing else changes (R212). -/
def raiseErr (x : ErrBit) (s : State) : State :=
  { s with err := s.err ||| errMask x, rspRdata := 0, rspErr := true }

/-! ### Draws and the single-step hold -/

/-- Count a draw of an unspecified value, so that a later draw may differ (R15; log entry 4). -/
def noteDraw (drawn : Bool) (s : State) : State :=
  if drawn then { s with draws := s.draws + 1 } else s

/-- The last line of every micro-operation: `if CFG.STEP = 1 then HALT <- 1` (R33, R201). -/
def holdIfStep (s : State) : State := { s with halt := s.halt || s.cfg.getLsbD 0 }

/-- The micro-operation of phase `p` is the one the engine performs now (R28, R90). -/
def selected (p : Phase) (s : State) : Bool := decide (s.phase = p) && !s.halt

/-! ### Reset and INIT -/

/-- `INIT`'s writes (R191): not `CFG`, `R`, `W`, `BUF`. -/
def initMessage (s : State) : State :=
  { s with h := initialValue, nbytes := 0, fill := 0, fin := false, lastblk := false, halt := false,
           phase := .accept, t := 0, err := 0 }

/-- Hardware reset (R240): the reset state, with `W` and `BUF` unspecified whatever they held (R53, C11, U4). The
inputs still to come and the count of draws are not the engine's and go on (log entries 1, 5). -/
def hardReset (s : State) : State := { State.reset with inputs := s.inputs, draws := s.draws }

end Sys2Proof.Machine
end

