-- ==== Sys2Proof/Machine/Operands.lean ====
section
/-! DEFINITION. What instructions read: the message length, bytes and words of the block buffer, words of the
schedule memory, and the bytes the padding writes. A location nothing has written since reset reads as a draw. -/

namespace Sys2Proof.Machine

/-- `L = NBYTES * 8`, 64 bits (R30). -/
def messageBits (s : State) : BitVec 64 := s.nbytes.setWidth 64 * 8

/-- `BUF[j]` (R49). -/
def bufByte (s : State) (j : Nat) : Byte := (Memory.read? j s.buf).getD (Config.freeByte s.draws j)

/-- Byte `j` of `BUF` is unspecified (R15, U2). -/
def bufUnwritten (s : State) (j : Nat) : Bool := (Memory.read? j s.buf).isNone

/-- `MemRead(BUF, 4j, 4)` (R12, R46). -/
def blkWord (s : State) (j : Nat) : Word :=
  wordOfBytes (bufByte s (4 * j)) (bufByte s (4 * j + 1)) (bufByte s (4 * j + 2)) (bufByte s (4 * j + 3))

/-- Some byte of word `j` of `BUF` is unspecified. -/
def blkUnwritten (s : State) (j : Nat) : Bool :=
  bufUnwritten s (4 * j) || bufUnwritten s (4 * j + 1) || bufUnwritten s (4 * j + 2) || bufUnwritten s (4 * j + 3)

/-- `W[t]` (R48). -/
def schedWord (s : State) (t : Nat) : Word := (Memory.read? t s.w).getD (Config.freeWord s.draws t)

/-- Word `t` of `W` is unspecified (R15, U1). -/
def schedUnwritten (s : State) (t : Nat) : Bool := (Memory.read? t s.w).isNone

/-- The schedule word `uSCHED` computes at index `t` (R135). -/
def nextSchedWord (s : State) (t : Nat) : Word :=
  if t ≤ 15 then blkWord s t
  else expandWord (schedWord s (t - 2)) (schedWord s (t - 7)) (schedWord s (t - 15)) (schedWord s (t - 16))

/-- `uSCHED` at index `t` reads an unspecified location. -/
def nextSchedUnwritten (s : State) (t : Nat) : Bool :=
  if t ≤ 15 then blkUnwritten s t
  else schedUnwritten s (t - 2) || schedUnwritten s (t - 7) || schedUnwritten s (t - 15) || schedUnwritten s (t - 16)

/-- What `uPAD1` writes from `BUF[f]` to `BUF[63]` (R110): `0x80`, zeros, and the length where it fits. -/
def padTail (f : Nat) (len : BitVec 64) : List Byte :=
  if f ≤ 55 then 0x80 :: (List.replicate (55 - f) 0x00 ++ be64 len)
  else 0x80 :: List.replicate (63 - f) 0x00

/-- What `uPAD2` writes from `BUF[0]` to `BUF[63]` (R112). -/
def padBlock (len : BitVec 64) : List Byte := List.replicate 56 0x00 ++ be64 len

end Sys2Proof.Machine
end

