-- ==== Sys2Proof/Machine/Flags.lean ====
section
/-! DEFINITION. What the host sees as functions of the state: the fields of `CFG`, `STATUS` (R42), the interrupt line
(R220) and the digest ports (R158). The engine has no condition codes (R29). -/

namespace Sys2Proof.Machine

/-- `CFG.STEP` (R40). -/
def cfgStep (s : State) : Bool := s.cfg.getLsbD 0

/-- `CFG.IE_DONE` (R40). -/
def cfgIeDone (s : State) : Bool := s.cfg.getLsbD 1

/-- `CFG.IE_ERR` (R40). -/
def cfgIeErr (s : State) : Bool := s.cfg.getLsbD 2

/-- `STATUS.READY` (R42). -/
def statusReady (s : State) : Bool := decide (s.phase = .accept)

/-- `STATUS.BUSY` (R42). -/
def statusBusy (s : State) : Bool := busy s.phase

/-- `STATUS.DONE` (R42). -/
def statusDone (s : State) : Bool := decide (s.phase = .done)

/-- `STATUS.ERRANY` (R42). -/
def statusErrAny (s : State) : Bool := decide (s.err ≠ 0)

/-- `STATUS.VALID` (R42, R215), and the port `digest_valid_o` (R158). -/
def statusValid (s : State) : Bool := statusDone s && !statusErrAny s

/-- `STATUS[7:0]` (R42). -/
def statusFlags (s : State) : BitVec 8 :=
  BitVec.ofBool (statusErrAny s) ++ BitVec.ofBool s.lastblk ++ BitVec.ofBool s.fin ++ BitVec.ofBool s.halt ++
  BitVec.ofBool (statusValid s) ++ BitVec.ofBool (statusDone s) ++ BitVec.ofBool (statusBusy s) ++
  BitVec.ofBool (statusReady s)

/-- The `STATUS` register (R42, R174): `FILL` in 30:24, `T` in 21:16, `PHASE` in 10:8, reserved bits 0. -/
def statusWord (s : State) : Word :=
  wordOfBytes (0#1 ++ s.fill) (0#2 ++ s.t) (0#5 ++ phaseCode s.phase) (statusFlags s)

/-- The interrupt output, a level computed from the state (R220). -/
def irq (s : State) : Bool := (cfgIeDone s && statusDone s) || (cfgIeErr s && statusErrAny s)

/-- The port `digest_o`: `H[0] || ... || H[7]` at all times (R158). -/
def digestPort (s : State) : BitVec 256 := joinWords s.h

/-- The port `digest_valid_o` (R80, R158). -/
def digestValidPort (s : State) : Bool := statusValid s

/-- The engine's step is enabled: `1 <= PHASE <= 6` and `HALT = 0` (R28, R200). -/
def engineEnabled (s : State) : Bool := busy s.phase && !s.halt

end Sys2Proof.Machine
end

