-- ==== Sys2Proof/Machine/ScheduleExpander.lean ====
section
/-! DEFINITION. schedule_expander, the message scheduler: `uSCHED` (R135). -/

namespace Sys2Proof.Machine

open Host (Outcome)

/-- `T` and `PHASE` after a step of a phase that counts `T` from 0 to 63 and then goes to `after` (R25, R26). -/
def advance (after : Phase) (s : State) : State :=
  if s.t.toNat = 63 then { s with phase := after, t := 0 } else { s with t := s.t + 1 }

/-- `uSCHED` (R135). -/
def execUSched (s : State) : Outcome State Fault Refusal :=
  if selected .sched s then
    .next (holdIfStep (noteDraw (nextSchedUnwritten s s.t.toNat) (advance .load
      { s with w := Memory.write s.t.toNat (nextSchedWord s s.t.toNat) s.w })))
  else .refused .microOpNotSelected

end Sys2Proof.Machine
end

