-- ==== Sys2Proof/Machine/CompressionFsm.lean ====
section
/-! DEFINITION. compression_fsm, the round compressor: `uLOAD` (R146), `uROUND` (R147). -/

namespace Sys2Proof.Machine

open Host (Outcome)

/-- `uLOAD` (R146). -/
def execULoad (s : State) : Outcome State Fault Refusal :=
  if selected .load s then .next (holdIfStep { s with r := s.h, phase := .rounds, t := 0 })
  else .refused .microOpNotSelected

/-- `uROUND` (R147). -/
def execURound (s : State) : Outcome State Fault Refusal :=
  if selected .rounds s then
    .next (holdIfStep (noteDraw (schedUnwritten s s.t.toNat) (advance .accum
      { s with r := compressRound (schedWord s s.t.toNat) (roundConstant s.t) s.r })))
  else .refused .microOpNotSelected

end Sys2Proof.Machine
end

