-- ==== Sys2Proof/Machine/DigestFinalizer.lean ====
section
/-! DEFINITION. digest_finalizer, the digest accumulator: `uACCUM` (R156). -/

namespace Sys2Proof.Machine

open Host (Outcome)

/-- The phase after `uACCUM` (R156, R157). -/
def afterAccum (s : State) : Phase :=
  if s.fin = false then .accept else if s.lastblk then .done else .pad2

/-- `uACCUM` (R156). -/
def execUAccum (s : State) : Outcome State Fault Refusal :=
  if selected .accum s then
    .next (holdIfStep { s with h := addWords s.h s.r, fill := 0, t := 0, phase := afterAccum s })
  else .refused .microOpNotSelected

end Sys2Proof.Machine
end

