-- ==== Sys2Proof/Machine/HostCommands.lean ====
section
/-! DEFINITION. The `CFG` write (R173) and the commands of `CTRL` (R190 to R193). -/

namespace Sys2Proof.Machine

open Host (Outcome)

/-- `WR.CFG` (R173). -/
def execWrCfg (v : BitVec 3) (s : State) : Outcome State Fault Refusal := .next (respond 0 { s with cfg := v })

/-- `NOP` (R190). -/
def execNop (s : State) : Outcome State Fault Refusal := .next (respond 0 s)

/-- `INIT` (R191). -/
def execInit (s : State) : Outcome State Fault Refusal := .next (respond 0 (initMessage s))

/-- `FINAL` (R192). -/
def execFinal (s : State) : Outcome State Fault Refusal :=
  if s.phase ≠ .accept then .next (raiseErr .eSeq s)
  else .next (respond 0 { s with fin := true, phase := .pad1 })

/-- `CONT` (R193). -/
def execCont (s : State) : Outcome State Fault Refusal :=
  if s.halt = false then .next (raiseErr .eSeq s)
  else .next (respond 0 { s with halt := false })

end Sys2Proof.Machine
end

