-- ==== Sys2Proof/Machine/HostReads.lean ====
section
/-! DEFINITION. Register reads (R170 to R172, R174 to R183): each answers a value of the state before the step and
changes nothing else; a read of an unspecified location is a draw. -/

namespace Sys2Proof.Machine

open Host (Outcome)

/-- `RD.ID` (R171). -/
def execRdId (s : State) : Outcome State Fault Refusal := .next (respond idValue s)

/-- `RD.CFG` (R172). -/
def execRdCfg (s : State) : Outcome State Fault Refusal := .next (respond (s.cfg.setWidth 32) s)

/-- `RD.STATUS` (R174). -/
def execRdStatus (s : State) : Outcome State Fault Refusal := .next (respond (statusWord s) s)

/-- `RD.ERR` (R175). -/
def execRdErr (s : State) : Outcome State Fault Refusal := .next (respond (s.err.setWidth 32) s)

/-- `RD.LEN_LO` (R176). -/
def execRdLenLo (s : State) : Outcome State Fault Refusal := .next (respond ((messageBits s).extractLsb' 0 32) s)

/-- `RD.LEN_HI` (R177). -/
def execRdLenHi (s : State) : Outcome State Fault Refusal := .next (respond ((messageBits s).extractLsb' 32 32) s)

/-- `RD.H` (R178). -/
def execRdH (i : BitVec 3) (s : State) : Outcome State Fault Refusal := .next (respond (wordAt s.h i) s)

/-- `RD.R` (R179). -/
def execRdR (i : BitVec 3) (s : State) : Outcome State Fault Refusal := .next (respond (wordAt s.r i) s)

/-- `RD.BLK` (R180). -/
def execRdBlk (j : BitVec 4) (s : State) : Outcome State Fault Refusal :=
  .next (noteDraw (blkUnwritten s j.toNat) (respond (blkWord s j.toNat) s))

/-- `RD.W` (R181). -/
def execRdW (t : BitVec 6) (s : State) : Outcome State Fault Refusal :=
  .next (noteDraw (schedUnwritten s t.toNat) (respond (schedWord s t.toNat) s))

/-- `RD.K` (R182). -/
def execRdK (t : BitVec 6) (s : State) : Outcome State Fault Refusal := .next (respond (roundConstant t) s)

/-- `RD.IV` (R183). -/
def execRdIv (i : BitVec 3) (s : State) : Outcome State Fault Refusal := .next (respond (wordAt initialValue i) s)

end Sys2Proof.Machine
end

