-- ==== Sys2Proof/Machine/Illegal.lean ====
section
/-! DEFINITION. The illegal transactions (R86): an unmapped register number (R184), the wrong kind of access (R185), a
reserved command code (R194). Each raises its error (R212) and has no other effect. -/

namespace Sys2Proof.Machine

open Host (Outcome)

/-- `ILL.ADDR.18` (R184). -/
def execIllAddr18 (s : State) : Outcome State Fault Refusal := .next (raiseErr .eAddr s)

/-- `ILL.ADDR.30` (R184). -/
def execIllAddr30 (s : State) : Outcome State Fault Refusal := .next (raiseErr .eAddr s)

/-- `ILL.ADDR.C8` (R184). -/
def execIllAddrC8 (s : State) : Outcome State Fault Refusal := .next (raiseErr .eAddr s)

/-- `ILL.ADDR.D0` (R184). -/
def execIllAddrD0 (s : State) : Outcome State Fault Refusal := .next (raiseErr .eAddr s)

/-- `ILL.ADDR.E0` (R184). -/
def execIllAddrE0 (s : State) : Outcome State Fault Refusal := .next (raiseErr .eAddr s)

/-- `ILL.ACCESS.WR_ID` (R185). -/
def execIllAccessWrId (s : State) : Outcome State Fault Refusal := .next (raiseErr .eAccess s)

/-- `ILL.ACCESS.RD_CTRL` (R185). -/
def execIllAccessRdCtrl (s : State) : Outcome State Fault Refusal := .next (raiseErr .eAccess s)

/-- `ILL.ACCESS.WR_STATUS` (R185). -/
def execIllAccessWrStatus (s : State) : Outcome State Fault Refusal := .next (raiseErr .eAccess s)

/-- `ILL.ACCESS.WR_ERR` (R185). -/
def execIllAccessWrErr (s : State) : Outcome State Fault Refusal := .next (raiseErr .eAccess s)

/-- `ILL.ACCESS.RD_DIN` (R185). -/
def execIllAccessRdDin (s : State) : Outcome State Fault Refusal := .next (raiseErr .eAccess s)

/-- `ILL.ACCESS.WR_LEN` (R185). -/
def execIllAccessWrLen (s : State) : Outcome State Fault Refusal := .next (raiseErr .eAccess s)

/-- `ILL.ACCESS.WR_H` (R185). -/
def execIllAccessWrH (s : State) : Outcome State Fault Refusal := .next (raiseErr .eAccess s)

/-- `ILL.ACCESS.WR_R` (R185). -/
def execIllAccessWrR (s : State) : Outcome State Fault Refusal := .next (raiseErr .eAccess s)

/-- `ILL.ACCESS.WR_BLK` (R185). -/
def execIllAccessWrBlk (s : State) : Outcome State Fault Refusal := .next (raiseErr .eAccess s)

/-- `ILL.ACCESS.WR_W` (R185). -/
def execIllAccessWrW (s : State) : Outcome State Fault Refusal := .next (raiseErr .eAccess s)

/-- `ILL.ACCESS.WR_K` (R185). -/
def execIllAccessWrK (s : State) : Outcome State Fault Refusal := .next (raiseErr .eAccess s)

/-- `ILL.ACCESS.WR_IV` (R185). -/
def execIllAccessWrIv (s : State) : Outcome State Fault Refusal := .next (raiseErr .eAccess s)

/-- `ILL.CMD` (R194). -/
def execIllCmd (s : State) : Outcome State Fault Refusal := .next (raiseErr .eIllCmd s)

end Sys2Proof.Machine
end

