-- ==== Sys2Proof/Machine/PadControl.lean ====
section
/-! DEFINITION. pad_control, the message padder: `PUSH` (R108), `uPAD1` (R110), `uPAD2` (R112). -/

namespace Sys2Proof.Machine

open Host (Outcome)

/-- `NBYTES` at its largest value, 2^61 - 1: the next byte would make the length 2^64 bits (R107). -/
def lengthFull (s : State) : Bool := decide (s.nbytes.toNat = 2 ^ 61 - 1)

/-- `PUSH` (R108). The test of `FILL` against the end of `BUF` comes last: log entry 6. -/
def execPush (b : Byte) (s : State) : Outcome State Fault Refusal :=
  if s.phase ≠ .accept then .next (raiseErr .eSeq s)
  else if lengthFull s then .next (raiseErr .eTooLong s)
  else if 63 < s.fill.toNat then .fault .bufIndexOutside
  else
    .next (respond 0
      { s with
        buf := Memory.write s.fill.toNat b s.buf
        nbytes := s.nbytes + 1
        fill := s.fill + 1
        phase := if s.fill.toNat = 63 then .sched else .accept
        t := if s.fill.toNat = 63 then 0 else s.t })

/-- A complete block in the buffer starts the schedule: `FILL <- 64 ; PHASE <- SCHED ; T <- 0` (R110, R112). -/
def startBlock (buf : List Host.Cell) (last : Bool) (s : State) : State :=
  holdIfStep { s with buf := buf, lastblk := last, fill := 64, phase := .sched, t := 0 }

/-- `uPAD1` (R110). -/
def execUPad1 (s : State) : Outcome State Fault Refusal :=
  if selected .pad1 s then
    if 63 < s.fill.toNat then .fault .bufIndexOutside
    else
      .next (startBlock (Memory.writeAll s.fill.toNat (padTail s.fill.toNat (messageBits s)) s.buf)
        (decide (s.fill.toNat ≤ 55)) s)
  else .refused .microOpNotSelected

/-- `uPAD2` (R112). -/
def execUPad2 (s : State) : Outcome State Fault Refusal :=
  if selected .pad2 s then
    .next (startBlock (Memory.writeAll 0 (padBlock (messageBits s)) s.buf) true s)
  else .refused .microOpNotSelected

end Sys2Proof.Machine
end

