-- ==== Sys2Proof/Machine/Dispatch.lean ====
section
/-! DEFINITION. The meaning of every instruction, one arm per constructor. -/

namespace Sys2Proof.Machine

def exec (i : Instr) (s : State) : Host.Outcome State Fault Refusal :=
  match i with
  | .rdId => Sys2Proof.Machine.execRdId s
  | .rdCfg => Sys2Proof.Machine.execRdCfg s
  | .wrCfg v => Sys2Proof.Machine.execWrCfg v s
  | .nop => Sys2Proof.Machine.execNop s
  | .init => Sys2Proof.Machine.execInit s
  | .final => Sys2Proof.Machine.execFinal s
  | .cont => Sys2Proof.Machine.execCont s
  | .rdStatus => Sys2Proof.Machine.execRdStatus s
  | .rdErr => Sys2Proof.Machine.execRdErr s
  | .push b => Sys2Proof.Machine.execPush b s
  | .rdLenLo => Sys2Proof.Machine.execRdLenLo s
  | .rdLenHi => Sys2Proof.Machine.execRdLenHi s
  | .rdH n => Sys2Proof.Machine.execRdH n s
  | .rdR n => Sys2Proof.Machine.execRdR n s
  | .rdBlk j => Sys2Proof.Machine.execRdBlk j s
  | .rdW t => Sys2Proof.Machine.execRdW t s
  | .rdK t => Sys2Proof.Machine.execRdK t s
  | .rdIv n => Sys2Proof.Machine.execRdIv n s
  | .illAddr18 => Sys2Proof.Machine.execIllAddr18 s
  | .illAddr30 => Sys2Proof.Machine.execIllAddr30 s
  | .illAddrC8 => Sys2Proof.Machine.execIllAddrC8 s
  | .illAddrD0 => Sys2Proof.Machine.execIllAddrD0 s
  | .illAddrE0 => Sys2Proof.Machine.execIllAddrE0 s
  | .illAccessWrId => Sys2Proof.Machine.execIllAccessWrId s
  | .illAccessRdCtrl => Sys2Proof.Machine.execIllAccessRdCtrl s
  | .illAccessWrStatus => Sys2Proof.Machine.execIllAccessWrStatus s
  | .illAccessWrErr => Sys2Proof.Machine.execIllAccessWrErr s
  | .illAccessRdDin => Sys2Proof.Machine.execIllAccessRdDin s
  | .illAccessWrLen => Sys2Proof.Machine.execIllAccessWrLen s
  | .illAccessWrH => Sys2Proof.Machine.execIllAccessWrH s
  | .illAccessWrR => Sys2Proof.Machine.execIllAccessWrR s
  | .illAccessWrBlk => Sys2Proof.Machine.execIllAccessWrBlk s
  | .illAccessWrW => Sys2Proof.Machine.execIllAccessWrW s
  | .illAccessWrK => Sys2Proof.Machine.execIllAccessWrK s
  | .illAccessWrIv => Sys2Proof.Machine.execIllAccessWrIv s
  | .illCmd => Sys2Proof.Machine.execIllCmd s
  | .uPad1 => Sys2Proof.Machine.execUPad1 s
  | .uSched => Sys2Proof.Machine.execUSched s
  | .uLoad => Sys2Proof.Machine.execULoad s
  | .uRound => Sys2Proof.Machine.execURound s
  | .uAccum => Sys2Proof.Machine.execUAccum s
  | .uPad2 => Sys2Proof.Machine.execUPad2 s

end Sys2Proof.Machine
end

