-- ==== Sys2Proof/Machine/Sequencer.lean ====
section
/-! DEFINITION. The top sequencer: which instruction a step performs (R200, R201), from one sample of the input pins
(R80), with the shared cycle of R77 and reset (R240). -/

namespace Sys2Proof.Machine

open Host (Outcome)

/-- The transaction word on the request pins (R80, R81). -/
def pinsWord (p : Inputs) : BitVec 41 := transactionWord p.reqWe p.reqAddr p.reqWdata

/-- No transaction and no reset: only the engine may act. -/
def enginePins : Inputs := ⟨false, false, false, 0, 0, true⟩

/-- The host performs a transaction; the engine takes no step. -/
def hostPins (tw : BitVec 41) : Inputs := ⟨false, true, twWe tw, twAddr tw, twWdata tw, false⟩

/-- The engine step: the micro-operation `PHASE` selects (R201). -/
def engineStep (s : State) : Outcome State Fault Refusal :=
  match decodeMicroOp (phaseCode s.phase) with
  | .ok i => exec i s
  | .error _ => .refused .microOpNotSelected

/-- The engine's part of a step: its micro-operation if `go`, and then only if it is enabled; otherwise nothing. -/
def engineTurn (go : Bool) (s : State) : Outcome State Fault Refusal :=
  if go && engineEnabled s then engineStep s else .next s

/-- The host step: the transaction on the pins (R200). -/
def hostStep (p : Inputs) (s : State) : Outcome State Fault Refusal := exec (decodeBus (pinsWord p)) s

/-- One step under one sample of the pins: reset (R240); or the transaction, and then the engine's micro-operation
where the two share a cycle and the engine was enabled at its start and still is (R77); or the engine alone, with
the response pins at 0 (R80). -/
def cycle (p : Inputs) (s : State) : Outcome State Fault Refusal :=
  if p.rst then .next (hardReset s)
  else if p.reqValid then
    match hostStep p s with
    | .next s' => engineTurn (p.engine && engineEnabled s) s'
    | .fault f => .fault f
    | .refused r => .refused r
  else engineTurn p.engine (quiet s)

/-- The sample the next step sees. Where none is left the host is silent and the engine goes on (R70's fairness). -/
def nextPins (s : State) : Inputs := s.inputs.headD enginePins

/-- The state with that sample taken. -/
def takePins (s : State) : State := { s with inputs := s.inputs.tail }

/-- The state in which the next step runs exactly the encoded instruction: a transaction stands on the pins; a
micro-operation is selected by `PHASE` with `HALT = 0` and the engine alone acts. -/
def present (e : Encoded) (s : State) : State :=
  match e with
  | .transaction tw => { s with inputs := hostPins tw :: s.inputs }
  | .microOp p => { s with phase := phaseOfCode p, halt := false, inputs := enginePins :: s.inputs }

/-- `present` for raw bits; bits that are no encoding change nothing. -/
def presentBits (nbits w : Nat) (s : State) : State :=
  match encodedOfBits nbits w with
  | .ok e => present e s
  | .error _ => s

end Sys2Proof.Machine
end

