-- ==== Sys2Proof/Machine/Step.lean ====
section
/-! DEFINITION. The step, and where it takes its next instruction from. -/

namespace Sys2Proof.Machine

/-- One step of the machine: the next sample of the input pins is taken and acted on. -/
def step (s : State) : Host.Outcome State Fault Refusal := cycle (nextPins s) (takePins s)

/-- `s` with the instruction whose bits are `w` placed so that the very next step runs it (log entry 8). -/
def State.withFetchWord (s : State) (nbits w : Nat) : State := presentBits nbits w s

end Sys2Proof.Machine
end

