-- ==== Sys2Proof/Machine/Protocol.lean ====
section
/-! DEFINITION. The host's side that the spec writes down: the pseudo-instructions (R92); the host that hashes a message
by the canonical protocol (R203), with its polls, its check of `VALID`, its single steps and its reads of the digest, in
every interleaving with the engine; and one interleaving of its writes as a sequence of input-pin samples. -/

namespace Sys2Proof.Machine

open Host (Outcome)

/-- `PUSHX b0 b1 ...` (R92). -/
def pushBytes (bs : List Byte) : List Instr := bs.map Instr.push

/-- The byte of a character: its ordinal value where that fits 8 bits (R92, R100). -/
def byteOfChar (c : Char) : Option Byte := if c.toNat < 256 then some (BitVec.ofNat 8 c.toNat) else none

/-- `PUSHS "text"` (R92). -/
def pushText (text : List Char) : Option (List Instr) := (text.mapM byteOfChar).map pushBytes

/-- `RDDIGEST` (R92). -/
def readDigest : List Instr :=
  [.rdH 0, .rdH 1, .rdH 2, .rdH 3, .rdH 4, .rdH 5, .rdH 6, .rdH 7]

/-- `WAIT READY` ends on this value of `STATUS` (R92). -/
def waitReadyEnds (status : Word) : Bool := status.getLsbD 0

/-- `WAIT DONE` ends on this value of `STATUS` (R92). -/
def waitDoneEnds (status : Word) : Bool := status.getLsbD 2

/-- `WAIT HALT` ends on this value of `STATUS` (R92). -/
def waitHaltEnds (status : Word) : Bool := status.getLsbD 4 || status.getLsbD 2 || status.getLsbD 0

/-- The pins of a step in which the host performs an instruction and the engine does nothing. -/
def pinsFor (i : Instr) : Inputs :=
  match encode i with
  | .transaction tw => hostPins tw
  | .microOp _ => enginePins

/-- Micro-operations from a full buffer to the next phase that needs the host (R250): 64 `uSCHED`, `uLOAD`,
64 `uROUND`, `uACCUM`. -/
def blockSteps : Nat := 130

/-- Micro-operations from `FINAL` to `DONE` for a message of `n` bytes (R250). -/
def finalSteps (n : Nat) : Nat := if n % 64 ≤ 55 then 1 + blockSteps else 2 * (1 + blockSteps)

/-- The pushes of a message whose first byte is byte number `start` of the whole, with the engine's steps after each
byte that fills the buffer. -/
def pushSchedule (start : Nat) : List Byte → List Inputs
  | [] => []
  | b :: bs =>
    pinsFor (.push b) :: ((if start % 64 = 63 then List.replicate blockSteps enginePins else []) ++ pushSchedule (start + 1) bs)

/-- The writes of the canonical protocol (R203) for a message, free running, in the interleaving in which the engine
runs to rest after every transaction: `INIT`, the bytes, `FINAL`. The whole protocol is the host below. -/
def hashSchedule (m : List Byte) : List Inputs :=
  pinsFor .init :: (pushSchedule 0 m ++ pinsFor .final :: List.replicate (finalSteps m.length) enginePins)

/-! ### The host that hashes a message (R203). DESIGN CHOICE, safe: its form as a machine (log entry 16). -/

/-- The ways R203 leaves a host. -/
structure HostPlan where
  /-- write this to `CFG` first: `STEP` for single steps (R193), `IE_DONE` to wait for `irq` -/
  cfg : Option (BitVec 3)
  /-- `INIT` first; not needed straight after reset -/
  init : Bool
  /-- after a read with `READY = 1`, push up to `64 - FILL` bytes before the next read (R71) -/
  batch : Bool
  /-- wait for `irq` before reading `STATUS` in the last loop -/
  useIrq : Bool
  deriving DecidableEq, Repr

/-- Where a host stands in R203's listing. -/
inductive HostPlace where
  /-- about to write `CFG` -/
  | writeCfg (v : BitVec 3)
  /-- about to issue `INIT` -/
  | init
  /-- `repeat s = RD STATUS until s[0] = 1`, before a byte or `FINAL` -/
  | pollReady
  /-- about to push `b`, and then up to `left` further bytes without a read -/
  | push (b : Byte) (left : Nat)
  /-- about to issue `FINAL` -/
  | final
  /-- waiting for `irq` -/
  | waitIrq
  /-- `repeat s = RD STATUS until s[2] = 1` -/
  | pollDone
  /-- a poll found `HALT = 1`: about to issue `CONT` (R193, R204), then back to the last loop or to the other one -/
  | cont (last : Bool)
  /-- `s[3] = 0`: about to read `ERR`, then `INIT` and start again -/
  | readErr
  /-- reading the digest: the reads still to do -/
  | readDigest (left : List Instr)
  /-- the digest has been read -/
  | finished
  deriving DecidableEq, Repr

/-- The host. -/
structure HostSide where
  place : HostPlace
  /-- the bytes still to push, but for one about to be pushed -/
  rest : List Byte
  /-- the words of the digest read so far -/
  digest : List Word
  /-- how often the check of `VALID` failed -/
  failures : Nat
  deriving DecidableEq, Repr

/-- Where the message starts, after any write of `CFG`. -/
def hostBegin (plan : HostPlan) : HostPlace := if plan.init then .init else .pollReady

/-- The host before its first transaction. -/
def hostStart (plan : HostPlan) (m : List Byte) : HostSide :=
  { place := match plan.cfg with
      | some v => .writeCfg v
      | none => hostBegin plan
    rest := m, digest := [], failures := 0 }

/-- The transaction the host performs next; none while it waits for `irq` and once it has finished. -/
def hostRequest (h : HostSide) : Option Instr :=
  match h.place with
  | .writeCfg v => some (.wrCfg v)
  | .init => some .init
  | .pollReady => some .rdStatus
  | .push b _ => some (.push b)
  | .final => some .final
  | .waitIrq => none
  | .pollDone => some .rdStatus
  | .cont _ => some .cont
  | .readErr => some .rdErr
  | .readDigest left => left.head?
  | .finished => none

/-- `STATUS.HALT` (R42). -/
def statusSaysHalt (status : Word) : Bool := status.getLsbD 4

/-- `STATUS.VALID`, the bit R203 checks (R42). -/
def statusSaysValid (status : Word) : Bool := status.getLsbD 3

/-- `STATUS.FILL` (R42). -/
def statusFill (status : Word) : Nat := (status.extractLsb' 24 7).toNat

/-- How many bytes may follow the next one without a read of `STATUS` (R71, R203). -/
def bytesAfterNext (plan : HostPlan) (status : Word) : Nat := if plan.batch then 63 - statusFill status else 0

/-- What follows a read of `STATUS` in the loop before a byte or `FINAL`. -/
def afterPollReady (plan : HostPlan) (status : Word) (h : HostSide) : HostSide :=
  if waitReadyEnds status then
    match h.rest with
    | b :: bs => { h with place := .push b (bytesAfterNext plan status), rest := bs }
    | [] => { h with place := .final }
  else if statusSaysHalt status then { h with place := .cont false }
  else h

/-- What follows a `PUSH`: the next byte at once while `left` allows it, else a read of `STATUS`. -/
def afterPush (left : Nat) (h : HostSide) : HostSide :=
  match left, h.rest with
  | n + 1, b :: bs => { h with place := .push b n, rest := bs }
  | _, _ => { h with place := .pollReady }

/-- What follows a read of `STATUS` in the last loop: the check of `VALID` is on the value that ended it. -/
def afterPollDone (status : Word) (h : HostSide) : HostSide :=
  if waitDoneEnds status then
    if statusSaysValid status then { h with place := .readDigest readDigest } else { h with place := .readErr }
  else if statusSaysHalt status then { h with place := .cont true }
  else h

/-- What follows a read of one word of the digest. -/
def afterDigestWord (v : Word) (h : HostSide) : HostSide :=
  match h.place with
  | .readDigest (_ :: i :: left) => { h with place := .readDigest (i :: left), digest := h.digest ++ [v] }
  | .readDigest _ => { h with place := .finished, digest := h.digest ++ [v] }
  | _ => h

/-- The host after its part of a step, in which it was answered `rdata` and saw `line` on `irq`. -/
def hostReceive (plan : HostPlan) (m : List Byte) (rdata : Word) (line : Bool) (h : HostSide) : HostSide :=
  match h.place with
  | .writeCfg _ => { h with place := hostBegin plan }
  | .init => { h with place := .pollReady }
  | .pollReady => afterPollReady plan rdata h
  | .push _ left => afterPush left h
  | .final => { h with place := if plan.useIrq then .waitIrq else .pollDone }
  | .waitIrq => if line then { h with place := .pollDone } else h
  | .pollDone => afterPollDone rdata h
  | .cont last => { h with place := if last then .pollDone else .pollReady }
  | .readErr => { h with place := .init, rest := m, digest := [], failures := h.failures + 1 }
  | .readDigest _ => afterDigestWord rdata h
  | .finished => h

/-- The eight words read, concatenated, the first most significant (R92, R203). -/
def hostDigest (h : HostSide) : Option (BitVec 256) :=
  match h.digest with
  | [w0, w1, w2, w3, w4, w5, w6, w7] => some (joinWords ⟨w0, w1, w2, w3, w4, w5, w6, w7⟩)
  | _ => none

/-! ### The host and the engine together (R70, R77) -/

/-- What the host does in a step. -/
inductive HostAct where
  /-- nothing -/
  | wait
  /-- its next transaction of the protocol, or its wait for `irq` -/
  | proceed
  /-- a transaction of its own choice beside the protocol: R204's liberties -/
  | other (i : Instr)
  deriving DecidableEq, Repr

/-- Who acts in a step: any list of turns is an interleaving of R70, with R77's shared cycles. -/
structure Turn where
  host : HostAct
  engine : Bool
  deriving DecidableEq, Repr

/-- The host and the engine. -/
structure Bench where
  host : HostSide
  engine : State
  deriving DecidableEq, Repr

/-- The pins of a step with this transaction, or none. -/
def turnPins (request : Option Instr) (engine : Bool) : Inputs :=
  match request with
  | some i => { pinsFor i with engine := engine }
  | none => { enginePins with engine := engine }

/-- The transaction the host puts on the pins in a turn. -/
def turnRequest (act : HostAct) (h : HostSide) : Option Instr :=
  match act with
  | .wait => none
  | .proceed => hostRequest h
  | .other i => some i

/-- One step of both. -/
def benchStep (plan : HostPlan) (m : List Byte) (turn : Turn) (b : Bench) : Outcome Bench Fault Refusal :=
  match step { b.engine with inputs := [turnPins (turnRequest turn.host b.host) turn.engine] } with
  | .next s =>
    .next { engine := s
            host := match turn.host with
              | .proceed => hostReceive plan m s.rspRdata (irq s) b.host
              | _ => b.host }
  | .fault f => .fault f
  | .refused r => .refused r

/-- A run of both under a list of turns. -/
def benchRun (plan : HostPlan) (m : List Byte) : List Turn → Bench → Outcome Bench Fault Refusal
  | [], b => .next b
  | turn :: turns, b =>
    match benchStep plan m turn b with
    | .next b' => benchRun plan m turns b'
    | .fault f => .fault f
    | .refused r => .refused r

/-- The host about to hash `m` on an engine in the state `s`. -/
def benchStart (plan : HostPlan) (m : List Byte) (s : State) : Bench := ⟨hostStart plan m, s⟩

end Sys2Proof.Machine
end

