-- ==== Sys2Proof/Machine/Reference.lean ====
section
/-! DEFINITION. The pure functions of the source: `bits`, `pad`, `split`, `schedule`, `compress` and `sha256` (R101,
R102, R105, R134, R145, R160). The engine is a way of computing them one byte at a time (R113, R163). -/

namespace Sys2Proof.Machine

/-! ### From bytes to padded blocks -/

/-- The bits of one byte, bit 7 first (R101). -/
def bitsOfByte (b : Byte) : List Bool :=
  [b.getLsbD 7, b.getLsbD 6, b.getLsbD 5, b.getLsbD 4, b.getLsbD 3, b.getLsbD 2, b.getLsbD 1, b.getLsbD 0]

/-- `bits(m)`: the message as a bit string (R101). -/
def messageBitString (m : List Byte) : List Bool := m.flatMap bitsOfByte

/-- `k = (447 - L) mod 512`, taken in 0..511 (R102, C1). -/
def zeroCount (len : Nat) : Nat := ((447 - (len : Int)) % 512).toNat

/-- The 64 bits of the length, bit 63 first (R102). DESIGN CHOICE, safe (log entry 15): a length of 2^64 or more, which
R102 gives no 64 bits, is taken modulo 2^64. -/
def len64 (len : Nat) : List Bool := (List.range 64).map (fun i => (BitVec.ofNat 64 len).getLsbD (63 - i))

/-- `pad(s) = s || 1 || 0^k || len64(L)` (R102). DESIGN CHOICE, safe (log entry 15): it is total; that the source fails on
2^64 bits or more (R107) is said in `messageTooLong`, which `sha256Words` asks first. -/
def pad (s : List Bool) : List Bool :=
  s ++ [true] ++ List.replicate (zeroCount s.length) false ++ len64 s.length

/-- The blocks of a bit string whose length is a multiple of 512 (R105); any other length is refused (S1). -/
def split (p : List Bool) : Option (List (List Bool)) :=
  if p.length % 512 = 0 then
    some ((List.range (p.length / 512)).map (fun q => (p.drop (512 * q)).take 512))
  else none

/-- A byte from eight bits, the first most significant (R101, R109). -/
def byteOfBits : List Bool → Byte
  | [b7, b6, b5, b4, b3, b2, b1, b0] =>
    BitVec.ofBool b7 ++ BitVec.ofBool b6 ++ BitVec.ofBool b5 ++ BitVec.ofBool b4 ++
    BitVec.ofBool b3 ++ BitVec.ofBool b2 ++ BitVec.ofBool b1 ++ BitVec.ofBool b0
  | _ => 0

/-- A bit string as bytes, the inverse of `bits`: how a block stands in `BUF` (R109). -/
def bytesOfBits : List Bool → List Byte
  | b7 :: b6 :: b5 :: b4 :: b3 :: b2 :: b1 :: b0 :: rest =>
    byteOfBits [b7, b6, b5, b4, b3, b2, b1, b0] :: bytesOfBits rest
  | _ => []

/-- `pad(bits(m))` as bytes. -/
def paddedBytes (m : List Byte) : List Byte := bytesOfBits (pad (messageBitString m))

/-! ### The schedule and the compression of a block -/

/-- Word `i` of a block given as bytes: `B[4i] || B[4i+1] || B[4i+2] || B[4i+3]` (R134). -/
def blockWord (block : List Byte) (i : Nat) : Word :=
  wordOfBytes (block.getD (4 * i) 0) (block.getD (4 * i + 1) 0) (block.getD (4 * i + 2) 0) (block.getD (4 * i + 3) 0)

/-- Word `i` of the schedule from the block and the words before it (R134). -/
def scheduleNext (block : List Byte) (before : List Word) (i : Nat) : Word :=
  if i ≤ 15 then blockWord block i
  else expandWord (before.getD (i - 2) 0) (before.getD (i - 7) 0) (before.getD (i - 15) 0) (before.getD (i - 16) 0)

/-- The first `n` words of the schedule (R134, R137). -/
def scheduleUpTo (block : List Byte) : Nat → List Word
  | 0 => []
  | n + 1 => scheduleUpTo block n ++ [scheduleNext block (scheduleUpTo block n) n]

/-- `schedule(B)`: 64 words (R134). -/
def schedule (block : List Byte) : List Word := scheduleUpTo block 64

/-- `a..h` after the first `n` rounds from a hash state (R145). -/
def roundsUpTo (start : Words8) (ws : List Word) : Nat → Words8
  | 0 => start
  | n + 1 => compressRound (ws.getD n 0) (roundConstant (BitVec.ofNat 6 n)) (roundsUpTo start ws n)

/-- `compress(S, W)` (R145). -/
def compress (start : Words8) (ws : List Word) : Words8 := addWords start (roundsUpTo start ws 64)

/-! ### The whole hash -/

/-- Block `q` of a sequence of bytes. -/
def byteBlock (q : Nat) (bs : List Byte) : List Byte := (bs.drop (64 * q)).take 64

/-- The hash state after the first `q` blocks of a sequence of bytes: `S_q` (R160). -/
def hashAfter (bs : List Byte) : Nat → Words8
  | 0 => initialValue
  | q + 1 => compress (hashAfter bs q) (schedule (byteBlock q bs))

/-- The source fails with `MessageTooLong`: the length in bits exceeds 2^64 - 1 (R107). -/
def messageTooLong (m : List Byte) : Bool := decide (2 ^ 64 ≤ 8 * m.length)

/-- `S_N` of R160, by way of `bits`, `pad` and `split`; `none` is the source's `MessageTooLong` (R107), or where `split`
refuses, which never happens (R104). -/
def sha256Words (m : List Byte) : Option Words8 :=
  if messageTooLong m then none
  else
    (split (pad (messageBitString m))).map
      (fun blocks => blocks.foldl (fun st b => compress st (schedule (bytesOfBits b))) initialValue)

/-- `sha256(m)`, 256 bits (R160). -/
def sha256 (m : List Byte) : Option (BitVec 256) := (sha256Words m).map joinWords

/-- Byte `4i + m` of the digest, byte 0 the top byte of `H[0]` (R158). -/
def digestBytes (d : BitVec 256) : List Byte := (List.range 32).map (fun n => d.extractLsb' (248 - 8 * n) 8)

/-- The hexadecimal digit of four bits, in the source's lower case (R158). -/
def hexDigit (n : BitVec 4) : Char := "0123456789abcdef".toList.getD n.toNat '0'

/-- The digest as 64 hexadecimal characters, the most significant digit of `H[0]` first (R158). -/
def digestHex (d : BitVec 256) : List Char := (List.range 64).map (fun n => hexDigit (d.extractLsb' (252 - 4 * n) 4))

end Sys2Proof.Machine
end

