-- ==== Sys2Proof/Safety.lean ====
section
/-! DEFINITION. What counts as a sound state and a good run: the invariants of R25, R31, R32, R34 and R49 (`Inv`), the
relation between a state and the message accepted so far (`Hashing`, R164), and what the last block leaves (R202). -/

namespace Sys2Proof.Machine

open Host (Outcome)

/-- Every location below `n` has been written since reset. -/
def WrittenBelow {α : Type} (n : Nat) (m : List (Nat × α)) : Prop := ∀ j, j < n → (Memory.read? j m).isSome = true

/-- The phases that work on a full block: `SCHED`, `LOAD`, `ROUNDS`, `ACCUM`. -/
def onBlock : Phase → Bool
  | .sched | .load | .rounds | .accum => true
  | _ => false

/-- What holds of `FILL`, `FIN`, `LASTBLK`, `T` and the memories in each phase (R25, R31, R32, R34, R49). -/
def PhaseFacts (s : State) : Prop :=
  match s.phase with
  | .accept => s.fill.toNat ≤ 63 ∧ s.fill.toNat = s.nbytes.toNat % 64 ∧ s.t = 0 ∧ s.fin = false ∧ s.lastblk = false ∧
      WrittenBelow s.fill.toNat s.buf
  | .pad1 => s.fill.toNat ≤ 63 ∧ s.fill.toNat = s.nbytes.toNat % 64 ∧ s.t = 0 ∧ s.fin = true ∧ s.lastblk = false ∧
      WrittenBelow s.fill.toNat s.buf
  | .sched => s.fill = 64 ∧ WrittenBelow 64 s.buf ∧ WrittenBelow s.t.toNat s.w
  | .load => s.fill = 64 ∧ s.t = 0 ∧ WrittenBelow 64 s.buf ∧ WrittenBelow 64 s.w
  | .rounds => s.fill = 64 ∧ WrittenBelow 64 s.buf ∧ WrittenBelow 64 s.w
  | .accum => s.fill = 64 ∧ s.t = 0 ∧ WrittenBelow 64 s.buf ∧ WrittenBelow 64 s.w
  | .pad2 => s.fill = 0 ∧ s.t = 0 ∧ s.fin = true ∧ s.lastblk = false
  | .done => s.fill = 0 ∧ s.t = 0 ∧ s.fin = true ∧ s.lastblk = true

/-- The invariant of the machine. -/
structure State.Inv (s : State) : Prop where
  /-- `BUF` is in canonical form and has no byte outside 0 to 63 (R60) -/
  bufWf : Memory.wf 64 s.buf = true
  /-- `W` is in canonical form and has no word outside 0 to 63 (R60) -/
  wWf : Memory.wf 64 s.w = true
  /-- what each phase says of the counters, flags and memories -/
  phaseFacts : PhaseFacts s
  /-- `LASTBLK` is 0 while `FIN = 0` (R32) -/
  lastblkNeedsFin : s.fin = false → s.lastblk = false
  /-- a data block in work was filled by `PUSH`: a whole number of blocks has been accepted (R34, R164) -/
  wholeBlocks : onBlock s.phase = true → s.fin = false → s.nbytes.toNat % 64 = 0
  /-- once padding is written, `LASTBLK = 0` means that the length had no room in its block (R111, R112) -/
  lengthNextBlock : s.phase ≠ .pad1 → s.fin = true → s.lastblk = false → 56 ≤ s.nbytes.toNat % 64

/-! ### The message accepted so far (R164) -/

/-- The message after the next step, from the message before it: an accepted `PUSH` appends its byte; `INIT` and
reset start a new message; nothing else changes it. -/
def messageAfter (m : List Byte) (s : State) : List Byte :=
  if (nextPins s).rst then []
  else if (nextPins s).reqValid then
    match decodeBus (pinsWord (nextPins s)) with
    | .init => []
    | .push b => if s.phase = .accept ∧ lengthFull s = false then m ++ [b] else m
    | _ => m
  else m

/-- The bytes whose blocks the engine compresses: the message while it is open, its padded form once `FINAL` has been
accepted. -/
def hashStream (fin : Bool) (m : List Byte) : List Byte := if fin then paddedBytes m else m

/-- Block `q` of the stream stands in `BUF`, and `LASTBLK` says whether it is the last one (R164 (ii)); where it is not,
the message ends in it and one block follows (R111). -/
def BlockInBuf (bs : List Byte) (q : Nat) (s : State) : Prop :=
  (∀ j, j < 64 → Memory.read? j s.buf = bs[64 * q + j]?) ∧
  (s.fin = false → 64 * (q + 1) = bs.length) ∧
  (s.fin = true → s.lastblk = true → 64 * (q + 1) = bs.length) ∧
  (s.fin = true → s.lastblk = false → 64 * (q + 2) = bs.length ∧ s.nbytes.toNat < 64 * (q + 1))

/-- The first `n` words of the block's schedule stand in `W` (R164 (iii), (iv)). -/
def SchedulePrefix (bs : List Byte) (q n : Nat) (s : State) : Prop :=
  ∀ i, i < n → Memory.read? i s.w = (schedule (byteBlock q bs))[i]?

/-- `BUF`, `W` and `R` hold what block `q` left (R202): the block, its schedule, its working registers after 64 rounds. -/
def BlockDone (bs : List Byte) (q : Nat) (s : State) : Prop :=
  (∀ j, j < 64 → Memory.read? j s.buf = bs[64 * q + j]?) ∧ SchedulePrefix bs q 64 s ∧
  s.r = roundsUpTo (hashAfter bs q) (schedule (byteBlock q bs)) 64

/-- Where the engine stands in hashing a stream, `q` blocks of which are compressed (R164 (i) to (vii)). -/
def Progress (bs : List Byte) (q : Nat) (s : State) : Prop :=
  s.h = hashAfter bs q ∧
  match s.phase with
  | .accept => q = s.nbytes.toNat / 64 ∧ ∀ j, j < s.fill.toNat → Memory.read? j s.buf = bs[64 * q + j]?
  | .pad1 => q = s.nbytes.toNat / 64 ∧ ∀ j, j < s.fill.toNat → Memory.read? j s.buf = bs[64 * q + j]?
  | .sched => BlockInBuf bs q s ∧ SchedulePrefix bs q s.t.toNat s
  | .load => BlockInBuf bs q s ∧ SchedulePrefix bs q 64 s
  | .rounds => BlockInBuf bs q s ∧ SchedulePrefix bs q 64 s ∧
      s.r = roundsUpTo (hashAfter bs q) (schedule (byteBlock q bs)) s.t.toNat
  | .accum => BlockInBuf bs q s ∧ SchedulePrefix bs q 64 s ∧
      s.r = roundsUpTo (hashAfter bs q) (schedule (byteBlock q bs)) 64
  | .pad2 => 64 * (q + 1) = bs.length ∧ s.nbytes.toNat < 64 * q
  | .done => 64 * q = bs.length ∧ BlockDone bs (q - 1) s

/-- The state is one the engine can be in after accepting the bytes `m` since `INIT` or reset (R164). -/
structure Hashing (m : List Byte) (s : State) : Prop where
  inv : s.Inv
  /-- `NBYTES` counts the accepted bytes (R30) -/
  count : s.nbytes.toNat = m.length
  progress : ∃ q, Progress (hashStream s.fin m) q s

/-- The 64 bytes in `BUF`, where all are written. -/
def bufBlock (s : State) : List Byte := (List.range 64).map (bufByte s)

/-! ### Answers and causes of errors -/

/-- The instruction is answered with `v` and no error (R170). -/
def answers (i : Instr) (s : State) (v : Word) : Prop :=
  ∃ t, exec i s = .next t ∧ t.rspRdata = v ∧ t.rspErr = false

/-- The unmapped register numbers (R35, R213). -/
def unmapped (a : Nat) : Bool :=
  decide (0x18 ≤ a ∧ a ≤ 0x1F) || decide (0x30 ≤ a ∧ a ≤ 0x3F) || decide (0xC8 ≤ a)

/-- The read-only register numbers (R35, R86). -/
def readOnly (a : Nat) : Bool :=
  decide (a ∈ [0x00, 0x03, 0x04, 0x06, 0x07]) || decide (0x08 ≤ a ∧ a ≤ 0x17) || decide (0x20 ≤ a ∧ a ≤ 0x2F) ||
  decide (0x40 ≤ a ∧ a ≤ 0xC7)

/-- The error a transaction raises in a state, tested in the order of R88 and R214; `none` where it raises none. -/
def errorOf (we : Bool) (a : Nat) (wdata : Nat) (s : State) : Option ErrBit :=
  if unmapped a then some .eAddr
  else if (we && readOnly a) || (!we && decide (a = 0x02 ∨ a = 0x05)) then some .eAccess
  else if we && decide (a = 0x02) && decide (4 ≤ wdata % 8) then some .eIllCmd
  else if we && (decide (a = 0x05) || decide (a = 0x02 ∧ wdata % 8 = 2)) && decide (s.phase ≠ .accept) then some .eSeq
  else if we && decide (a = 0x02 ∧ wdata % 8 = 3) && !s.halt then some .eSeq
  else if we && decide (a = 0x05) && decide (s.nbytes.toNat = 2 ^ 61 - 1) then some .eTooLong
  else none

/-- The bit number of an error in `ERR` (R43, R213). -/
def errNumber : ErrBit → Nat
  | .eAddr => 0
  | .eAccess => 1
  | .eIllCmd => 2
  | .eSeq => 3
  | .eTooLong => 4

/-! ### Frames -/

/-- The micro-operations (R90). -/
def isMicroOp : Instr → Bool
  | .uPad1 | .uSched | .uLoad | .uRound | .uAccum | .uPad2 => true
  | _ => false

/-- The instructions that write none of the engine's own state when they raise nothing, or only `CFG` or `HALT`: the
reads, `NOP`, `WR.CFG`, `CONT` (R164). -/
def keepsMessage : Instr → Bool
  | .rdId | .rdCfg | .rdStatus | .rdErr | .rdLenLo | .rdLenHi | .rdH _ | .rdR _ | .rdBlk _ | .rdW _ | .rdK _ | .rdIv _
  | .wrCfg _ | .nop | .cont => true
  | _ => false

/-- An outcome with its state, where there is one, changed. -/
def mapNext (f : State → State) : Outcome State Fault Refusal → Outcome State Fault Refusal
  | .next s => .next (f s)
  | .fault x => .fault x
  | .refused x => .refused x

/-! ### The host's protocol (R203) -/

/-- What the host may do beside the protocol at any time: any read, `NOP`, a write of `CFG` (R163, R204). -/
def liberty (i : Instr) : Bool := keepsMessage i && decide (i ≠ .cont)

/-- A turn of the host's protocol, with liberties and waits anywhere and the engine in any way. -/
def lawfulTurn (turn : Turn) : Bool :=
  match turn.host with
  | .other i => liberty i
  | _ => true

/-- The engine a plan may start on: any sound state where the plan issues `INIT`, one as after reset where it does
not. -/
def readyFor (plan : HostPlan) (s : State) : Prop :=
  s.Inv ∧ (plan.init = false → Hashing [] s ∧ s.phase = .accept ∧ s.err = 0)

/-- The bytes `sent` are accepted and none was refused. -/
def Sent (sent : List Byte) (s : State) : Prop := Hashing sent s ∧ s.err = 0

/-- What holds of host and engine at each place of the listing, while the host hashes `m` (R71, R203). -/
def ProtocolFacts (plan : HostPlan) (m : List Byte) (b : Bench) : Prop :=
  b.host.failures = 0 ∧ b.engine.Inv ∧
  match b.host.place with
  | .writeCfg _ => b.host.rest = m ∧ b.host.digest = [] ∧ readyFor plan b.engine
  | .init => b.host.rest = m ∧ b.host.digest = []
  | .pollReady => b.host.digest = [] ∧ b.engine.fin = false ∧ ∃ sent, sent ++ b.host.rest = m ∧ Sent sent b.engine
  | .push byte left => b.host.digest = [] ∧ b.engine.phase = .accept ∧ b.engine.fill.toNat + left ≤ 63 ∧
      ∃ sent, sent ++ byte :: b.host.rest = m ∧ Sent sent b.engine
  | .final => b.host.digest = [] ∧ b.engine.phase = .accept ∧ Sent m b.engine
  | .waitIrq => b.host.digest = [] ∧ b.engine.fin = true ∧ Sent m b.engine
  | .pollDone => b.host.digest = [] ∧ b.engine.fin = true ∧ Sent m b.engine
  | .cont last => b.host.digest = [] ∧ b.engine.halt = true ∧ b.engine.fin = last ∧
      ∃ sent, Sent sent b.engine ∧ if last then sent = m else sent ++ b.host.rest = m
  | .readErr => False
  | .readDigest left => b.engine.phase = .done ∧ Sent m b.engine ∧
      ∃ k, k < 8 ∧ left = readDigest.drop k ∧ b.host.digest = (wordList b.engine.h).take k
  | .finished => hostDigest b.host = sha256 m

end Sys2Proof.Machine
end

