-- ==== Sys2Proof/Certificates/Slice0/Obligations.lean ====
section
/-! DEFINITION. The statements for the provers. Each formalises the rule of spec/ its docstring names. A frame is written
`t = { s with f := t.f, … }`: every field not named there is unchanged. -/

open Sys2Proof Sys2Proof.Machine

/-! ### Reset and the step -/

/-- R53: the state after reset, the register reads it answers, the outputs, and that a message can start at once. -/
def Obligations.ResetLeavesStatedValues : Prop :=
  State.reset.h = ⟨0x6a09e667, 0xbb67ae85, 0x3c6ef372, 0xa54ff53a, 0x510e527f, 0x9b05688c, 0x1f83d9ab, 0x5be0cd19⟩ ∧
  State.reset.r = ⟨0, 0, 0, 0, 0, 0, 0, 0⟩ ∧ State.reset.fill = 0 ∧ State.reset.nbytes = 0 ∧
  State.reset.fin = false ∧ State.reset.lastblk = false ∧ State.reset.halt = false ∧
  State.reset.phase = .accept ∧ phaseCode State.reset.phase = 0 ∧ State.reset.t = 0 ∧
  State.reset.cfg = 0 ∧ State.reset.err = 0 ∧
  (∀ j, Memory.read? j State.reset.w = none) ∧ (∀ j, Memory.read? j State.reset.buf = none) ∧
  answers .rdId State.reset 0x53323536 ∧ answers .rdCfg State.reset 0 ∧ answers .rdStatus State.reset 0x00000001 ∧
  answers .rdErr State.reset 0 ∧ answers .rdLenLo State.reset 0 ∧ answers .rdLenHi State.reset 0 ∧
  (∀ i, answers (.rdH i) State.reset (wordAt initialValue i)) ∧ (∀ i, answers (.rdR i) State.reset 0) ∧
  (∀ j, answers (.rdBlk j) State.reset (blkWord State.reset j.toNat) ∧ blkUnwritten State.reset j.toNat = true) ∧
  (∀ t, answers (.rdW t) State.reset (schedWord State.reset t.toNat) ∧ schedUnwritten State.reset t.toNat = true) ∧
  (∀ t, answers (.rdK t) State.reset (roundConstant t)) ∧
  (∀ i, answers (.rdIv i) State.reset (wordAt initialValue i)) ∧
  irq State.reset = false ∧ digestValidPort State.reset = false ∧
  digestPort State.reset = 0x6a09e667bb67ae853c6ef372a54ff53a510e527f9b05688c1f83d9ab5be0cd19 ∧
  (∀ b, answers (.push b) State.reset 0)

/-- R240: with `rst = 1`, whatever transaction the pins carry and whatever the engine could do, the step leaves the
reset values, `W` and `BUF` unwritten, and a quiet response; it differs from `INIT` in `CFG`, `R` and the two memories. -/
def Obligations.ResetStepLeavesResetValues : Prop :=
  ∀ (s : State) (p : Inputs) (rest : List Inputs), s.inputs = p :: rest → p.rst = true →
    ∃ t, step s = .next t ∧
      t.h = initialValue ∧ t.r = ⟨0, 0, 0, 0, 0, 0, 0, 0⟩ ∧ t.fill = 0 ∧ t.nbytes = 0 ∧ t.fin = false ∧
      t.lastblk = false ∧ t.halt = false ∧ t.phase = .accept ∧ t.t = 0 ∧ t.cfg = 0 ∧ t.err = 0 ∧
      (∀ j, Memory.read? j t.w = none) ∧ (∀ j, Memory.read? j t.buf = none) ∧
      t.rspRdata = 0 ∧ t.rspErr = false ∧ t.inputs = rest ∧
      ∀ t', exec .init s = .next t' →
        t = { t' with cfg := 0, r := ⟨0, 0, 0, 0, 0, 0, 0, 0⟩, w := t.w, buf := t.buf, inputs := rest }

/-- A transaction on the pins, the engine not taking its step: the step is `exec` of the decoded instruction, on the
state with that sample of the pins taken (R81, R88, R200). -/
def Obligations.StepRunsDecodedTransaction : Prop :=
  ∀ (s : State) (p : Inputs) (rest : List Inputs), s.inputs = p :: rest →
    p.rst = false → p.reqValid = true → p.engine = false →
    step s = exec (decodeBus (transactionWord p.reqWe p.reqAddr p.reqWdata)) { s with inputs := rest }

/-- The pins carry no transaction and the engine takes its step, or no sample is left: where the `PHASE` code decodes to
a micro-operation and `HALT = 0`, the step is `exec` of it, on the state with the sample taken and the response pins at
0 (R80, R90, R201). -/
def Obligations.StepRunsSelectedMicroOp : Prop :=
  ∀ (s : State) (i : Instr), s.halt = false → decodeMicroOp (phaseCode s.phase) = .ok i →
    (s.inputs = [] ∨ ∃ p rest, s.inputs = p :: rest ∧ p.rst = false ∧ p.reqValid = false ∧ p.engine = true) →
    step s = exec i { s with inputs := s.inputs.tail, rspRdata := 0, rspErr := false }

/-- No transaction, no reset, and no engine step taken or none enabled: nothing but the response pins and the input
samples changes (R80, R28, R236). -/
def Obligations.StepWithoutEventIdles : Prop :=
  ∀ (s : State), (nextPins s).rst = false → (nextPins s).reqValid = false →
    ((nextPins s).engine = false ∨ engineEnabled s = false) →
    step s = .next { s with inputs := s.inputs.tail, rspRdata := 0, rspErr := false }

/-- R77: in a shared cycle the transaction acts first, on the state at the start of the cycle; the micro-operation
follows exactly when the engine's step was enabled at the start and still is. -/
def Obligations.SharedCycleOrdersHostFirst : Prop :=
  ∀ (s s' : State) (p : Inputs) (rest : List Inputs), s.inputs = p :: rest →
    p.rst = false → p.reqValid = true → p.engine = true →
    exec (decodeBus (transactionWord p.reqWe p.reqAddr p.reqWdata)) { s with inputs := rest } = .next s' →
    (∀ i, engineEnabled s = true → s'.halt = false → decodeMicroOp (phaseCode s'.phase) = .ok i → step s = exec i s') ∧
    ((engineEnabled s = false ∨ engineEnabled s' = false) → step s = .next s')

/-! ### Encoding -/

/-- Words written out from R81 to R86 and R90, and what they decode to. That a word with bit 41 set is rejected, and that a
row of 8 bits is a `PHASE` code, is the model's choice (log entry 9). -/
def Obligations.SampleWordsDecode : Prop :=
  decodeTableWord 48 0x00000000000 = some .rdId ∧ decodeTableWord 48 0x101ffffffff = some (.wrCfg 7) ∧
  decodeTableWord 48 0x102fffffff8 = some .nop ∧ decodeTableWord 48 0x10200000001 = some .init ∧
  decodeTableWord 48 0x105ffffff80 = some (.push 0x80) ∧ decodeTableWord 48 0x00f00000000 = some (.rdH 7) ∧
  decodeTableWord 48 0x07f00000000 = some (.rdW 63) ∧ decodeTableWord 48 0x0c700000000 = some (.rdIv 7) ∧
  decodeTableWord 48 0x11800000007 = some .illAddr18 ∧ decodeTableWord 48 0x0ff00000000 = some .illAddrE0 ∧
  decodeTableWord 48 0x00200000004 = some .illAccessRdCtrl ∧ decodeTableWord 48 0x10200000005 = some .illCmd ∧
  decodeTableWord 48 0x20000000000 = none ∧ decodeTableWord 8 4 = some .uRound ∧ decodeTableWord 8 7 = none

/-- Decoding the encoding of any instruction gives it back, every operand at every value. -/
def Obligations.DecodeInvertsEncode : Prop := ∀ i : Instr, decode (encode i) = .ok i

/-- R84, R86: the rows of the opcode table for transactions partition all words, and the decoder picks the row. -/
def Obligations.DecoderPicksTheOneMatchingRow : Prop :=
  ∀ tw : BitVec 41, matchingRows (.transaction tw) = [mnemonic (decodeBus tw)]

/-- R90: the micro-operation a `PHASE` code selects, and that each one sets `HALT` where `CFG.STEP` is 1. -/
def Obligations.PhaseSelectsMicroOp : Prop :=
  (∀ s : State, engineEnabled s = true ↔ s.halt = false ∧ 1 ≤ (phaseCode s.phase).toNat ∧ (phaseCode s.phase).toNat ≤ 6) ∧
  decodeMicroOp 0b001 = .ok .uPad1 ∧ decodeMicroOp 0b010 = .ok .uSched ∧ decodeMicroOp 0b011 = .ok .uLoad ∧
  decodeMicroOp 0b100 = .ok .uRound ∧ decodeMicroOp 0b101 = .ok .uAccum ∧ decodeMicroOp 0b110 = .ok .uPad2 ∧
  decodeMicroOp 0b000 = .error .noMicroOperation ∧ decodeMicroOp 0b111 = .error .noMicroOperation ∧
  phaseCode .accept = 0 ∧ phaseCode .pad1 = 1 ∧ phaseCode .sched = 2 ∧ phaseCode .load = 3 ∧
  phaseCode .rounds = 4 ∧ phaseCode .accum = 5 ∧ phaseCode .pad2 = 6 ∧ phaseCode .done = 7 ∧
  ∀ (s t : State) (i : Instr), isMicroOp i = true → exec i s = .next t → t.halt = s.cfg.getLsbD 0

/-! ### Register reads -/

/-- R171 -/
def Obligations.RdIdReadsIdentification : Prop :=
  (∀ wd, decodeBus (transactionWord false 0x00 wd) = .rdId) ∧
  ∀ s : State, exec .rdId s = .next { s with rspRdata := 0x53323536, rspErr := false }

/-- R172 -/
def Obligations.RdCfgReadsConfiguration : Prop :=
  (∀ wd, decodeBus (transactionWord false 0x01 wd) = .rdCfg) ∧
  ∀ s : State, ∃ v : Word, exec .rdCfg s = .next { s with rspRdata := v, rspErr := false } ∧ v.toNat = s.cfg.toNat

/-- R174: every bit of the word read, by R42's table. -/
def Obligations.RdStatusReadsStatus : Prop :=
  (∀ wd, decodeBus (transactionWord false 0x03 wd) = .rdStatus) ∧
  ∀ s : State, ∃ v : Word, exec .rdStatus s = .next { s with rspRdata := v, rspErr := false } ∧
    v.getLsbD 0 = decide (s.phase = .accept) ∧
    v.getLsbD 1 = decide (s.phase ≠ .accept ∧ s.phase ≠ .done) ∧
    v.getLsbD 2 = decide (s.phase = .done) ∧
    v.getLsbD 3 = decide (s.phase = .done ∧ s.err = 0) ∧
    v.getLsbD 4 = s.halt ∧ v.getLsbD 5 = s.fin ∧ v.getLsbD 6 = s.lastblk ∧
    v.getLsbD 7 = decide (s.err ≠ 0) ∧
    v.extractLsb' 8 3 = phaseCode s.phase ∧ v.extractLsb' 11 5 = 0 ∧
    v.extractLsb' 16 6 = s.t ∧ v.extractLsb' 22 2 = 0 ∧ v.extractLsb' 24 7 = s.fill ∧ v.getLsbD 31 = false

/-- R175: reading the error flags does not clear them. -/
def Obligations.RdErrReadsErrorFlags : Prop :=
  (∀ wd, decodeBus (transactionWord false 0x04 wd) = .rdErr) ∧
  ∀ s : State, ∃ v : Word, exec .rdErr s = .next { s with rspRdata := v, rspErr := false } ∧ v.toNat = s.err.toNat

/-- R176 -/
def Obligations.RdLenLoReadsLowLength : Prop :=
  (∀ wd, decodeBus (transactionWord false 0x06 wd) = .rdLenLo) ∧
  ∀ s : State, ∃ v : Word, exec .rdLenLo s = .next { s with rspRdata := v, rspErr := false } ∧
    v.toNat = s.nbytes.toNat * 8 % 2 ^ 32 ∧ v = s.nbytes.extractLsb' 0 29 ++ 0b000#3

/-- R177 -/
def Obligations.RdLenHiReadsHighLength : Prop :=
  (∀ wd, decodeBus (transactionWord false 0x07 wd) = .rdLenHi) ∧
  ∀ s : State, ∃ v : Word, exec .rdLenHi s = .next { s with rspRdata := v, rspErr := false } ∧
    v.toNat = s.nbytes.toNat * 8 / 2 ^ 32 ∧ v = s.nbytes.extractLsb' 29 32

/-- R178: in every phase. -/
def Obligations.RdHReadsHashState : Prop :=
  (∀ wd (i : BitVec 3), decodeBus (transactionWord false (0x08 + i.setWidth 8) wd) = .rdH i) ∧
  ∀ (s : State) (i : BitVec 3), ∃ v : Word, exec (.rdH i) s = .next { s with rspRdata := v, rspErr := false } ∧
    [s.h.w0, s.h.w1, s.h.w2, s.h.w3, s.h.w4, s.h.w5, s.h.w6, s.h.w7][i.toNat]? = some v

/-- R179 -/
def Obligations.RdRReadsWorkingRegister : Prop :=
  (∀ wd (i : BitVec 3), decodeBus (transactionWord false (0x10 + i.setWidth 8) wd) = .rdR i) ∧
  ∀ (s : State) (i : BitVec 3), ∃ v : Word, exec (.rdR i) s = .next { s with rspRdata := v, rspErr := false } ∧
    [s.r.w0, s.r.w1, s.r.w2, s.r.w3, s.r.w4, s.r.w5, s.r.w6, s.r.w7][i.toNat]? = some v

/-- R180: where the four bytes have been written, their big-endian word and nothing else changes; where one has not
been, that byte is a draw (R15) and only the model's count of draws moves. -/
def Obligations.RdBlkReadsBlockBuffer : Prop :=
  (∀ wd (j : BitVec 4), decodeBus (transactionWord false (0x20 + j.setWidth 8) wd) = .rdBlk j) ∧
  (∀ (s : State) (j : BitVec 4) (b0 b1 b2 b3 : Byte),
    Memory.read? (4 * j.toNat) s.buf = some b0 → Memory.read? (4 * j.toNat + 1) s.buf = some b1 →
    Memory.read? (4 * j.toNat + 2) s.buf = some b2 → Memory.read? (4 * j.toNat + 3) s.buf = some b3 →
    exec (.rdBlk j) s = .next { s with rspRdata := b0 ++ b1 ++ b2 ++ b3, rspErr := false }) ∧
  (∀ (s : State) (j : BitVec 4), ∃ t, exec (.rdBlk j) s = .next t ∧
    t = { s with rspRdata := t.rspRdata, rspErr := false, draws := t.draws } ∧
    ∀ (k : Nat) (b : Byte), k < 4 → Memory.read? (4 * j.toNat + k) s.buf = some b →
      t.rspRdata.extractLsb' (24 - 8 * k) 8 = b)

/-- R181: where the word has been written, its value and nothing else changes; where it has not been, a draw (R15). -/
def Obligations.RdWReadsScheduleMemory : Prop :=
  (∀ wd (t : BitVec 6), decodeBus (transactionWord false (0x40 + t.setWidth 8) wd) = .rdW t) ∧
  (∀ (s : State) (t : BitVec 6) (v : Word), Memory.read? t.toNat s.w = some v →
    exec (.rdW t) s = .next { s with rspRdata := v, rspErr := false }) ∧
  (∀ (s : State) (t : BitVec 6), ∃ s', exec (.rdW t) s = .next s' ∧
    s' = { s with rspRdata := s'.rspRdata, rspErr := false, draws := s'.draws })

/-- R182 -/
def Obligations.RdKReadsRoundConstant : Prop :=
  (∀ wd (t : BitVec 6), decodeBus (transactionWord false (0x80 + t.setWidth 8) wd) = .rdK t) ∧
  ∀ (s : State) (t : BitVec 6), exec (.rdK t) s = .next { s with rspRdata := roundConstant t, rspErr := false }

/-- R183 -/
def Obligations.RdIvReadsInitialValue : Prop :=
  (∀ wd (i : BitVec 3), decodeBus (transactionWord false (0xC0 + i.setWidth 8) wd) = .rdIv i) ∧
  ∀ (s : State) (i : BitVec 3), ∃ v : Word, exec (.rdIv i) s = .next { s with rspRdata := v, rspErr := false } ∧
    [0x6a09e667#32, 0xbb67ae85#32, 0x3c6ef372#32, 0xa54ff53a#32, 0x510e527f#32, 0x9b05688c#32, 0x1f83d9ab#32,
      0x5be0cd19#32][i.toNat]? = some v

/-! ### Writes, commands and illegal transactions -/

/-- R173 -/
def Obligations.WrCfgStoresThreeBits : Prop :=
  (∀ (hi : BitVec 29) (v : BitVec 3), decodeBus (transactionWord true 0x01 (hi ++ v)) = .wrCfg v) ∧
  ∀ (s : State) (v : BitVec 3), exec (.wrCfg v) s = .next { s with cfg := v, rspRdata := 0, rspErr := false }

/-- R190 -/
def Obligations.NopChangesNothing : Prop :=
  (∀ hi : BitVec 29, decodeBus (transactionWord true 0x02 (hi ++ 0b000#3)) = .nop) ∧
  ∀ s : State, exec .nop s = .next { s with rspRdata := 0, rspErr := false }

/-- R191: not changed are `CFG`, `R`, `W` and `BUF`. -/
def Obligations.InitStartsNewMessage : Prop :=
  (∀ hi : BitVec 29, decodeBus (transactionWord true 0x02 (hi ++ 0b001#3)) = .init) ∧
  ∀ s : State, exec .init s = .next { s with
    h := ⟨0x6a09e667, 0xbb67ae85, 0x3c6ef372, 0xa54ff53a, 0x510e527f, 0x9b05688c, 0x1f83d9ab, 0x5be0cd19⟩
    nbytes := 0, fill := 0, fin := false, lastblk := false, halt := false, phase := .accept, t := 0, err := 0
    rspRdata := 0, rspErr := false }

/-- R192 -/
def Obligations.FinalEndsMessage : Prop :=
  (∀ hi : BitVec 29, decodeBus (transactionWord true 0x02 (hi ++ 0b010#3)) = .final) ∧
  (∀ s : State, s.phase = .accept →
    exec .final s = .next { s with fin := true, phase := .pad1, rspRdata := 0, rspErr := false }) ∧
  (∀ s : State, s.phase ≠ .accept →
    exec .final s = .next { s with err := s.err ||| 0b01000, rspRdata := 0, rspErr := true })

/-- R193 -/
def Obligations.ContLeavesHalt : Prop :=
  (∀ hi : BitVec 29, decodeBus (transactionWord true 0x02 (hi ++ 0b011#3)) = .cont) ∧
  (∀ s : State, s.halt = true → exec .cont s = .next { s with halt := false, rspRdata := 0, rspErr := false }) ∧
  (∀ s : State, s.halt = false →
    exec .cont s = .next { s with err := s.err ||| 0b01000, rspRdata := 0, rspErr := true })

/-- R184: each row of the unmapped numbers raises `E_ADDR`, for a read and a write alike. -/
def Obligations.UnmappedNumberRaisesAddr : Prop :=
  (∀ (we : Bool) (a : BitVec 8) (wd : Word), unmapped a.toNat = true →
    decodeBus (transactionWord we a wd) ∈ [Instr.illAddr18, .illAddr30, .illAddrC8, .illAddrD0, .illAddrE0]) ∧
  ∀ (s : State) (i : Instr), i ∈ [Instr.illAddr18, .illAddr30, .illAddrC8, .illAddrD0, .illAddrE0] →
    exec i s = .next { s with err := s.err ||| 0b00001, rspRdata := 0, rspErr := true }

/-- R185: a write of a read-only register or a read of a write-only one raises `E_ACCESS`. -/
def Obligations.WrongAccessRaisesAccess : Prop :=
  (∀ (we : Bool) (a : BitVec 8) (wd : Word), unmapped a.toNat = false →
    ((we = true ∧ readOnly a.toNat = true) ∨ (we = false ∧ (a = 0x02 ∨ a = 0x05))) →
    decodeBus (transactionWord we a wd) ∈ [Instr.illAccessWrId, .illAccessRdCtrl, .illAccessWrStatus, .illAccessWrErr,
      .illAccessRdDin, .illAccessWrLen, .illAccessWrH, .illAccessWrR, .illAccessWrBlk, .illAccessWrW, .illAccessWrK,
      .illAccessWrIv]) ∧
  ∀ (s : State) (i : Instr), i ∈ [Instr.illAccessWrId, .illAccessRdCtrl, .illAccessWrStatus, .illAccessWrErr,
      .illAccessRdDin, .illAccessWrLen, .illAccessWrH, .illAccessWrR, .illAccessWrBlk, .illAccessWrW, .illAccessWrK,
      .illAccessWrIv] →
    exec i s = .next { s with err := s.err ||| 0b00010, rspRdata := 0, rspErr := true }

/-- R194 -/
def Obligations.ReservedCommandRaisesIllCmd : Prop :=
  (∀ (hi : BitVec 29) (lo : BitVec 2), decodeBus (transactionWord true 0x02 (hi ++ 1#1 ++ lo)) = .illCmd) ∧
  ∀ s : State, exec .illCmd s = .next { s with err := s.err ||| 0b00100, rspRdata := 0, rspErr := true }

/-- R88, R213, R214: which error a transaction raises, and that one is all a rejected transaction does (R212); a
transaction that raises none sets no bit, and a micro-operation raises none. The premise is R34's: `ACCEPT` has a byte
of the buffer free. -/
def Obligations.ErrorCausesAndPriority : Prop :=
  (∀ (s t : State) (i : Instr), isMicroOp i = true → exec i s = .next t → t.err = s.err) ∧
  ∀ (we : Bool) (a : BitVec 8) (wd : Word) (s : State), (s.phase = .accept → s.fill.toNat ≤ 63) →
    match errorOf we a.toNat wd.toNat s with
    | some x => ∃ t, exec (decodeBus (transactionWord we a wd)) s = .next t ∧
        t = { s with err := t.err, rspRdata := 0, rspErr := true } ∧
        ∀ n, n < 5 → t.err.getLsbD n = (s.err.getLsbD n || decide (n = errNumber x))
    | none => ∃ t, exec (decodeBus (transactionWord we a wd)) s = .next t ∧ t.rspErr = false ∧
        (t.err = s.err ∨ (decodeBus (transactionWord we a wd) = .init ∧ t.err = 0))

/-! ### pad_control -/

/-- R108: an accepted byte, and the two errors. The premise `FILL <= 63` is R34's invariant of `ACCEPT`. -/
def Obligations.PushAppendsByte : Prop :=
  (∀ (hi : BitVec 24) (b : Byte), decodeBus (transactionWord true 0x05 (hi ++ b)) = .push b) ∧
  (∀ (s : State) (b : Byte), s.phase = .accept → s.nbytes.toNat ≠ 2 ^ 61 - 1 → s.fill.toNat ≤ 63 →
    ∃ t, exec (.push b) s = .next t ∧
      (∀ j, Memory.read? j t.buf = if j = s.fill.toNat then some b else Memory.read? j s.buf) ∧
      t.nbytes.toNat = s.nbytes.toNat + 1 ∧ t.fill.toNat = s.fill.toNat + 1 ∧
      (s.fill.toNat = 63 → t.phase = .sched ∧ t.t = 0) ∧ (s.fill.toNat ≠ 63 → t.phase = .accept ∧ t.t = s.t) ∧
      t = { s with buf := t.buf, nbytes := t.nbytes, fill := t.fill, phase := t.phase, t := t.t,
                   rspRdata := 0, rspErr := false }) ∧
  (∀ (s : State) (b : Byte), s.phase ≠ .accept →
    exec (.push b) s = .next { s with err := s.err ||| 0b01000, rspRdata := 0, rspErr := true }) ∧
  (∀ (s : State) (b : Byte), s.phase = .accept → s.nbytes.toNat = 2 ^ 61 - 1 →
    exec (.push b) s = .next { s with err := s.err ||| 0b10000, rspRdata := 0, rspErr := true })

/-- The one place the model stops an instruction for its state: a byte of `BUF` at 64 or beyond does not exist (R34, R60),
so `PUSH` and `uPAD1` fault there. The choice to stop is the model's (log entry 6); no sound state is such a state. -/
def Obligations.ByteOutsideBufferFaults : Prop :=
  ∀ s : State, 63 < s.fill.toNat →
    (∀ b : Byte, s.phase = .accept → s.nbytes.toNat ≠ 2 ^ 61 - 1 → exec (.push b) s = .fault .bufIndexOutside) ∧
    (s.phase = .pad1 → s.halt = false → exec .uPad1 s = .fault .bufIndexOutside) ∧ ¬ (s.Inv ∧ (s.phase = .accept ∨ s.phase = .pad1))

/-- R110: byte by byte, and the frame. The premise `FILL <= 63` is R34's invariant of `PAD1`. -/
def Obligations.UPad1WritesPadding : Prop :=
  ∀ s : State, s.phase = .pad1 → s.halt = false → s.fill.toNat ≤ 63 →
    ∃ t, exec .uPad1 s = .next t ∧
      (∀ j, Memory.read? j t.buf =
        if j < s.fill.toNat ∨ 64 ≤ j then Memory.read? j s.buf
        else if j = s.fill.toNat then some 0x80
        else if s.fill.toNat ≤ 55 ∧ 56 ≤ j then
          some (BitVec.ofNat 8 (s.nbytes.toNat * 8 / 2 ^ (8 * (63 - j))))
        else some 0x00) ∧
      t.lastblk = decide (s.fill.toNat ≤ 55) ∧ t.fill = 64 ∧ t.phase = .sched ∧ t.t = 0 ∧ t.halt = s.cfg.getLsbD 0 ∧
      t = { s with buf := t.buf, lastblk := t.lastblk, fill := 64, phase := .sched, t := 0, halt := t.halt }

/-- R112: byte by byte, and the frame; and a sound state is in `PAD2` only where the length had no room. -/
def Obligations.UPad2WritesLengthBlock : Prop :=
  (∀ s : State, s.Inv → s.phase = .pad2 → 56 ≤ s.nbytes.toNat % 64) ∧
  ∀ s : State, s.phase = .pad2 → s.halt = false →
    ∃ t, exec .uPad2 s = .next t ∧
      (∀ j, Memory.read? j t.buf =
        if 64 ≤ j then Memory.read? j s.buf
        else if 56 ≤ j then some (BitVec.ofNat 8 (s.nbytes.toNat * 8 / 2 ^ (8 * (63 - j))))
        else some 0x00) ∧
      t = { s with buf := t.buf, lastblk := true, fill := 64, phase := .sched, t := 0, halt := s.cfg.getLsbD 0 }

/-! ### schedule_expander, compression_fsm, digest_finalizer -/

/-- R135: the word written, the position and the frame. A location nothing has written is a draw (R15); where the
locations read are written, the word is the one the rule gives. -/
def Obligations.USchedWritesOneWord : Prop :=
  ∀ s : State, s.phase = .sched → s.halt = false →
    ∃ t v, exec .uSched s = .next t ∧
      (∀ j, Memory.read? j t.w = if j = s.t.toNat then some v else Memory.read? j s.w) ∧
      (∀ b0 b1 b2 b3 : Byte, s.t.toNat ≤ 15 →
        Memory.read? (4 * s.t.toNat) s.buf = some b0 → Memory.read? (4 * s.t.toNat + 1) s.buf = some b1 →
        Memory.read? (4 * s.t.toNat + 2) s.buf = some b2 → Memory.read? (4 * s.t.toNat + 3) s.buf = some b3 →
        v = b0 ++ b1 ++ b2 ++ b3 ∧ t.draws = s.draws) ∧
      (∀ w2 w7 w15 w16 : Word, 16 ≤ s.t.toNat →
        Memory.read? (s.t.toNat - 2) s.w = some w2 → Memory.read? (s.t.toNat - 7) s.w = some w7 →
        Memory.read? (s.t.toNat - 15) s.w = some w15 → Memory.read? (s.t.toNat - 16) s.w = some w16 →
        v = smallSigma1 w2 + w7 + smallSigma0 w15 + w16 ∧ t.draws = s.draws) ∧
      (s.t.toNat = 63 → t.phase = .load ∧ t.t = 0) ∧
      (s.t.toNat ≠ 63 → t.phase = .sched ∧ t.t.toNat = s.t.toNat + 1) ∧
      t = { s with w := t.w, phase := t.phase, t := t.t, halt := s.cfg.getLsbD 0, draws := t.draws }

/-- R146 -/
def Obligations.ULoadCopiesHashState : Prop :=
  ∀ s : State, s.phase = .load → s.halt = false →
    exec .uLoad s = .next { s with r := s.h, phase := .rounds, t := 0, halt := s.cfg.getLsbD 0 }

/-- R147: the eight registers, the position and the frame; `W[T]` is a draw where nothing has written it (R15). -/
def Obligations.URoundPerformsOneRound : Prop :=
  ∀ s : State, s.phase = .rounds → s.halt = false →
    ∃ t w, exec .uRound s = .next t ∧
      (∀ v, Memory.read? s.t.toNat s.w = some v → w = v ∧ t.draws = s.draws) ∧
      (let t1 := w + roundConstant s.t + bigSigma1 s.r.w4 + ch s.r.w4 s.r.w5 s.r.w6 + s.r.w7
       let t2 := bigSigma0 s.r.w0 + maj s.r.w0 s.r.w1 s.r.w2
       t.r = ⟨t1 + t2, s.r.w0, s.r.w1, s.r.w2, s.r.w3 + t1, s.r.w4, s.r.w5, s.r.w6⟩) ∧
      (s.t.toNat = 63 → t.phase = .accum ∧ t.t = 0) ∧
      (s.t.toNat ≠ 63 → t.phase = .rounds ∧ t.t.toNat = s.t.toNat + 1) ∧
      t = { s with r := t.r, phase := t.phase, t := t.t, halt := s.cfg.getLsbD 0, draws := t.draws }

/-- R156, with all four cases of `FIN` and `LASTBLK` (R157). -/
def Obligations.UAccumAddsIntoHashState : Prop :=
  ∀ s : State, s.phase = .accum → s.halt = false →
    exec .uAccum s = .next { s with
      h := ⟨s.h.w0 + s.r.w0, s.h.w1 + s.r.w1, s.h.w2 + s.r.w2, s.h.w3 + s.r.w3,
            s.h.w4 + s.r.w4, s.h.w5 + s.r.w5, s.h.w6 + s.r.w6, s.h.w7 + s.r.w7⟩
      fill := 0, t := 0
      phase := match s.fin, s.lastblk with
        | false, _ => .accept
        | true, true => .done
        | true, false => .pad2
      halt := s.cfg.getLsbD 0 }

/-- A micro-operation that `PHASE` and `HALT` do not select is refused by name: no such step exists (R201, R204). -/
def Obligations.UnselectedMicroOpIsRefused : Prop :=
  ∀ (s : State) (i : Instr), isMicroOp i = true →
    (s.halt = true ∨ decodeMicroOp (phaseCode s.phase) ≠ .ok i) → exec i s = .refused .microOpNotSelected

/-- R201: no micro-operation reads or writes `ERR`, and of `CFG` only `STEP` is read: changing `ERR` and the
interrupt enables changes nothing else of what it does. -/
def Obligations.MicroOpsIgnoreErrAndInterrupts : Prop :=
  ∀ (s : State) (i : Instr) (e : BitVec 5) (c : BitVec 3), isMicroOp i = true → c.getLsbD 0 = s.cfg.getLsbD 0 →
    exec i { s with err := e, cfg := c } = mapNext (fun t => { t with err := e, cfg := c }) (exec i s)

/-- Reads, `NOP`, `CFG` writes and `CONT` change none of the fields R164 lists, nor any byte of `BUF` or word of `W`. -/
def Obligations.ReadsAndControlKeepTheMessage : Prop :=
  ∀ (s : State) (i : Instr), keepsMessage i = true →
    ∃ t, exec i s = .next t ∧ (∀ j, Memory.read? j t.buf = Memory.read? j s.buf) ∧
      (∀ j, Memory.read? j t.w = Memory.read? j s.w) ∧
      t = { s with cfg := t.cfg, halt := t.halt, err := t.err, rspRdata := t.rspRdata, rspErr := t.rspErr,
                   draws := t.draws } ∧
      (∀ m, Hashing m s → Hashing m t)

/-! ### Functions and constants -/

/-- R131, R132, R133: the lower-case sigmas bit by bit, and that they are linear over exclusive or. -/
def Obligations.SmallSigmasBitByBit : Prop :=
  (∀ (x : Word) (i : Nat), i < 32 → (smallSigma0 x).getLsbD i =
    (x.getLsbD ((i + 7) % 32) ^^ x.getLsbD ((i + 18) % 32) ^^ (if i ≤ 28 then x.getLsbD (i + 3) else false))) ∧
  (∀ (x : Word) (i : Nat), i < 32 → (smallSigma1 x).getLsbD i =
    (x.getLsbD ((i + 17) % 32) ^^ x.getLsbD ((i + 19) % 32) ^^ (if i ≤ 21 then x.getLsbD (i + 10) else false))) ∧
  (∀ x y : Word, smallSigma0 (x ^^^ y) = smallSigma0 x ^^^ smallSigma0 y) ∧
  (∀ x y : Word, smallSigma1 (x ^^^ y) = smallSigma1 x ^^^ smallSigma1 y) ∧
  smallSigma0 0 = 0 ∧ smallSigma0 1 = 0x02004000 ∧ smallSigma0 0x80000000 = 0x11002000 ∧
  smallSigma0 0xffffffff = 0x1fffffff ∧ smallSigma1 0 = 0 ∧ smallSigma1 1 = 0x0000a000 ∧
  smallSigma1 0x80000000 = 0x00205000 ∧ smallSigma1 0xffffffff = 0x003fffff

/-- R141 to R144: the functions of a round bit by bit. -/
def Obligations.RoundFunctionsBitByBit : Prop :=
  (∀ (x : Word) (i : Nat), i < 32 → (bigSigma0 x).getLsbD i =
    (x.getLsbD ((i + 2) % 32) ^^ x.getLsbD ((i + 13) % 32) ^^ x.getLsbD ((i + 22) % 32))) ∧
  (∀ (x : Word) (i : Nat), i < 32 → (bigSigma1 x).getLsbD i =
    (x.getLsbD ((i + 6) % 32) ^^ x.getLsbD ((i + 11) % 32) ^^ x.getLsbD ((i + 25) % 32))) ∧
  (∀ (x y z : Word) (i : Nat), (ch x y z).getLsbD i = if x.getLsbD i then y.getLsbD i else z.getLsbD i) ∧
  (∀ (x y z : Word) (i : Nat), (maj x y z).getLsbD i =
    ((x.getLsbD i && y.getLsbD i) || (x.getLsbD i && z.getLsbD i) || (y.getLsbD i && z.getLsbD i))) ∧
  bigSigma0 0 = 0 ∧ bigSigma0 1 = 0x40080400 ∧ bigSigma0 0x80000000 = 0x20040200 ∧ bigSigma0 0xffffffff = 0xffffffff ∧
  bigSigma0 0x6a09e667 = 0xce20b47e ∧ bigSigma1 0 = 0 ∧ bigSigma1 1 = 0x04200080 ∧ bigSigma1 0x80000000 = 0x02100040 ∧
  bigSigma1 0xffffffff = 0xffffffff ∧ bigSigma1 0x510e527f = 0x3587272b ∧
  (∀ y z, ch 0 y z = z) ∧ (∀ y z, ch 0xffffffff y z = y) ∧ maj 0 0 0 = 0 ∧ (∀ x z, maj x x z = x) ∧
  ch 0xf0f0f0f0 0xaaaaaaaa 0x55555555 = 0xa5a5a5a5 ∧ ch 0x510e527f 0x9b05688c 0x1f83d9ab = 0x1f85c98c ∧
  maj 0xffffffff 0x12345678 0x9abcdef0 = 0x9abcdef8 ∧ maj 0x6a09e667 0xbb67ae85 0x3c6ef372 = 0x3a6fe667

/-- R120, R121, R122: `K[i]` and `IV[i]` are the low 32 bits of the integer cube root of p·2^96 and the integer square root
of p·2^64, for the i-th prime p. -/
def Obligations.ConstantsAreRootsOfPrimes : Prop :=
  (∀ i : BitVec 6, ∃ r : Nat, r ^ 3 ≤ Nat.nth Nat.Prime i.toNat * 2 ^ 96 ∧
    Nat.nth Nat.Prime i.toNat * 2 ^ 96 < (r + 1) ^ 3 ∧ (roundConstant i).toNat = r % 2 ^ 32) ∧
  (∀ i : BitVec 3, ∃ r : Nat, r ^ 2 ≤ Nat.nth Nat.Prime i.toNat * 2 ^ 64 ∧
    Nat.nth Nat.Prime i.toNat * 2 ^ 64 < (r + 1) ^ 2 ∧ (wordAt initialValue i).toNat = r % 2 ^ 32)

/-- R103, R104: the zero count and the length of the padded message, for every bit string. -/
def Obligations.PadLengthLaws : Prop :=
  ∀ s : List Bool, s.length < 2 ^ 64 →
    (s.length % 512 ≤ 447 → zeroCount s.length = 447 - s.length % 512) ∧
    (448 ≤ s.length % 512 → zeroCount s.length = 959 - s.length % 512) ∧
    (pad s).length = s.length + 65 + zeroCount s.length ∧
    (pad s).length % 512 = 0 ∧ s.length + 65 ≤ (pad s).length ∧ s <+: pad s ∧
    (pad s).length = 512 * ((s.length + 64) / 512 + 1)

/-- R106: the byte form of the padding, with `z = (55 - n) mod 64` zero bytes. -/
def Obligations.PaddingInBytes : Prop :=
  ∀ m : List Byte, m.length < 2 ^ 61 →
    ∃ z, z < 64 ∧ (z + m.length) % 64 = 55 ∧ zeroCount (8 * m.length) = 7 + 8 * z ∧
      (m.length % 64 ≤ 55 → z = 55 - m.length % 64) ∧ (56 ≤ m.length % 64 → z = 119 - m.length % 64) ∧
      pad (messageBitString m) = messageBitString
        (m ++ [0x80] ++ List.replicate z 0x00 ++ be64 (BitVec.ofNat 64 (8 * m.length)))

/-! ### Invariants and the whole machine -/

/-- The reset state is sound. -/
def Obligations.ResetStateIsSound : Prop := State.reset.Inv

/-- Every step keeps the invariant (R25, R31, R32, R34, R49, R60), whatever the pins carry. -/
def Obligations.StepKeepsInvariant : Prop :=
  ∀ s t : State, s.Inv → step s = .next t → t.Inv

/-- From a sound state no step stops, and no engine step draws an unspecified value: unspecified locations never reach
the digest (R49, R135, R201). -/
def Obligations.SoundStepNeverStops : Prop :=
  ∀ s : State, s.Inv → ∃ t, step s = .next t ∧
    ((nextPins s).reqValid = false → t.draws = s.draws)

/-- R71: what polling relies on. The pins are those of the step; the transactions named are the ones that end the
stability. -/
def Obligations.PollingIsSound : Prop :=
  ∀ s t : State, step s = .next t → (nextPins s).rst = false →
    (s.phase = .accept → ((nextPins s).reqValid = true →
        ∀ i, decodeBus (pinsWord (nextPins s)) = i → i ≠ .final ∧ ∀ b, i ≠ .push b) → t.phase = .accept) ∧
    (s.phase = .done → ((nextPins s).reqValid = true → decodeBus (pinsWord (nextPins s)) ≠ .init) →
      t.phase = .done ∧ t.h = s.h ∧ t.r = s.r ∧ t.w = s.w ∧ t.buf = s.buf ∧ t.nbytes = s.nbytes) ∧
    (s.halt = true → ((nextPins s).reqValid = true →
        decodeBus (pinsWord (nextPins s)) ≠ .init ∧ decodeBus (pinsWord (nextPins s)) ≠ .cont) →
      t.halt = true ∧ t.h = s.h ∧ t.r = s.r ∧ t.w = s.w ∧ t.lastblk = s.lastblk) ∧
    (((nextPins s).reqValid = true → decodeBus (pinsWord (nextPins s)) ≠ .init) →
      ∀ n, s.err.getLsbD n = true → t.err.getLsbD n = true)

/-- R220 and R158: the interrupt line and the digest as functions of the state; the digest as words, bytes and hexadecimal
characters, on the port and through the registers. -/
def Obligations.OutputsFollowState : Prop :=
  ∀ s : State,
    (irq s = true ↔ (s.cfg.getLsbD 1 = true ∧ s.phase = .done) ∨ (s.cfg.getLsbD 2 = true ∧ s.err ≠ 0)) ∧
    (digestValidPort s = true ↔ s.phase = .done ∧ s.err = 0) ∧
    (∀ i : BitVec 3, (digestPort s).extractLsb' (224 - 32 * i.toNat) 32 = wordAt s.h i) ∧
    (∀ (i : BitVec 3) (k : Nat), k < 4 →
      (digestBytes (digestPort s))[4 * i.toNat + k]? = some ((wordAt s.h i).extractLsb' (24 - 8 * k) 8)) ∧
    (∀ (i : BitVec 3) (k : Nat), k < 8 →
      (digestHex (digestPort s))[8 * i.toNat + k]? = some (hexDigit ((wordAt s.h i).extractLsb' (28 - 4 * k) 4))) ∧
    (∀ i, answers (.rdH i) s (wordAt s.h i)) ∧
    (∀ v, answers .rdStatus s v → v.getLsbD 3 = digestValidPort s)

/-- After reset, and after `INIT` in any sound state, no byte has been accepted and no block compressed (R163, R164). -/
def Obligations.NewMessageHashesNothing : Prop :=
  Hashing [] State.reset ∧ ∀ s t : State, s.Inv → exec .init s = .next t → Hashing [] t

/-- R164: every step keeps the relation between the state and the message accepted so far, in every interleaving, under
every `CFG` and with any errors. -/
def Obligations.StepKeepsHashingRelation : Prop :=
  ∀ (m : List Byte) (s t : State), Hashing m s → step s = .next t → Hashing (messageAfter m s) t

/-- R163 (c), (d) and R202: in `DONE` the digest port shows `sha256` of exactly the accepted bytes, `LEN` their number of
bits, the run is a good one where `ERR = 0`, and `BUF`, `W` and `R` hold what the last block of the padded message left. -/
def Obligations.DoneShowsSha256OfAcceptedBytes : Prop :=
  ∀ (m : List Byte) (s : State), Hashing m s → s.phase = .done →
    sha256 m = some (digestPort s) ∧ (messageBits s).toNat = 8 * m.length ∧ digestValidPort s = decide (s.err = 0) ∧
    ∃ q, 64 * (q + 1) = (paddedBytes m).length ∧
      (∀ j, j < 64 → Memory.read? j s.buf = (paddedBytes m)[64 * q + j]?) ∧
      (∀ i, i < 64 → Memory.read? i s.w = (schedule (byteBlock q (paddedBytes m)))[i]?) ∧
      s.h = addWords (hashAfter (paddedBytes m) q) s.r

/-- R145, R250: 130 engine steps from a full buffer compress its block into the hash state and go where R157 says. No
sample waits: the host is silent and the engine never delayed (log entry 1). -/
def Obligations.EngineCompressesBlockIn130Steps : Prop :=
  ∀ s : State, s.phase = .sched → s.t = 0 → s.halt = false → s.cfg.getLsbD 0 = false → WrittenBelow 64 s.buf →
    s.inputs = [] →
    ∃ t, Sys2Proof.core.run 130 s = .next t ∧ t.h = compress s.h (schedule (bufBlock s)) ∧ t.phase = afterAccum s ∧
      t.fill = 0 ∧ t.t = 0 ∧ t.buf = s.buf ∧
      t = { s with h := t.h, r := t.r, w := t.w, phase := t.phase, fill := t.fill, rspRdata := 0, rspErr := false }

/-- R200, R246, R250: from any sound state, free running and left alone, the engine comes to rest, in `ACCEPT` or `DONE`,
within 262 micro-operations, the most any state is away from it. No sample waits: the host is silent and the engine never
delayed, which is the model's reading of an empty list (log entry 1), and the bound of 262 steps rests on it. -/
def Obligations.EngineComesToRest : Prop :=
  ∀ s : State, s.Inv → s.halt = false → s.cfg.getLsbD 0 = false → s.inputs = [] →
    ∃ n t, n ≤ 262 ∧ Sys2Proof.core.run n s = .next t ∧ (t.phase = .accept ∨ t.phase = .done) ∧ t.err = s.err ∧
      t.nbytes = s.nbytes ∧ t.fin = s.fin

/-- R163: from any sound state, free running, `INIT`, the bytes of any message and `FINAL`, with the engine run to rest
after each transaction, end in `DONE` with `ERR = 0` and the digest of the message, whatever `R`, `W` and `BUF` held. The
list of samples, one interleaving, is the model's choice (log entry 13). -/
def Obligations.CanonicalProtocolComputesSha256 : Prop :=
  ∀ (m : List Byte) (s : State), m.length < 2 ^ 61 → s.Inv → s.cfg.getLsbD 0 = false →
    ∃ t, Sys2Proof.core.run (hashSchedule m).length { s with inputs := hashSchedule m } = .next t ∧
      t.phase = .done ∧ t.err = 0 ∧ digestValidPort t = true ∧ sha256 m = some (digestPort t) ∧
      (messageBits t).toNat = 8 * m.length

/-- R203, R204, R163, R71: the host that hashes a message by R203's listing, in any of its ways (free running or in single
steps, polling before every byte or not, polling at the end or after `irq`), in every interleaving, with any reads, `NOP`s
and `CFG` writes beside it, is never stopped, never finds `VALID = 0`, and if it finishes has read `sha256` of the message.
The host's form is the model's (log entry 16). -/
def Obligations.HostProtocolReadsSha256 : Prop :=
  ∀ (plan : HostPlan) (m : List Byte) (s : State) (turns : List Turn), m.length < 2 ^ 61 → readyFor plan s →
    (∀ turn ∈ turns, lawfulTurn turn = true) →
    ∃ b, benchRun plan m turns (benchStart plan m s) = .next b ∧ ProtocolFacts plan m b ∧
      (b.host.place = .finished → hostDigest b.host = sha256 m ∧ b.host.failures = 0)

/-- R203, R193, R70: where host and engine both act in every step, the host finishes, in single steps too. A host that waits
for `irq` enables it, and does so free running, since it reads no `STATUS` that could show it `HALT`. The host's form is the model's (log entry 16). -/
def Obligations.HostProtocolFinishes : Prop :=
  ∀ (plan : HostPlan) (m : List Byte) (s : State), m.length < 2 ^ 61 → readyFor plan s →
    (plan.useIrq = true → (plan.cfg.getD s.cfg).getLsbD 1 = true ∧ (plan.cfg.getD s.cfg).getLsbD 0 = false ∧
      (plan.init = true ∨ s.halt = false)) →
    ∃ b, benchRun plan m (List.replicate (10 * m.length + 1000) ⟨.proceed, true⟩) (benchStart plan m s) = .next b ∧
      b.host.place = .finished ∧ hostDigest b.host = sha256 m
end

