-- ==== Sys2Proof/Laws/Decode.lean ====
section
/-! SUPPORT. The fields of a transaction word come back from it, so decoding is by register and access kind. -/

namespace Sys2Proof

/-- The bits of a transaction word (R81). -/
theorem getLsbD_transactionWord (we : Bool) (a : BitVec 8) (wd : Word) (i : Nat) :
    (transactionWord we a wd).getLsbD i =
      if i < 32 then wd.getLsbD i else if i - 32 < 8 then a.getLsbD (i - 32)
      else (BitVec.ofBool we).getLsbD (i - 32 - 8) := by
  refine (BitVec.getLsbD_append (x := BitVec.ofBool we ++ a) (y := wd) (i := i)).trans ?_
  simp only [BitVec.getLsbD_append]

@[simp] theorem twWe_transactionWord (we : Bool) (a : BitVec 8) (wd : Word) :
    twWe (transactionWord we a wd) = we := by
  rw [twWe, getLsbD_transactionWord]
  cases we <;> rfl

@[simp] theorem twAddr_transactionWord (we : Bool) (a : BitVec 8) (wd : Word) :
    twAddr (transactionWord we a wd) = a := by
  apply BitVec.eq_of_getLsbD_eq
  intro i hi
  simp only [twAddr, BitVec.getLsbD_extractLsb', getLsbD_transactionWord]
  rw [if_neg (by omega), if_pos (by omega)]
  simp [hi]

@[simp] theorem twWdata_transactionWord (we : Bool) (a : BitVec 8) (wd : Word) :
    twWdata (transactionWord we a wd) = wd := by
  apply BitVec.eq_of_getLsbD_eq
  intro i hi
  simp only [twWdata, BitVec.getLsbD_extractLsb', getLsbD_transactionWord]
  rw [if_pos (by omega)]
  simp [hi]

/-- A word is the join of its three fields (R81). -/
theorem transactionWord_fields (tw : BitVec 41) : transactionWord (twWe tw) (twAddr tw) (twWdata tw) = tw := by
  apply BitVec.eq_of_getLsbD_eq
  intro i hi
  simp only [getLsbD_transactionWord, twWe, twAddr, twWdata, BitVec.getLsbD_extractLsb', BitVec.getLsbD_ofBool]
  by_cases h1 : i < 32
  · simp [h1]
  · by_cases h2 : i - 32 < 8
    · simp [h1, h2, show 32 + (i - 32) = i by omega]
    · obtain rfl : i = 40 := by omega
      simp

/-- Decoding by the fields of the word (R88). -/
theorem decodeBus_transactionWord (we : Bool) (a : BitVec 8) (wd : Word) :
    decodeBus (transactionWord we a wd) = if we then decodeWrite wd (regOf a) else decodeRead (regOf a) := by
  simp [decodeBus]

/-- The register map read backwards (R35). -/
theorem regOf_regAddr (r : Reg) : regOf (regAddr r) = r := by
  cases r with
  | h i => revert i; decide
  | r i => revert i; decide
  | blk j => revert j; decide
  | w t => revert t; decide
  | k t => revert t; decide
  | iv i => revert i; decide
  | _ => decide

end Sys2Proof
end

