-- ==== Sys2Proof/Laws/Memory.lean ====
section
/-! SUPPORT. The laws of a memory held as a rising list: read after write, what a run of writes stores and leaves
alone, the canonical form kept, and equal reads make equal memories. -/

namespace Sys2Proof.Memory

variable {α : Type}

@[simp] theorem read?_nil (j : Nat) : read? j ([] : List (Nat × α)) = none := rfl

theorem read?_cons (j a : Nat) (v : α) (m : List (Nat × α)) :
    read? j ((a, v) :: m) = if a = j then some v else read? j m := rfl

/-- A read after a write to the same place gives the value written. -/
@[simp] theorem read?_write_same (j : Nat) (v : α) (m : List (Nat × α)) : read? j (write j v m) = some v := by
  induction m with
  | nil => simp [write, read?]
  | cons c m ih =>
    obtain ⟨a, x⟩ := c
    simp only [write]
    split
    · simp [read?]
    · split
      · simp [read?]
      · rename_i h1 h2
        simp [read?, ih, Ne.symm h2]

/-- A write leaves every other place alone. -/
theorem read?_write_other {j k : Nat} (h : k ≠ j) (v : α) (m : List (Nat × α)) :
    read? k (write j v m) = read? k m := by
  induction m with
  | nil => simp [write, read?, Ne.symm h]
  | cons c m ih =>
    obtain ⟨a, x⟩ := c
    simp only [write]
    split
    · simp [read?, Ne.symm h]
    · split
      · rename_i h2
        subst h2
        simp [read?, Ne.symm h]
      · simp [read?, ih]

/-- Both cases of a read after a write. -/
theorem read?_write (j k : Nat) (v : α) (m : List (Nat × α)) :
    read? k (write j v m) = if k = j then some v else read? k m := by
  split
  · rename_i h; subst h; simp
  · rename_i h; exact read?_write_other h v m

/-- A run of writes leaves every place before it alone. -/
theorem read?_writeAll_before {k : Nat} (vs : List α) :
    ∀ {j : Nat} (m : List (Nat × α)), k < j → read? k (writeAll j vs m) = read? k m := by
  induction vs with
  | nil => intros; rfl
  | cons v vs ih =>
    intro j m h
    rw [writeAll, ih _ (by omega), read?_write_other (by omega)]

/-- What a run of writes stores, and that it leaves every other place alone. -/
theorem read?_writeAll (k : Nat) (vs : List α) : ∀ (j : Nat) (m : List (Nat × α)),
    read? k (writeAll j vs m) = if j ≤ k ∧ k < j + vs.length then vs[k - j]? else read? k m := by
  induction vs with
  | nil => intro j m; rw [if_neg (by simp only [List.length_nil]; omega)]; rfl
  | cons v vs ih =>
    intro j m
    by_cases hkj : k = j
    · subst hkj
      rw [writeAll, read?_writeAll_before _ _ (by omega)]
      simp
    · rw [writeAll, ih, read?_write_other hkj]
      simp only [List.length_cons]
      by_cases hlt : j + 1 ≤ k ∧ k < j + 1 + vs.length
      · rw [if_pos hlt, if_pos (by omega)]
        obtain ⟨n, rfl⟩ : ∃ n, k = j + 1 + n := ⟨k - (j + 1), by omega⟩
        have e1 : j + 1 + n - (j + 1) = n := by omega
        have e2 : j + 1 + n - j = n + 1 := by omega
        simp [e1, e2]
      · rw [if_neg hlt, if_neg (by omega)]

/-! ### The canonical form -/

@[simp] theorem wf_nil (size : Nat) : wf size ([] : List (Nat × α)) = true := rfl

theorem rising_cons (size lo a : Nat) (v : α) (m : List (Nat × α)) :
    rising size lo ((a, v) :: m) = true ↔ lo ≤ a ∧ a < size ∧ rising size (a + 1) m = true := by
  simp [rising, and_assoc]

theorem rising_write {size j : Nat} (hj : j < size) (v : α) (m : List (Nat × α)) :
    ∀ {lo : Nat}, lo ≤ j → rising size lo m = true → rising size lo (write j v m) = true := by
  induction m with
  | nil => intro lo hlo _; simp [write, rising, hlo, hj]
  | cons c m ih =>
    intro lo hlo h
    obtain ⟨a, x⟩ := c
    rw [rising_cons] at h
    simp only [write]
    split
    · rename_i hja
      rw [rising_cons, rising_cons]
      exact ⟨hlo, hj, by omega, h.2.1, h.2.2⟩
    · split
      · rename_i hja
        subst hja
        rw [rising_cons]
        exact ⟨hlo, hj, h.2.2⟩
      · rw [rising_cons]
        exact ⟨h.1, h.2.1, ih (by omega) h.2.2⟩

/-- A write inside the memory keeps the canonical form. -/
theorem wf_write {size j : Nat} (hj : j < size) (v : α) {m : List (Nat × α)} (h : wf size m = true) :
    wf size (write j v m) = true :=
  rising_write hj v m (Nat.zero_le _) h

/-- A run of writes inside the memory keeps the canonical form. -/
theorem wf_writeAll {size : Nat} (vs : List α) : ∀ {j : Nat} {m : List (Nat × α)},
    j + vs.length ≤ size → wf size m = true → wf size (writeAll j vs m) = true := by
  induction vs with
  | nil => intro j m _ h; exact h
  | cons v vs ih =>
    intro j m hj h
    simp only [List.length_cons] at hj
    exact ih (by omega) (wf_write (by omega) v h)

theorem read?_of_rising {size k : Nat} (m : List (Nat × α)) :
    ∀ {lo : Nat}, rising size lo m = true → k < lo → read? k m = none := by
  induction m with
  | nil => intros; rfl
  | cons c m ih =>
    intro lo h hk
    obtain ⟨a, x⟩ := c
    rw [rising_cons] at h
    rw [read?_cons, if_neg (by omega), ih h.2.2 (by omega)]

/-- A memory in canonical form holds nothing outside its size. -/
theorem read?_of_wf_of_le {size k : Nat} (m : List (Nat × α)) :
    ∀ {lo : Nat}, rising size lo m = true → size ≤ k → read? k m = none := by
  induction m with
  | nil => intros; rfl
  | cons c m ih =>
    intro lo h hk
    obtain ⟨a, x⟩ := c
    rw [rising_cons] at h
    rw [read?_cons, if_neg (by omega), ih h.2.2 hk]

/-- Two memories in canonical form that read alike are the same list. -/
theorem ext_of_rising {size : Nat} (m : List (Nat × α)) : ∀ {lo : Nat} {m' : List (Nat × α)},
    rising size lo m = true → rising size lo m' = true → (∀ k, read? k m = read? k m') → m = m' := by
  induction m with
  | nil =>
    intro lo m' _ _ h
    cases m' with
    | nil => rfl
    | cons c m' => obtain ⟨a, x⟩ := c; have := h a; simp [read?] at this
  | cons c m ih =>
    intro lo m' hm hm' h
    obtain ⟨a, x⟩ := c
    cases m' with
    | nil => have := h a; simp [read?] at this
    | cons c' m' =>
      obtain ⟨b, y⟩ := c'
      rw [rising_cons] at hm hm'
      have hab : a = b := by
        rcases Nat.lt_trichotomy a b with hlt | heq | hgt
        · have := h a
          rw [read?_cons, if_pos rfl, read?_cons, if_neg (by omega), read?_of_rising m' hm'.2.2 (by omega)] at this
          cases this
        · exact heq
        · have := h b
          rw [read?_cons, if_neg (by omega), read?_cons, if_pos rfl, read?_of_rising m hm.2.2 (by omega)] at this
          cases this
      subst hab
      have hxy : x = y := by
        have := h a
        simpa [read?] using this
      subst hxy
      refine congrArg _ (ih hm.2.2 hm'.2.2 fun k => ?_)
      by_cases hk : k < a + 1
      · rw [read?_of_rising m hm.2.2 hk, read?_of_rising m' hm'.2.2 hk]
      · have := h k
        rwa [read?_cons, if_neg (by omega), read?_cons, if_neg (by omega)] at this

theorem ext_of_wf {size : Nat} {m m' : List (Nat × α)} (h : wf size m = true) (h' : wf size m' = true)
    (hr : ∀ k, read? k m = read? k m') : m = m' :=
  ext_of_rising m h h' hr

end Sys2Proof.Memory
end

