-- ==== Sys2Proof/Laws/Operands.lean ====
section
/-! SUPPORT. What each operand function gives, said once: the length, bytes and words of the two memories, the padding
bytes, the bits of `STATUS`. -/

namespace Sys2Proof.Machine

/-- `L = 8 * NBYTES`: the product never overflows (R30). -/
theorem messageBits_toNat (s : State) : (messageBits s).toNat = 8 * s.nbytes.toNat := by
  have := s.nbytes.isLt
  simp [messageBits]
  omega

/-! ### Bytes and words -/

/-- The bits of a word made of four bytes (R12, R62). -/
theorem getLsbD_wordOfBytes (b0 b1 b2 b3 : Byte) (i : Nat) :
    (wordOfBytes b0 b1 b2 b3).getLsbD i =
      if i < 8 then b3.getLsbD i else if i < 16 then b2.getLsbD (i - 8) else if i < 24 then b1.getLsbD (i - 16)
      else b0.getLsbD (i - 24) := by
  refine (BitVec.getLsbD_append (x := b0 ++ b1 ++ b2) (y := b3) (i := i)).trans ?_
  simp only [BitVec.getLsbD_append]
  split_ifs <;> first | rfl | omega

theorem bufByte_of_read {s : State} {j : Nat} {b : Byte} (h : Memory.read? j s.buf = some b) : bufByte s j = b := by
  simp [bufByte, h]

theorem schedWord_of_read {s : State} {t : Nat} {v : Word} (h : Memory.read? t s.w = some v) :
    schedWord s t = v := by
  simp [schedWord, h]

theorem blkUnwritten_of_written {s : State} {j : Nat}
    (h : ∀ k, k < 4 → (Memory.read? (4 * j + k) s.buf).isSome = true) : blkUnwritten s j = false := by
  have h0 := h 0 (by omega)
  have h1 := h 1 (by omega)
  have h2 := h 2 (by omega)
  have h3 := h 3 (by omega)
  simp only [Nat.add_zero] at h0
  simp only [blkUnwritten, bufUnwritten, Option.isNone_eq_false_iff, Bool.or_eq_false_iff]
  exact ⟨⟨⟨h0, h1⟩, h2⟩, h3⟩

theorem schedUnwritten_of_written {s : State} {t : Nat} (h : (Memory.read? t s.w).isSome = true) :
    schedUnwritten s t = false := by
  simpa [schedUnwritten] using h

/-! ### The bytes the padding writes -/

@[simp] theorem length_be64 (v : BitVec 64) : (be64 v).length = 8 := rfl

/-- Byte `k` of the length field (R12, R62). -/
theorem getElem?_be64 (v : BitVec 64) (k : Nat) (hk : k < 8) :
    (be64 v)[k]? = some (BitVec.ofNat 8 (v.toNat / 2 ^ (8 * (7 - k)))) := by
  have key : ∀ n : Nat, v.extractLsb' n 8 = BitVec.ofNat 8 (v.toNat / 2 ^ n) := fun n => by
    apply BitVec.eq_of_toNat_eq
    simp [Nat.shiftRight_eq_div_pow]
  match k, hk with
  | 0, _ | 1, _ | 2, _ | 3, _ | 4, _ | 5, _ | 6, _ | 7, _ => simp [be64, key]

theorem length_padTail {f : Nat} (hf : f ≤ 63) (len : BitVec 64) : (padTail f len).length = 64 - f := by
  unfold padTail
  split <;> simp <;> omega

@[simp] theorem length_padBlock (len : BitVec 64) : (padBlock len).length = 64 := rfl

/-- Byte `j` of the buffer as `uPAD1` writes it (R110). -/
theorem getElem?_padTail {f j : Nat} (hf : f ≤ 63) (h1 : f ≤ j) (h2 : j < 64) (len : BitVec 64) :
    (padTail f len)[j - f]? =
      if j = f then some 0x80
      else if f ≤ 55 ∧ 56 ≤ j then some (BitVec.ofNat 8 (len.toNat / 2 ^ (8 * (63 - j)))) else some 0x00 := by
  by_cases hj : j = f
  · subst hj
    unfold padTail
    split <;> simp
  · obtain ⟨n, rfl⟩ : ∃ n, j = f + n + 1 := ⟨j - f - 1, by omega⟩
    rw [if_neg hj, show f + n + 1 - f = n + 1 by omega]
    unfold padTail
    by_cases h55 : f ≤ 55
    · rw [if_pos h55, List.getElem?_cons_succ, List.getElem?_append]
      by_cases h56 : 56 ≤ f + n + 1
      · rw [if_neg (by simp; omega), if_pos ⟨h55, h56⟩, List.length_replicate, getElem?_be64 _ _ (by omega)]
        rw [show 7 - (n - (55 - f)) = 63 - (f + n + 1) by omega]
      · rw [if_pos (by simp; omega), if_neg (by omega), List.getElem?_replicate, if_pos (by omega)]
    · rw [if_neg h55, if_neg (by omega), List.getElem?_cons_succ, List.getElem?_replicate, if_pos (by omega)]

/-- Byte `j` of the buffer as `uPAD2` writes it (R112). -/
theorem getElem?_padBlock {j : Nat} (h : j < 64) (len : BitVec 64) :
    (padBlock len)[j]? =
      if 56 ≤ j then some (BitVec.ofNat 8 (len.toNat / 2 ^ (8 * (63 - j)))) else some 0x00 := by
  unfold padBlock
  rw [List.getElem?_append, List.length_replicate]
  by_cases h56 : 56 ≤ j
  · rw [if_neg (by omega), if_pos h56, getElem?_be64 _ _ (by omega), show 7 - (j - 56) = 63 - j by omega]
  · rw [if_pos (by omega), if_neg h56, List.getElem?_replicate, if_pos (by omega)]

/-! ### The bits of `STATUS` -/

/-- `STATUS[7:0]`, bit by bit (R42). -/
theorem getLsbD_statusFlags (s : State) (i : Nat) :
    (statusFlags s).getLsbD i =
      ([statusReady s, statusBusy s, statusDone s, statusValid s, s.halt, s.fin, s.lastblk, statusErrAny s][i]?).getD
        false := by
  unfold statusFlags
  generalize statusErrAny s = b7, s.lastblk = b6, s.fin = b5, s.halt = b4, statusValid s = b3, statusDone s = b2,
    statusBusy s = b1, statusReady s = b0
  match i with
  | 0 | 1 | 2 | 3 | 4 | 5 | 6 | 7 =>
    revert b0 b1 b2 b3 b4 b5 b6 b7
    decide
  | n + 8 => rw [BitVec.getLsbD_of_ge _ _ (by omega)]; rfl

/-- `STATUS`, bit by bit (R42). -/
theorem getLsbD_statusWord (s : State) (i : Nat) :
    (statusWord s).getLsbD i =
      if i < 8 then (statusFlags s).getLsbD i
      else if i < 16 then (0#5 ++ phaseCode s.phase).getLsbD (i - 8)
      else if i < 24 then (0#2 ++ s.t).getLsbD (i - 16)
      else (0#1 ++ s.fill).getLsbD (i - 24) :=
  getLsbD_wordOfBytes _ _ _ _ i

end Sys2Proof.Machine
end

