-- ==== Sys2Proof/Laws/State.lean ====
section
/-! SUPPORT. One lemma per field per update of the state, so that no later proof unfolds a record update. -/

namespace Sys2Proof.Machine

/-! ### `respond` -/

@[simp] theorem respond_h (v : Word) (s : State) : (respond v s).h = s.h := rfl
@[simp] theorem respond_r (v : Word) (s : State) : (respond v s).r = s.r := rfl
@[simp] theorem respond_w (v : Word) (s : State) : (respond v s).w = s.w := rfl
@[simp] theorem respond_buf (v : Word) (s : State) : (respond v s).buf = s.buf := rfl
@[simp] theorem respond_fill (v : Word) (s : State) : (respond v s).fill = s.fill := rfl
@[simp] theorem respond_nbytes (v : Word) (s : State) : (respond v s).nbytes = s.nbytes := rfl
@[simp] theorem respond_fin (v : Word) (s : State) : (respond v s).fin = s.fin := rfl
@[simp] theorem respond_lastblk (v : Word) (s : State) : (respond v s).lastblk = s.lastblk := rfl
@[simp] theorem respond_halt (v : Word) (s : State) : (respond v s).halt = s.halt := rfl
@[simp] theorem respond_phase (v : Word) (s : State) : (respond v s).phase = s.phase := rfl
@[simp] theorem respond_t (v : Word) (s : State) : (respond v s).t = s.t := rfl
@[simp] theorem respond_cfg (v : Word) (s : State) : (respond v s).cfg = s.cfg := rfl
@[simp] theorem respond_err (v : Word) (s : State) : (respond v s).err = s.err := rfl
@[simp] theorem respond_rspRdata (v : Word) (s : State) : (respond v s).rspRdata = v := rfl
@[simp] theorem respond_rspErr (v : Word) (s : State) : (respond v s).rspErr = false := rfl
@[simp] theorem respond_inputs (v : Word) (s : State) : (respond v s).inputs = s.inputs := rfl
@[simp] theorem respond_draws (v : Word) (s : State) : (respond v s).draws = s.draws := rfl

/-! ### `quiet` -/

@[simp] theorem quiet_h (s : State) : (quiet s).h = s.h := rfl
@[simp] theorem quiet_r (s : State) : (quiet s).r = s.r := rfl
@[simp] theorem quiet_w (s : State) : (quiet s).w = s.w := rfl
@[simp] theorem quiet_buf (s : State) : (quiet s).buf = s.buf := rfl
@[simp] theorem quiet_fill (s : State) : (quiet s).fill = s.fill := rfl
@[simp] theorem quiet_nbytes (s : State) : (quiet s).nbytes = s.nbytes := rfl
@[simp] theorem quiet_fin (s : State) : (quiet s).fin = s.fin := rfl
@[simp] theorem quiet_lastblk (s : State) : (quiet s).lastblk = s.lastblk := rfl
@[simp] theorem quiet_halt (s : State) : (quiet s).halt = s.halt := rfl
@[simp] theorem quiet_phase (s : State) : (quiet s).phase = s.phase := rfl
@[simp] theorem quiet_t (s : State) : (quiet s).t = s.t := rfl
@[simp] theorem quiet_cfg (s : State) : (quiet s).cfg = s.cfg := rfl
@[simp] theorem quiet_err (s : State) : (quiet s).err = s.err := rfl
@[simp] theorem quiet_rspRdata (s : State) : (quiet s).rspRdata = 0 := rfl
@[simp] theorem quiet_rspErr (s : State) : (quiet s).rspErr = false := rfl
@[simp] theorem quiet_inputs (s : State) : (quiet s).inputs = s.inputs := rfl
@[simp] theorem quiet_draws (s : State) : (quiet s).draws = s.draws := rfl

/-! ### `raiseErr` -/

@[simp] theorem raiseErr_h (x : ErrBit) (s : State) : (raiseErr x s).h = s.h := rfl
@[simp] theorem raiseErr_r (x : ErrBit) (s : State) : (raiseErr x s).r = s.r := rfl
@[simp] theorem raiseErr_w (x : ErrBit) (s : State) : (raiseErr x s).w = s.w := rfl
@[simp] theorem raiseErr_buf (x : ErrBit) (s : State) : (raiseErr x s).buf = s.buf := rfl
@[simp] theorem raiseErr_fill (x : ErrBit) (s : State) : (raiseErr x s).fill = s.fill := rfl
@[simp] theorem raiseErr_nbytes (x : ErrBit) (s : State) : (raiseErr x s).nbytes = s.nbytes := rfl
@[simp] theorem raiseErr_fin (x : ErrBit) (s : State) : (raiseErr x s).fin = s.fin := rfl
@[simp] theorem raiseErr_lastblk (x : ErrBit) (s : State) : (raiseErr x s).lastblk = s.lastblk := rfl
@[simp] theorem raiseErr_halt (x : ErrBit) (s : State) : (raiseErr x s).halt = s.halt := rfl
@[simp] theorem raiseErr_phase (x : ErrBit) (s : State) : (raiseErr x s).phase = s.phase := rfl
@[simp] theorem raiseErr_t (x : ErrBit) (s : State) : (raiseErr x s).t = s.t := rfl
@[simp] theorem raiseErr_cfg (x : ErrBit) (s : State) : (raiseErr x s).cfg = s.cfg := rfl
@[simp] theorem raiseErr_err (x : ErrBit) (s : State) : (raiseErr x s).err = s.err ||| errMask x := rfl
@[simp] theorem raiseErr_rspRdata (x : ErrBit) (s : State) : (raiseErr x s).rspRdata = 0 := rfl
@[simp] theorem raiseErr_rspErr (x : ErrBit) (s : State) : (raiseErr x s).rspErr = true := rfl
@[simp] theorem raiseErr_inputs (x : ErrBit) (s : State) : (raiseErr x s).inputs = s.inputs := rfl
@[simp] theorem raiseErr_draws (x : ErrBit) (s : State) : (raiseErr x s).draws = s.draws := rfl

/-! ### `noteDraw` -/

@[simp] theorem noteDraw_h (d : Bool) (s : State) : (noteDraw d s).h = s.h := by cases d <;> rfl
@[simp] theorem noteDraw_r (d : Bool) (s : State) : (noteDraw d s).r = s.r := by cases d <;> rfl
@[simp] theorem noteDraw_w (d : Bool) (s : State) : (noteDraw d s).w = s.w := by cases d <;> rfl
@[simp] theorem noteDraw_buf (d : Bool) (s : State) : (noteDraw d s).buf = s.buf := by cases d <;> rfl
@[simp] theorem noteDraw_fill (d : Bool) (s : State) : (noteDraw d s).fill = s.fill := by cases d <;> rfl
@[simp] theorem noteDraw_nbytes (d : Bool) (s : State) : (noteDraw d s).nbytes = s.nbytes := by cases d <;> rfl
@[simp] theorem noteDraw_fin (d : Bool) (s : State) : (noteDraw d s).fin = s.fin := by cases d <;> rfl
@[simp] theorem noteDraw_lastblk (d : Bool) (s : State) : (noteDraw d s).lastblk = s.lastblk := by cases d <;> rfl
@[simp] theorem noteDraw_halt (d : Bool) (s : State) : (noteDraw d s).halt = s.halt := by cases d <;> rfl
@[simp] theorem noteDraw_phase (d : Bool) (s : State) : (noteDraw d s).phase = s.phase := by cases d <;> rfl
@[simp] theorem noteDraw_t (d : Bool) (s : State) : (noteDraw d s).t = s.t := by cases d <;> rfl
@[simp] theorem noteDraw_cfg (d : Bool) (s : State) : (noteDraw d s).cfg = s.cfg := by cases d <;> rfl
@[simp] theorem noteDraw_err (d : Bool) (s : State) : (noteDraw d s).err = s.err := by cases d <;> rfl
@[simp] theorem noteDraw_rspRdata (d : Bool) (s : State) : (noteDraw d s).rspRdata = s.rspRdata := by cases d <;> rfl
@[simp] theorem noteDraw_rspErr (d : Bool) (s : State) : (noteDraw d s).rspErr = s.rspErr := by cases d <;> rfl
@[simp] theorem noteDraw_inputs (d : Bool) (s : State) : (noteDraw d s).inputs = s.inputs := by cases d <;> rfl
@[simp] theorem noteDraw_draws (d : Bool) (s : State) : (noteDraw d s).draws = if d then s.draws + 1 else s.draws := by cases d <;> rfl

/-! ### `holdIfStep` -/

@[simp] theorem holdIfStep_h (s : State) : (holdIfStep s).h = s.h := rfl
@[simp] theorem holdIfStep_r (s : State) : (holdIfStep s).r = s.r := rfl
@[simp] theorem holdIfStep_w (s : State) : (holdIfStep s).w = s.w := rfl
@[simp] theorem holdIfStep_buf (s : State) : (holdIfStep s).buf = s.buf := rfl
@[simp] theorem holdIfStep_fill (s : State) : (holdIfStep s).fill = s.fill := rfl
@[simp] theorem holdIfStep_nbytes (s : State) : (holdIfStep s).nbytes = s.nbytes := rfl
@[simp] theorem holdIfStep_fin (s : State) : (holdIfStep s).fin = s.fin := rfl
@[simp] theorem holdIfStep_lastblk (s : State) : (holdIfStep s).lastblk = s.lastblk := rfl
@[simp] theorem holdIfStep_halt (s : State) : (holdIfStep s).halt = (s.halt || cfgStep s) := rfl
@[simp] theorem holdIfStep_phase (s : State) : (holdIfStep s).phase = s.phase := rfl
@[simp] theorem holdIfStep_t (s : State) : (holdIfStep s).t = s.t := rfl
@[simp] theorem holdIfStep_cfg (s : State) : (holdIfStep s).cfg = s.cfg := rfl
@[simp] theorem holdIfStep_err (s : State) : (holdIfStep s).err = s.err := rfl
@[simp] theorem holdIfStep_rspRdata (s : State) : (holdIfStep s).rspRdata = s.rspRdata := rfl
@[simp] theorem holdIfStep_rspErr (s : State) : (holdIfStep s).rspErr = s.rspErr := rfl
@[simp] theorem holdIfStep_inputs (s : State) : (holdIfStep s).inputs = s.inputs := rfl
@[simp] theorem holdIfStep_draws (s : State) : (holdIfStep s).draws = s.draws := rfl

/-! ### `initMessage` -/

@[simp] theorem initMessage_h (s : State) : (initMessage s).h = initialValue := rfl
@[simp] theorem initMessage_r (s : State) : (initMessage s).r = s.r := rfl
@[simp] theorem initMessage_w (s : State) : (initMessage s).w = s.w := rfl
@[simp] theorem initMessage_buf (s : State) : (initMessage s).buf = s.buf := rfl
@[simp] theorem initMessage_fill (s : State) : (initMessage s).fill = 0 := rfl
@[simp] theorem initMessage_nbytes (s : State) : (initMessage s).nbytes = 0 := rfl
@[simp] theorem initMessage_fin (s : State) : (initMessage s).fin = false := rfl
@[simp] theorem initMessage_lastblk (s : State) : (initMessage s).lastblk = false := rfl
@[simp] theorem initMessage_halt (s : State) : (initMessage s).halt = false := rfl
@[simp] theorem initMessage_phase (s : State) : (initMessage s).phase = .accept := rfl
@[simp] theorem initMessage_t (s : State) : (initMessage s).t = 0 := rfl
@[simp] theorem initMessage_cfg (s : State) : (initMessage s).cfg = s.cfg := rfl
@[simp] theorem initMessage_err (s : State) : (initMessage s).err = 0 := rfl
@[simp] theorem initMessage_rspRdata (s : State) : (initMessage s).rspRdata = s.rspRdata := rfl
@[simp] theorem initMessage_rspErr (s : State) : (initMessage s).rspErr = s.rspErr := rfl
@[simp] theorem initMessage_inputs (s : State) : (initMessage s).inputs = s.inputs := rfl
@[simp] theorem initMessage_draws (s : State) : (initMessage s).draws = s.draws := rfl

/-! ### `hardReset` -/

@[simp] theorem hardReset_h (s : State) : (hardReset s).h = State.reset.h := rfl
@[simp] theorem hardReset_r (s : State) : (hardReset s).r = State.reset.r := rfl
@[simp] theorem hardReset_w (s : State) : (hardReset s).w = State.reset.w := rfl
@[simp] theorem hardReset_buf (s : State) : (hardReset s).buf = State.reset.buf := rfl
@[simp] theorem hardReset_fill (s : State) : (hardReset s).fill = State.reset.fill := rfl
@[simp] theorem hardReset_nbytes (s : State) : (hardReset s).nbytes = State.reset.nbytes := rfl
@[simp] theorem hardReset_fin (s : State) : (hardReset s).fin = State.reset.fin := rfl
@[simp] theorem hardReset_lastblk (s : State) : (hardReset s).lastblk = State.reset.lastblk := rfl
@[simp] theorem hardReset_halt (s : State) : (hardReset s).halt = State.reset.halt := rfl
@[simp] theorem hardReset_phase (s : State) : (hardReset s).phase = State.reset.phase := rfl
@[simp] theorem hardReset_t (s : State) : (hardReset s).t = State.reset.t := rfl
@[simp] theorem hardReset_cfg (s : State) : (hardReset s).cfg = State.reset.cfg := rfl
@[simp] theorem hardReset_err (s : State) : (hardReset s).err = State.reset.err := rfl
@[simp] theorem hardReset_rspRdata (s : State) : (hardReset s).rspRdata = State.reset.rspRdata := rfl
@[simp] theorem hardReset_rspErr (s : State) : (hardReset s).rspErr = State.reset.rspErr := rfl
@[simp] theorem hardReset_inputs (s : State) : (hardReset s).inputs = s.inputs := rfl
@[simp] theorem hardReset_draws (s : State) : (hardReset s).draws = s.draws := rfl

/-! ### `takePins` -/

@[simp] theorem takePins_h (s : State) : (takePins s).h = s.h := rfl
@[simp] theorem takePins_r (s : State) : (takePins s).r = s.r := rfl
@[simp] theorem takePins_w (s : State) : (takePins s).w = s.w := rfl
@[simp] theorem takePins_buf (s : State) : (takePins s).buf = s.buf := rfl
@[simp] theorem takePins_fill (s : State) : (takePins s).fill = s.fill := rfl
@[simp] theorem takePins_nbytes (s : State) : (takePins s).nbytes = s.nbytes := rfl
@[simp] theorem takePins_fin (s : State) : (takePins s).fin = s.fin := rfl
@[simp] theorem takePins_lastblk (s : State) : (takePins s).lastblk = s.lastblk := rfl
@[simp] theorem takePins_halt (s : State) : (takePins s).halt = s.halt := rfl
@[simp] theorem takePins_phase (s : State) : (takePins s).phase = s.phase := rfl
@[simp] theorem takePins_t (s : State) : (takePins s).t = s.t := rfl
@[simp] theorem takePins_cfg (s : State) : (takePins s).cfg = s.cfg := rfl
@[simp] theorem takePins_err (s : State) : (takePins s).err = s.err := rfl
@[simp] theorem takePins_rspRdata (s : State) : (takePins s).rspRdata = s.rspRdata := rfl
@[simp] theorem takePins_rspErr (s : State) : (takePins s).rspErr = s.rspErr := rfl
@[simp] theorem takePins_inputs (s : State) : (takePins s).inputs = s.inputs.tail := rfl
@[simp] theorem takePins_draws (s : State) : (takePins s).draws = s.draws := rfl

/-! ### `startBlock` -/

@[simp] theorem startBlock_h (b : List Host.Cell) (l : Bool) (s : State) : (startBlock b l s).h = s.h := rfl
@[simp] theorem startBlock_r (b : List Host.Cell) (l : Bool) (s : State) : (startBlock b l s).r = s.r := rfl
@[simp] theorem startBlock_w (b : List Host.Cell) (l : Bool) (s : State) : (startBlock b l s).w = s.w := rfl
@[simp] theorem startBlock_buf (b : List Host.Cell) (l : Bool) (s : State) : (startBlock b l s).buf = b := rfl
@[simp] theorem startBlock_fill (b : List Host.Cell) (l : Bool) (s : State) : (startBlock b l s).fill = 64 := rfl
@[simp] theorem startBlock_nbytes (b : List Host.Cell) (l : Bool) (s : State) : (startBlock b l s).nbytes = s.nbytes := rfl
@[simp] theorem startBlock_fin (b : List Host.Cell) (l : Bool) (s : State) : (startBlock b l s).fin = s.fin := rfl
@[simp] theorem startBlock_lastblk (b : List Host.Cell) (l : Bool) (s : State) : (startBlock b l s).lastblk = l := rfl
@[simp] theorem startBlock_halt (b : List Host.Cell) (l : Bool) (s : State) : (startBlock b l s).halt = (s.halt || cfgStep s) := rfl
@[simp] theorem startBlock_phase (b : List Host.Cell) (l : Bool) (s : State) : (startBlock b l s).phase = .sched := rfl
@[simp] theorem startBlock_t (b : List Host.Cell) (l : Bool) (s : State) : (startBlock b l s).t = 0 := rfl
@[simp] theorem startBlock_cfg (b : List Host.Cell) (l : Bool) (s : State) : (startBlock b l s).cfg = s.cfg := rfl
@[simp] theorem startBlock_err (b : List Host.Cell) (l : Bool) (s : State) : (startBlock b l s).err = s.err := rfl
@[simp] theorem startBlock_rspRdata (b : List Host.Cell) (l : Bool) (s : State) : (startBlock b l s).rspRdata = s.rspRdata := rfl
@[simp] theorem startBlock_rspErr (b : List Host.Cell) (l : Bool) (s : State) : (startBlock b l s).rspErr = s.rspErr := rfl
@[simp] theorem startBlock_inputs (b : List Host.Cell) (l : Bool) (s : State) : (startBlock b l s).inputs = s.inputs := rfl
@[simp] theorem startBlock_draws (b : List Host.Cell) (l : Bool) (s : State) : (startBlock b l s).draws = s.draws := rfl

/-! ### `advance` -/

@[simp] theorem advance_h (p : Phase) (s : State) : (advance p s).h = s.h := by unfold advance; split <;> rfl
@[simp] theorem advance_r (p : Phase) (s : State) : (advance p s).r = s.r := by unfold advance; split <;> rfl
@[simp] theorem advance_w (p : Phase) (s : State) : (advance p s).w = s.w := by unfold advance; split <;> rfl
@[simp] theorem advance_buf (p : Phase) (s : State) : (advance p s).buf = s.buf := by unfold advance; split <;> rfl
@[simp] theorem advance_fill (p : Phase) (s : State) : (advance p s).fill = s.fill := by unfold advance; split <;> rfl
@[simp] theorem advance_nbytes (p : Phase) (s : State) : (advance p s).nbytes = s.nbytes := by unfold advance; split <;> rfl
@[simp] theorem advance_fin (p : Phase) (s : State) : (advance p s).fin = s.fin := by unfold advance; split <;> rfl
@[simp] theorem advance_lastblk (p : Phase) (s : State) : (advance p s).lastblk = s.lastblk := by unfold advance; split <;> rfl
@[simp] theorem advance_halt (p : Phase) (s : State) : (advance p s).halt = s.halt := by unfold advance; split <;> rfl
@[simp] theorem advance_phase (p : Phase) (s : State) : (advance p s).phase = if s.t.toNat = 63 then p else s.phase := by unfold advance; split <;> rfl
@[simp] theorem advance_t (p : Phase) (s : State) : (advance p s).t = if s.t.toNat = 63 then 0 else s.t + 1 := by unfold advance; split <;> rfl
@[simp] theorem advance_cfg (p : Phase) (s : State) : (advance p s).cfg = s.cfg := by unfold advance; split <;> rfl
@[simp] theorem advance_err (p : Phase) (s : State) : (advance p s).err = s.err := by unfold advance; split <;> rfl
@[simp] theorem advance_rspRdata (p : Phase) (s : State) : (advance p s).rspRdata = s.rspRdata := by unfold advance; split <;> rfl
@[simp] theorem advance_rspErr (p : Phase) (s : State) : (advance p s).rspErr = s.rspErr := by unfold advance; split <;> rfl
@[simp] theorem advance_inputs (p : Phase) (s : State) : (advance p s).inputs = s.inputs := by unfold advance; split <;> rfl
@[simp] theorem advance_draws (p : Phase) (s : State) : (advance p s).draws = s.draws := by unfold advance; split <;> rfl

/-! ### Updates that change nothing, and reads that see only some fields -/

@[simp] theorem noteDraw_false (s : State) : noteDraw false s = s := rfl

@[simp] theorem engineEnabled_quiet (s : State) : engineEnabled (quiet s) = engineEnabled s := rfl

@[simp] theorem engineEnabled_takePins (s : State) : engineEnabled (takePins s) = engineEnabled s := rfl

@[simp] theorem selected_quiet (p : Phase) (s : State) : selected p (quiet s) = selected p s := rfl

theorem selected_iff (p : Phase) (s : State) : selected p s = true ↔ s.phase = p ∧ s.halt = false := by
  simp [selected]

theorem engineEnabled_iff (s : State) : engineEnabled s = true ↔ busy s.phase = true ∧ s.halt = false := by
  simp [engineEnabled]

theorem phaseOfCode_phaseCode (p : Phase) : phaseOfCode (phaseCode p) = p := by cases p <;> decide

theorem phaseCode_phaseOfCode (c : BitVec 3) : phaseCode (phaseOfCode c) = c := by revert c; decide

end Sys2Proof.Machine
end

