-- ==== Sys2Proof/Laws/Exec.lean ====
section
/-! SUPPORT. Everything an instruction can do when it answers a next state, said once for each instruction that can do
more than one thing; the others answer the one state their definition shows. -/

namespace Sys2Proof.Machine

open Host (Outcome)

/-- An accepted `FINAL`, or `E_SEQ`. -/
theorem execFinal_cases {s t : State} (h : execFinal s = .next t) :
    (s.phase ≠ .accept ∧ t = raiseErr .eSeq s) ∨
    (s.phase = .accept ∧ t = respond 0 { s with fin := true, phase := .pad1 }) := by
  unfold execFinal at h
  split at h <;> rename_i hp <;> cases h
  · exact .inl ⟨hp, rfl⟩
  · exact .inr ⟨not_not.1 hp, rfl⟩

/-- An accepted `CONT`, or `E_SEQ`. -/
theorem execCont_cases {s t : State} (h : execCont s = .next t) :
    (s.halt = false ∧ t = raiseErr .eSeq s) ∨ (s.halt = true ∧ t = respond 0 { s with halt := false }) := by
  unfold execCont at h
  split at h <;> rename_i hp <;> cases h
  · exact .inl ⟨hp, rfl⟩
  · exact .inr ⟨by simpa using hp, rfl⟩

/-- What an accepted `PUSH` leaves (R108). -/
def pushed (b : Byte) (s : State) : State :=
  respond 0
    { s with
      buf := Memory.write s.fill.toNat b s.buf
      nbytes := s.nbytes + 1
      fill := s.fill + 1
      phase := if s.fill.toNat = 63 then .sched else .accept
      t := if s.fill.toNat = 63 then 0 else s.t }

/-- `E_SEQ`, `E_TOOLONG`, or an accepted byte. -/
theorem execPush_cases {b : Byte} {s t : State} (h : execPush b s = .next t) :
    (s.phase ≠ .accept ∧ t = raiseErr .eSeq s) ∨
    (s.phase = .accept ∧ lengthFull s = true ∧ t = raiseErr .eTooLong s) ∨
    (s.phase = .accept ∧ lengthFull s = false ∧ s.fill.toNat ≤ 63 ∧ t = pushed b s) := by
  unfold execPush at h
  split at h <;> rename_i hp
  · cases h; exact .inl ⟨hp, rfl⟩
  · split at h <;> rename_i hl
    · cases h; exact .inr (.inl ⟨not_not.1 hp, hl, rfl⟩)
    · split at h <;> cases h
      exact .inr (.inr ⟨not_not.1 hp, by simpa using hl, by omega, rfl⟩)

/-- What `uPAD1` leaves (R110). -/
def padded1 (s : State) : State :=
  startBlock (Memory.writeAll s.fill.toNat (padTail s.fill.toNat (messageBits s)) s.buf) (decide (s.fill.toNat ≤ 55)) s

theorem execUPad1_cases {s t : State} (h : execUPad1 s = .next t) :
    s.phase = .pad1 ∧ s.halt = false ∧ s.fill.toNat ≤ 63 ∧ t = padded1 s := by
  unfold execUPad1 at h
  split at h
  · split at h <;> cases h
    obtain ⟨h1, h2⟩ := (selected_iff _ _).1 ‹_›
    exact ⟨h1, h2, by omega, rfl⟩
  · cases h

theorem execUPad2_cases {s t : State} (h : execUPad2 s = .next t) :
    s.phase = .pad2 ∧ s.halt = false ∧
      t = startBlock (Memory.writeAll 0 (padBlock (messageBits s)) s.buf) true s := by
  unfold execUPad2 at h
  split at h <;> cases h
  obtain ⟨h1, h2⟩ := (selected_iff _ _).1 ‹_›
  exact ⟨h1, h2, rfl⟩

theorem execUSched_cases {s t : State} (h : execUSched s = .next t) :
    s.phase = .sched ∧ s.halt = false ∧
      t = holdIfStep (noteDraw (nextSchedUnwritten s s.t.toNat) (advance .load
        { s with w := Memory.write s.t.toNat (nextSchedWord s s.t.toNat) s.w })) := by
  unfold execUSched at h
  split at h <;> cases h
  obtain ⟨h1, h2⟩ := (selected_iff _ _).1 ‹_›
  exact ⟨h1, h2, rfl⟩

theorem execULoad_cases {s t : State} (h : execULoad s = .next t) :
    s.phase = .load ∧ s.halt = false ∧ t = holdIfStep { s with r := s.h, phase := .rounds, t := 0 } := by
  unfold execULoad at h
  split at h <;> cases h
  obtain ⟨h1, h2⟩ := (selected_iff _ _).1 ‹_›
  exact ⟨h1, h2, rfl⟩

theorem execURound_cases {s t : State} (h : execURound s = .next t) :
    s.phase = .rounds ∧ s.halt = false ∧
      t = holdIfStep (noteDraw (schedUnwritten s s.t.toNat) (advance .accum
        { s with r := compressRound (schedWord s s.t.toNat) (roundConstant s.t) s.r })) := by
  unfold execURound at h
  split at h <;> cases h
  obtain ⟨h1, h2⟩ := (selected_iff _ _).1 ‹_›
  exact ⟨h1, h2, rfl⟩

theorem execUAccum_cases {s t : State} (h : execUAccum s = .next t) :
    s.phase = .accum ∧ s.halt = false ∧
      t = holdIfStep { s with h := addWords s.h s.r, fill := 0, t := 0, phase := afterAccum s } := by
  unfold execUAccum at h
  split at h <;> cases h
  obtain ⟨h1, h2⟩ := (selected_iff _ _).1 ‹_›
  exact ⟨h1, h2, rfl⟩

/-! ### The instructions that write none of the engine's own fields -/

/-- Two states that agree on everything the invariant and the hashing relation look at: all of R20's list but `HALT`,
`CFG` and `ERR`. -/
structure SameData (s t : State) : Prop where
  h : t.h = s.h
  r : t.r = s.r
  w : t.w = s.w
  buf : t.buf = s.buf
  fill : t.fill = s.fill
  nbytes : t.nbytes = s.nbytes
  fin : t.fin = s.fin
  lastblk : t.lastblk = s.lastblk
  phase : t.phase = s.phase
  t : t.t = s.t

theorem SameData.refl (s : State) : SameData s s := ⟨rfl, rfl, rfl, rfl, rfl, rfl, rfl, rfl, rfl, rfl⟩

theorem sameData_raiseErr (x : ErrBit) (s : State) : SameData s (raiseErr x s) :=
  ⟨rfl, rfl, rfl, rfl, rfl, rfl, rfl, rfl, rfl, rfl⟩

theorem sameData_respond (v : Word) (s : State) : SameData s (respond v s) :=
  ⟨rfl, rfl, rfl, rfl, rfl, rfl, rfl, rfl, rfl, rfl⟩

theorem sameData_noteDraw_respond (d : Bool) (v : Word) (s : State) : SameData s (noteDraw d (respond v s)) := by
  cases d <;> exact ⟨rfl, rfl, rfl, rfl, rfl, rfl, rfl, rfl, rfl, rfl⟩

theorem SameData.inv {s t : State} (h : SameData s t) (hi : s.Inv) : t.Inv := by
  obtain ⟨h1, h2, h3, h4, h5, h6⟩ := hi
  refine ⟨by rw [h.buf]; exact h1, by rw [h.w]; exact h2, ?_, by rw [h.fin, h.lastblk]; exact h4,
    by rw [h.phase, h.fin, h.nbytes]; exact h5, by rw [h.phase, h.fin, h.lastblk, h.nbytes]; exact h6⟩
  simpa only [PhaseFacts, h.phase, h.fill, h.nbytes, h.t, h.fin, h.lastblk, h.buf, h.w] using h3

theorem SameData.hashing {s t : State} {m : List Byte} (h : SameData s t) (hm : Hashing m s) : Hashing m t := by
  obtain ⟨h1, h2, q, h3⟩ := hm
  refine ⟨h.inv h1, by rw [h.nbytes]; exact h2, q, ?_⟩
  simpa only [Progress, BlockInBuf, SchedulePrefix, BlockDone, h.h, h.r, h.w, h.buf, h.fill, h.nbytes, h.fin, h.lastblk, h.phase,
    h.t] using h3

/-- What a host transaction can do: nothing to the data; `INIT`; an accepted byte; an accepted `FINAL`. -/
theorem exec_transaction_cases {i : Instr} {s t : State} (hi : isMicroOp i = false) (h : exec i s = .next t) :
    SameData s t ∨
    (i = .init ∧ t = respond 0 (initMessage s)) ∨
    (∃ b, i = .push b ∧ s.phase = .accept ∧ lengthFull s = false ∧ s.fill.toNat ≤ 63 ∧ t = pushed b s) ∨
    (i = .final ∧ s.phase = .accept ∧ t = respond 0 { s with fin := true, phase := .pad1 }) := by
  cases i
  case push b =>
    rcases execPush_cases h with ⟨_, rfl⟩ | ⟨_, _, rfl⟩ | h'
    · exact .inl (sameData_raiseErr _ _)
    · exact .inl (sameData_raiseErr _ _)
    · exact .inr (.inr (.inl ⟨b, rfl, h'⟩))
  case final =>
    rcases execFinal_cases h with ⟨_, rfl⟩ | h'
    · exact .inl (sameData_raiseErr _ _)
    · exact .inr (.inr (.inr ⟨rfl, h'⟩))
  case cont =>
    rcases execCont_cases h with ⟨_, rfl⟩ | ⟨_, rfl⟩
    · exact .inl (sameData_raiseErr _ _)
    · exact .inl ⟨rfl, rfl, rfl, rfl, rfl, rfl, rfl, rfl, rfl, rfl⟩
  case init => cases h; exact .inr (.inl ⟨rfl, rfl⟩)
  case wrCfg v => cases h; exact .inl ⟨rfl, rfl, rfl, rfl, rfl, rfl, rfl, rfl, rfl, rfl⟩
  case rdBlk j => cases h; exact .inl (sameData_noteDraw_respond _ _ _)
  case rdW j => cases h; exact .inl (sameData_noteDraw_respond _ _ _)
  case uPad1 => cases hi
  case uPad2 => cases hi
  case uSched => cases hi
  case uLoad => cases hi
  case uRound => cases hi
  case uAccum => cases hi
  all_goals
    cases h
    first | exact .inl (sameData_respond _ _) | exact .inl (sameData_raiseErr _ _)

/-- A transaction word never decodes to a micro-operation (R84, R86, R90). -/
theorem isMicroOp_decodeBus (tw : BitVec 41) : isMicroOp (decodeBus tw) = false := by
  unfold decodeBus
  split
  · cases regOf (twAddr tw) <;> first | rfl | (simp only [decodeWrite, decodeCommand]; split_ifs <;> rfl)
  · cases regOf (twAddr tw) <;> rfl

end Sys2Proof.Machine
end

