-- ==== Sys2Proof/Laws/Functions.lean ====
section
/-! SUPPORT. Bit by bit: the rotation, the join of eight words, the mask of an error. -/

namespace Sys2Proof.Machine

/-- `rotr`, bit by bit (R10, R133). -/
theorem getLsbD_rotr (x : Word) {n i : Nat} (hn : n < 32) (hi : i < 32) :
    (rotr x n).getLsbD i = x.getLsbD ((i + n) % 32) := by
  unfold rotr
  simp only [BitVec.getLsbD_or, BitVec.getLsbD_ushiftRight, BitVec.getLsbD_shiftLeft]
  by_cases h : i + n < 32
  · rw [Nat.mod_eq_of_lt h]
    simp [hi, show i < 32 - n by omega, Nat.add_comm]
  · rw [BitVec.getLsbD_of_ge x (n + i) (by omega), show (i + n) % 32 = i - (32 - n) by omega]
    simp [hi, show ¬ i < 32 - n by omega]

/-- The low part of a join of bits. -/
theorem extractLsb'_append_low {k n : Nat} (hi : BitVec k) (lo : BitVec n) : (hi ++ lo).extractLsb' 0 n = lo := by
  apply BitVec.eq_of_getLsbD_eq
  intro i h
  simp [h, BitVec.getLsbD_append]

theorem getLsbD_append_word_high {k : Nat} (x : BitVec k) (y : Word) (n : Nat) :
    (x ++ y).getLsbD (32 + n) = x.getLsbD n := by
  rw [BitVec.getLsbD_append, if_neg (by omega), Nat.add_sub_cancel_left]

theorem getLsbD_append_word_low {k : Nat} (x : BitVec k) (y : Word) {n : Nat} (hn : n < 32) :
    (x ++ y).getLsbD n = y.getLsbD n := by
  rw [BitVec.getLsbD_append, if_pos hn]

/-- Word `i` of the join `H[0] || ... || H[7]`, bit by bit (R158). -/
theorem getLsbD_joinWords_word (v : Words8) (i : BitVec 3) {n : Nat} (hn : n < 32) :
    (joinWords v).getLsbD (224 - 32 * i.toNat + n) = (wordAt v i).getLsbD n := by
  unfold joinWords wordAt
  match i.toNat, i.isLt with
  | 0, _ =>
    rw [show 224 - 32 * 0 + n = 32 + (32 + (32 + (32 + (32 + (32 + (32 + n)))))) by omega]
    iterate 7 rw [getLsbD_append_word_high]
    rfl
  | 1, _ =>
    rw [show 224 - 32 * 1 + n = 32 + (32 + (32 + (32 + (32 + (32 + n))))) by omega]
    iterate 6 rw [getLsbD_append_word_high]
    rw [getLsbD_append_word_low _ _ hn]
    rfl
  | 2, _ =>
    rw [show 224 - 32 * 2 + n = 32 + (32 + (32 + (32 + (32 + n)))) by omega]
    iterate 5 rw [getLsbD_append_word_high]
    rw [getLsbD_append_word_low _ _ hn]
    rfl
  | 3, _ =>
    rw [show 224 - 32 * 3 + n = 32 + (32 + (32 + (32 + n))) by omega]
    iterate 4 rw [getLsbD_append_word_high]
    rw [getLsbD_append_word_low _ _ hn]
    rfl
  | 4, _ =>
    rw [show 224 - 32 * 4 + n = 32 + (32 + (32 + n)) by omega]
    iterate 3 rw [getLsbD_append_word_high]
    rw [getLsbD_append_word_low _ _ hn]
    rfl
  | 5, _ =>
    rw [show 224 - 32 * 5 + n = 32 + (32 + n) by omega]
    iterate 2 rw [getLsbD_append_word_high]
    rw [getLsbD_append_word_low _ _ hn]
    rfl
  | 6, _ =>
    rw [show 224 - 32 * 6 + n = 32 + n by omega, getLsbD_append_word_high, getLsbD_append_word_low _ _ hn]
    rfl
  | 7, _ => rw [show 224 - 32 * 7 + n = n by omega, getLsbD_append_word_low _ _ hn]; rfl

/-- The bit each error sets (R43, R213). -/
theorem getLsbD_errMask (x : ErrBit) (n : Nat) : (errMask x).getLsbD n = decide (n = errNumber x) := by
  match n with
  | 0 | 1 | 2 | 3 | 4 => cases x <;> decide
  | n + 5 => rw [BitVec.getLsbD_of_ge _ _ (by omega)]; cases x <;> simp [errNumber]

end Sys2Proof.Machine
end

