-- ==== Sys2Proof/Laws/Step.lean ====
section
/-! SUPPORT. Everything a step can do, said once, and the package by which a property every instruction keeps is kept by
every step. -/

namespace Sys2Proof.Machine

open Host (Outcome)

/-- The engine's turn: nothing, or the selected micro-operation. -/
theorem engineTurn_cases {go : Bool} {s t : State} (h : engineTurn go s = .next t) :
    (t = s ∧ (go = false ∨ engineEnabled s = false)) ∨
    (go = true ∧ engineEnabled s = true ∧ engineStep s = .next t) := by
  unfold engineTurn at h
  split at h
  · rename_i hg
    simp only [Bool.and_eq_true] at hg
    exact .inr ⟨hg.1, hg.2, h⟩
  · rename_i hg
    cases h
    simp only [Bool.and_eq_true, not_and_or, Bool.not_eq_true] at hg
    exact .inl ⟨rfl, hg⟩

/-- The engine step is the micro-operation of the phase (R201). -/
theorem engineStep_cases {s t : State} (h : engineStep s = .next t) :
    (s.phase = .pad1 ∧ execUPad1 s = .next t) ∨ (s.phase = .sched ∧ execUSched s = .next t) ∨
    (s.phase = .load ∧ execULoad s = .next t) ∨ (s.phase = .rounds ∧ execURound s = .next t) ∨
    (s.phase = .accum ∧ execUAccum s = .next t) ∨ (s.phase = .pad2 ∧ execUPad2 s = .next t) := by
  unfold engineStep at h
  cases hp : s.phase <;> rw [hp] at h
  case accept => cases h
  case done => cases h
  case pad1 => exact .inl ⟨rfl, h⟩
  case sched => exact .inr (.inl ⟨rfl, h⟩)
  case load => exact .inr (.inr (.inl ⟨rfl, h⟩))
  case rounds => exact .inr (.inr (.inr (.inl ⟨rfl, h⟩)))
  case accum => exact .inr (.inr (.inr (.inr (.inl ⟨rfl, h⟩))))
  case pad2 => exact .inr (.inr (.inr (.inr (.inr ⟨rfl, h⟩))))

/-- The engine step performs the micro-operation the `PHASE` code decodes to (R90, R201). -/
theorem engineStep_eq {s : State} {i : Instr} (h : decodeMicroOp (phaseCode s.phase) = .ok i) :
    engineStep s = exec i s := by
  simp [engineStep, h]

/-- What a step can do, by the pins it sees: a reset; a transaction and then perhaps the engine; the engine alone or
nothing. -/
theorem step_cases {s t : State} (h : step s = .next t) :
    ((nextPins s).rst = true ∧ t = hardReset (takePins s)) ∨
    ((nextPins s).rst = false ∧ (nextPins s).reqValid = true ∧
      ∃ s', exec (decodeBus (pinsWord (nextPins s))) (takePins s) = .next s' ∧
        engineTurn ((nextPins s).engine && engineEnabled s) s' = .next t) ∨
    ((nextPins s).rst = false ∧ (nextPins s).reqValid = false ∧
      engineTurn (nextPins s).engine (quiet (takePins s)) = .next t) := by
  unfold step cycle at h
  by_cases hr : (nextPins s).rst = true
  · rw [if_pos hr] at h
    cases h
    exact .inl ⟨hr, rfl⟩
  · rw [if_neg hr] at h
    simp only [Bool.not_eq_true] at hr
    by_cases hv : (nextPins s).reqValid = true
    · rw [if_pos hv] at h
      simp only [hostStep, engineEnabled_takePins] at h
      split at h
      · rename_i s' hs'
        exact .inr (.inl ⟨hr, hv, s', hs', h⟩)
      · cases h
      · cases h
    · rw [if_neg hv] at h
      exact .inr (.inr ⟨hr, by simpa using hv, h⟩)

/-- The micro-operation of the engine's turn is an instruction like any other. -/
theorem engineStep_exec {s t : State} (h : engineStep s = .next t) :
    ∃ i, isMicroOp i = true ∧ exec i s = .next t := by
  rcases engineStep_cases h with ⟨_, h⟩ | ⟨_, h⟩ | ⟨_, h⟩ | ⟨_, h⟩ | ⟨_, h⟩ | ⟨_, h⟩
  · exact ⟨.uPad1, rfl, h⟩
  · exact ⟨.uSched, rfl, h⟩
  · exact ⟨.uLoad, rfl, h⟩
  · exact ⟨.uRound, rfl, h⟩
  · exact ⟨.uAccum, rfl, h⟩
  · exact ⟨.uPad2, rfl, h⟩

/-- What no turn of the engine writes (R201). -/
theorem engineTurn_keeps {go : Bool} {s t : State} (h : engineTurn go s = .next t) :
    t.err = s.err ∧ t.fin = s.fin ∧ t.nbytes = s.nbytes ∧ t.cfg = s.cfg ∧ t.rspRdata = s.rspRdata ∧
    t.rspErr = s.rspErr ∧ t.inputs = s.inputs := by
  rcases engineTurn_cases h with ⟨rfl, _⟩ | ⟨_, _, h⟩
  · exact ⟨rfl, rfl, rfl, rfl, rfl, rfl, rfl⟩
  · rcases engineStep_cases h with ⟨_, h⟩ | ⟨_, h⟩ | ⟨_, h⟩ | ⟨_, h⟩ | ⟨_, h⟩ | ⟨_, h⟩
    · obtain ⟨_, _, _, rfl⟩ := execUPad1_cases h; simp [padded1]
    · obtain ⟨_, _, rfl⟩ := execUSched_cases h; simp
    · obtain ⟨_, _, rfl⟩ := execULoad_cases h; exact ⟨rfl, rfl, rfl, rfl, rfl, rfl, rfl⟩
    · obtain ⟨_, _, rfl⟩ := execURound_cases h; simp
    · obtain ⟨_, _, rfl⟩ := execUAccum_cases h; exact ⟨rfl, rfl, rfl, rfl, rfl, rfl, rfl⟩
    · obtain ⟨_, _, rfl⟩ := execUPad2_cases h; simp

/-- An engine whose step is not enabled does nothing in its turn. -/
theorem engineTurn_of_not_enabled {go : Bool} {s t : State} (hs : engineEnabled s = false)
    (h : engineTurn go s = .next t) : t = s := by
  rcases engineTurn_cases h with ⟨rfl, _⟩ | ⟨_, hs', _⟩
  · rfl
  · rw [hs] at hs'; cases hs'

/-- A property that taking a sample, a quiet response, reset and every instruction keep is kept by every step. -/
theorem step_preserves {P : State → Prop} (htake : ∀ s, P s → P (takePins s)) (hquiet : ∀ s, P s → P (quiet s))
    (hreset : ∀ s, P s → P (hardReset s)) (hexec : ∀ i s t, P s → exec i s = .next t → P t)
    {s t : State} (hs : P s) (h : step s = .next t) : P t := by
  have hturn : ∀ {go : Bool} {u v : State}, P u → engineTurn go u = .next v → P v := fun hu hv => by
    rcases engineTurn_cases hv with ⟨rfl, _⟩ | ⟨_, _, hv⟩
    · exact hu
    · obtain ⟨i, _, hi⟩ := engineStep_exec hv
      exact hexec i _ _ hu hi
  rcases step_cases h with ⟨_, rfl⟩ | ⟨_, _, s', h1, h2⟩ | ⟨_, _, h1⟩
  · exact hreset _ (htake _ hs)
  · exact hturn (hexec _ _ _ (htake _ hs) h1) h2
  · exact hturn (hquiet _ (htake _ hs)) h1

end Sys2Proof.Machine
end

