-- ==== Sys2Proof/Laws/Invariant.lean ====
section
/-! SUPPORT. What the invariant gives, and what writing a memory does to the locations already written. -/

namespace Sys2Proof.Machine

theorem WrittenBelow.mono {α : Type} {n k : Nat} {m : List (Nat × α)} (h : WrittenBelow n m) (hk : k ≤ n) :
    WrittenBelow k m :=
  fun j hj => h j (by omega)

/-- Writing the first unwritten location extends what is written by one. -/
theorem WrittenBelow.write_next {α : Type} {n : Nat} {m : List (Nat × α)} (h : WrittenBelow n m) (v : α) :
    WrittenBelow (n + 1) (Memory.write n v m) := by
  intro k hk
  rw [Memory.read?_write]
  split
  · rfl
  · exact h k (by omega)

/-- A run of writes from there on extends it by the length of the run. -/
theorem WrittenBelow.writeAll_next {α : Type} {n : Nat} {m : List (Nat × α)} (h : WrittenBelow n m) (vs : List α) :
    WrittenBelow (n + vs.length) (Memory.writeAll n vs m) := by
  intro k hk
  rw [Memory.read?_writeAll]
  split
  · rw [List.getElem?_eq_getElem (by omega)]; rfl
  · exact h k (by omega)

/-- `FILL <= 63` wherever a byte of `BUF` is about to be written (R34). -/
theorem State.Inv.fill_le {s : State} (h : s.Inv) (hp : s.phase = .accept ∨ s.phase = .pad1) : s.fill.toNat ≤ 63 := by
  have hf := h.phaseFacts
  unfold PhaseFacts at hf
  rcases hp with hp | hp <;> rw [hp] at hf <;> exact hf.1

/-- Under the invariant `uSCHED` reads no unspecified location (R135). -/
theorem nextSchedUnwritten_of_inv {s : State} (h : s.Inv) (hp : s.phase = .sched) :
    nextSchedUnwritten s s.t.toNat = false := by
  have hf := h.phaseFacts
  unfold PhaseFacts at hf
  rw [hp] at hf
  have := s.t.isLt
  unfold nextSchedUnwritten
  split
  · exact blkUnwritten_of_written fun k hk => hf.2.1 _ (by omega)
  · have key : ∀ k, 0 < k → k ≤ 16 → schedUnwritten s (s.t.toNat - k) = false :=
      fun k h0 hk => schedUnwritten_of_written (hf.2.2 _ (by omega))
    simp only [key 2 (by omega) (by omega), key 7 (by omega) (by omega), key 15 (by omega) (by omega),
      key 16 (by omega) (by omega), Bool.or_self]

/-- Under the invariant `uROUND` reads no unspecified location (R147). -/
theorem schedUnwritten_of_inv {s : State} (h : s.Inv) (hp : s.phase = .rounds) :
    schedUnwritten s s.t.toNat = false := by
  have hf := h.phaseFacts
  unfold PhaseFacts at hf
  rw [hp] at hf
  exact schedUnwritten_of_written (hf.2.2 _ s.t.isLt)

end Sys2Proof.Machine
end

