-- ==== Sys2Proof/Laws/PerInstr.lean ====
section
/-! SUPPORT. For every instruction: its canonical encoding matches exactly one row of the opcode table, its own (R84,
R86, R90). -/

namespace Sys2Proof.Laws.TableRow

/-- The encoding of `i` matches the row of its mnemonic and no other. -/
def Statement (i : Instr) : Prop := matchingRows (encode i) = [mnemonic i]

theorem rdId : Statement .rdId := by unfold Statement; decide

theorem rdCfg : Statement .rdCfg := by unfold Statement; decide

theorem wrCfg (v : BitVec 3) : Statement (.wrCfg v) := by revert v; unfold Statement; decide

theorem nop : Statement .nop := by unfold Statement; decide

theorem init : Statement .init := by unfold Statement; decide

theorem final : Statement .final := by unfold Statement; decide

theorem cont : Statement .cont := by unfold Statement; decide

theorem rdStatus : Statement .rdStatus := by unfold Statement; decide

theorem rdErr : Statement .rdErr := by unfold Statement; decide

theorem push (b : Byte) : Statement (.push b) := by revert b; unfold Statement; decide +kernel

theorem rdLenLo : Statement .rdLenLo := by unfold Statement; decide

theorem rdLenHi : Statement .rdLenHi := by unfold Statement; decide

theorem rdH (i : BitVec 3) : Statement (.rdH i) := by revert i; unfold Statement; decide

theorem rdR (i : BitVec 3) : Statement (.rdR i) := by revert i; unfold Statement; decide

theorem rdBlk (j : BitVec 4) : Statement (.rdBlk j) := by revert j; unfold Statement; decide

theorem rdW (t : BitVec 6) : Statement (.rdW t) := by revert t; unfold Statement; decide +kernel

theorem rdK (t : BitVec 6) : Statement (.rdK t) := by revert t; unfold Statement; decide +kernel

theorem rdIv (i : BitVec 3) : Statement (.rdIv i) := by revert i; unfold Statement; decide

theorem illAddr18 : Statement .illAddr18 := by unfold Statement; decide

theorem illAddr30 : Statement .illAddr30 := by unfold Statement; decide

theorem illAddrC8 : Statement .illAddrC8 := by unfold Statement; decide

theorem illAddrD0 : Statement .illAddrD0 := by unfold Statement; decide

theorem illAddrE0 : Statement .illAddrE0 := by unfold Statement; decide

theorem illAccessWrId : Statement .illAccessWrId := by unfold Statement; decide

theorem illAccessRdCtrl : Statement .illAccessRdCtrl := by unfold Statement; decide

theorem illAccessWrStatus : Statement .illAccessWrStatus := by unfold Statement; decide

theorem illAccessWrErr : Statement .illAccessWrErr := by unfold Statement; decide

theorem illAccessRdDin : Statement .illAccessRdDin := by unfold Statement; decide

theorem illAccessWrLen : Statement .illAccessWrLen := by unfold Statement; decide

theorem illAccessWrH : Statement .illAccessWrH := by unfold Statement; decide

theorem illAccessWrR : Statement .illAccessWrR := by unfold Statement; decide

theorem illAccessWrBlk : Statement .illAccessWrBlk := by unfold Statement; decide

theorem illAccessWrW : Statement .illAccessWrW := by unfold Statement; decide

theorem illAccessWrK : Statement .illAccessWrK := by unfold Statement; decide

theorem illAccessWrIv : Statement .illAccessWrIv := by unfold Statement; decide

theorem illCmd : Statement .illCmd := by unfold Statement; decide

theorem uPad1 : Statement .uPad1 := by unfold Statement; decide

theorem uSched : Statement .uSched := by unfold Statement; decide

theorem uLoad : Statement .uLoad := by unfold Statement; decide

theorem uRound : Statement .uRound := by unfold Statement; decide

theorem uAccum : Statement .uAccum := by unfold Statement; decide

theorem uPad2 : Statement .uPad2 := by unfold Statement; decide

end Sys2Proof.Laws.TableRow
end

