-- ==== Sys2Proof/Laws/Protocol.lean ====
section
/-! SUPPORT. What a step of the host and the engine together can do, and runs of them. -/

namespace Sys2Proof.Machine

open Host (Outcome)

@[simp] theorem turnPins_rst (request : Option Instr) (go : Bool) : (turnPins request go).rst = false := by
  cases request with
  | none => rfl
  | some i => simp only [turnPins, pinsFor]; split <;> rfl

@[simp] theorem turnPins_engine (request : Option Instr) (go : Bool) : (turnPins request go).engine = go := by
  cases request <;> rfl

@[simp] theorem turnPins_none_reqValid (go : Bool) : (turnPins none go).reqValid = false := rfl

/-- A transaction stands on the pins as its encoding. -/
theorem turnPins_some {i : Instr} {tw : BitVec 41} (h : encode i = .transaction tw) (go : Bool) :
    (turnPins (some i) go).reqValid = true ∧ pinsWord (turnPins (some i) go) = transactionWord (twWe tw) (twAddr tw) (twWdata tw) := by
  simp [turnPins, pinsFor, h, hostPins, pinsWord]

/-- A step of both is a step of the engine on the turn's pins, and the host's reception where it proceeds. -/
theorem benchStep_cases {plan : HostPlan} {m : List Byte} {turn : Turn} {b b' : Bench}
    (h : benchStep plan m turn b = .next b') :
    step { b.engine with inputs := [turnPins (turnRequest turn.host b.host) turn.engine] } = .next b'.engine ∧
    b'.host = match turn.host with
      | .proceed => hostReceive plan m b'.engine.rspRdata (irq b'.engine) b.host
      | _ => b.host := by
  unfold benchStep at h
  split at h
  · rename_i s hs
    cases h
    exact ⟨hs, rfl⟩
  · cases h
  · cases h

/-- Where the engine's step answers, so does the step of both. -/
theorem benchStep_next {plan : HostPlan} {m : List Byte} {turn : Turn} {b : Bench} {s : State}
    (h : step { b.engine with inputs := [turnPins (turnRequest turn.host b.host) turn.engine] } = .next s) :
    ∃ b', benchStep plan m turn b = .next b' := by
  unfold benchStep
  rw [h]
  exact ⟨_, rfl⟩

/-- A turn without a transaction: the engine alone, or nothing. -/
theorem benchStep_silent {plan : HostPlan} {m : List Byte} {turn : Turn} {b b' : Bench}
    (h : benchStep plan m turn b = .next b') (hr : turnRequest turn.host b.host = none) :
    engineTurn turn.engine (quiet { b.engine with inputs := [] }) = .next b'.engine := by
  have h1 := (benchStep_cases h).1
  rw [hr] at h1
  rcases step_cases h1 with ⟨h2, _⟩ | ⟨_, h2, _⟩ | ⟨_, _, h2⟩
  · exact absurd h2 (by simp [nextPins])
  · exact absurd h2 (by simp [nextPins])
  · exact h2

/-- A turn with a transaction: it is performed, and then the engine has its turn (R77). -/
theorem benchStep_transaction {plan : HostPlan} {m : List Byte} {turn : Turn} {b b' : Bench} {i : Instr} {tw : BitVec 41}
    (h : benchStep plan m turn b = .next b') (hr : turnRequest turn.host b.host = some i) (he : encode i = .transaction tw) :
    ∃ s, exec (decodeBus (transactionWord (twWe tw) (twAddr tw) (twWdata tw))) { b.engine with inputs := [] } = .next s ∧
      engineTurn (turn.engine && engineEnabled b.engine) s = .next b'.engine := by
  have h1 := (benchStep_cases h).1
  have hp := turnPins_some he turn.engine
  rw [hr] at h1
  rcases step_cases h1 with ⟨h2, _⟩ | ⟨_, _, s, h3, h4⟩ | ⟨_, h2, _⟩
  · exact absurd h2 (by simp [nextPins])
  · have h5 : engineTurn ((turnPins (some i) turn.engine).engine && engineEnabled b.engine) s = .next b'.engine := h4
    exact ⟨s, by rw [← hp.2]; exact h3, by rwa [turnPins_engine] at h5⟩
  · exact absurd h2 (by simp [nextPins, hp.1])

/-- A property every step of both keeps, each of which answers, holds at the end of every run. -/
theorem benchRun_preserves {plan : HostPlan} {m : List Byte} {P : Bench → Prop} {Q : Turn → Prop}
    (hstep : ∀ turn b, Q turn → P b → ∃ b', benchStep plan m turn b = .next b' ∧ P b') {turns : List Turn} :
    ∀ {b : Bench}, (∀ turn ∈ turns, Q turn) → P b → ∃ b', benchRun plan m turns b = .next b' ∧ P b' := by
  induction turns with
  | nil => intro b _ hb; exact ⟨b, rfl, hb⟩
  | cons turn turns ih =>
    intro b hq hb
    obtain ⟨b', h1, h2⟩ := hstep turn b (hq turn (by simp)) hb
    obtain ⟨b'', h3, h4⟩ := ih (fun t ht => hq t (by simp [ht])) h2
    exact ⟨b'', by simpa only [benchRun, h1] using h3, h4⟩

end Sys2Proof.Machine
end

