-- ==== Sys2Proof/Laws/Reference.lean ====
section
/-! SUPPORT. The pure functions step by step: messages as bit strings and back, the schedule and the rounds as they
grow, and that bytes appended to a stream change no block before them. -/

namespace Sys2Proof.Machine

/-! ### Messages as bit strings (R101) -/

@[simp] theorem length_bitsOfByte (b : Byte) : (bitsOfByte b).length = 8 := rfl

@[simp] theorem messageBitString_nil : messageBitString [] = [] := rfl

@[simp] theorem messageBitString_cons (b : Byte) (m : List Byte) :
    messageBitString (b :: m) = bitsOfByte b ++ messageBitString m := rfl

@[simp] theorem messageBitString_append (m n : List Byte) :
    messageBitString (m ++ n) = messageBitString m ++ messageBitString n := List.flatMap_append

@[simp] theorem length_messageBitString (m : List Byte) : (messageBitString m).length = 8 * m.length := by
  induction m with
  | nil => rfl
  | cons b m ih => simp [ih]; omega

theorem messageBitString_replicate (n : Nat) :
    messageBitString (List.replicate n 0) = List.replicate (8 * n) false := by
  induction n with
  | zero => rfl
  | succ n ih =>
    rw [List.replicate_succ, messageBitString_cons, ih, show 8 * (n + 1) = 8 + 8 * n by omega, List.replicate_add]
    rfl

theorem drop_messageBitString (k : Nat) (m : List Byte) :
    (messageBitString m).drop (8 * k) = messageBitString (m.drop k) := by
  induction k generalizing m with
  | zero => rfl
  | succ k ih =>
    cases m with
    | nil => simp
    | cons b m => rw [show 8 * (k + 1) = 8 * k + 8 by omega, List.drop_succ_cons, ← ih]; rfl

theorem take_messageBitString (k : Nat) (m : List Byte) :
    (messageBitString m).take (8 * k) = messageBitString (m.take k) := by
  induction k generalizing m with
  | zero => rfl
  | succ k ih =>
    cases m with
    | nil => simp
    | cons b m =>
      rw [show 8 * (k + 1) = 8 * k + 8 by omega, List.take_succ_cons]
      exact congrArg (bitsOfByte b ++ ·) (ih m)

/-! ### And back (R109) -/

/-- A byte is read back from its bits. -/
theorem byteOfBits_bitsOfByte (b : Byte) : byteOfBits (bitsOfByte b) = b := by
  apply BitVec.eq_of_getLsbD_eq
  intro i hi
  unfold byteOfBits bitsOfByte
  dsimp only
  iterate 7 rw [BitVec.getLsbD_append]
  simp only [BitVec.getLsbD_ofBool]
  match i, hi with
  | 0, _ | 1, _ | 2, _ | 3, _ | 4, _ | 5, _ | 6, _ | 7, _ => rfl

@[simp] theorem bytesOfBits_nil : bytesOfBits [] = [] := rfl

/-- A message is read back from its bits. -/
theorem bytesOfBits_messageBitString (m : List Byte) (rest : List Bool) :
    bytesOfBits (messageBitString m ++ rest) = m ++ bytesOfBits rest := by
  induction m with
  | nil => rfl
  | cons b m ih =>
    rw [messageBitString_cons, List.append_assoc]
    show byteOfBits (bitsOfByte b) :: bytesOfBits (messageBitString m ++ rest) = _
    rw [byteOfBits_bitsOfByte, ih]; rfl

/-! ### The length field and the zero count (R102, R106) -/

/-- The 64 bits of the length are its eight bytes, most significant first (R106). -/
theorem len64_eq (n : Nat) : len64 n = messageBitString (be64 (BitVec.ofNat 64 n)) := by
  unfold len64
  generalize BitVec.ofNat 64 n = v
  have bits : ∀ k : Nat, bitsOfByte (v.extractLsb' k 8) = (List.range 8).map (fun i => v.getLsbD (k + 7 - i)) :=
    fun k => by simp [bitsOfByte, List.range_succ]
  have cut : List.range 64 = (List.range 8).flatMap (fun j => (List.range 8).map (8 * j + ·)) := rfl
  rw [cut, List.map_flatMap]
  simp only [messageBitString, be64, List.flatMap_cons, List.flatMap_nil, bits]
  rfl

/-- The zero count of a message of `n` bytes: the seven zeros of `0x80` and whole zero bytes (R106). -/
theorem zeroCount_bytes (n : Nat) : zeroCount (8 * n) = 7 + 8 * ((119 - n % 64) % 64) := by
  unfold zeroCount
  omega

/-! ### The schedule and the rounds as they grow (R134, R137, R145) -/

@[simp] theorem length_scheduleUpTo (b : List Byte) (n : Nat) : (scheduleUpTo b n).length = n := by
  induction n with
  | zero => rfl
  | succ n ih => simp [scheduleUpTo, ih]

/-- Word `i` of the schedule is computed from the words before it. -/
theorem scheduleUpTo_getElem? (b : List Byte) {i n : Nat} (h : i < n) :
    (scheduleUpTo b n)[i]? = some (scheduleNext b (scheduleUpTo b i) i) := by
  induction n with
  | zero => omega
  | succ n ih =>
    rw [scheduleUpTo, List.getElem?_append, length_scheduleUpTo]
    by_cases hi : i < n
    · rw [if_pos hi, ih hi]
    · obtain rfl : i = n := by omega
      simp

theorem schedule_getElem? (b : List Byte) {i : Nat} (h : i < 64) :
    (schedule b)[i]? = some (scheduleNext b (scheduleUpTo b i) i) :=
  scheduleUpTo_getElem? b h

/-- A prefix of the schedule agrees with the whole. -/
theorem scheduleUpTo_getD (b : List Byte) {i n : Nat} (h : i < n) (hn : n ≤ 64) :
    (scheduleUpTo b n).getD i 0 = (schedule b).getD i 0 := by
  rw [List.getD_eq_getElem?_getD, List.getD_eq_getElem?_getD, scheduleUpTo_getElem? b h, schedule_getElem? b (by omega)]

/-! ### Blocks of a stream of bytes -/

theorem byteBlock_getD {q j : Nat} {m : List Byte} (hj : j < 64) :
    (byteBlock q m).getD j 0 = (m[64 * q + j]?).getD 0 := by
  unfold byteBlock
  rw [List.getD_eq_getElem?_getD, List.getElem?_take, if_pos hj, List.getElem?_drop]

theorem byteBlock_append {q : Nat} {m : List Byte} (h : 64 * (q + 1) ≤ m.length) (l : List Byte) :
    byteBlock q (m ++ l) = byteBlock q m := by
  unfold byteBlock
  rw [List.drop_append_of_le_length (by omega), List.take_append_of_le_length (by simp; omega)]

/-- Bytes appended to a stream change no hash state before them (R113). -/
theorem hashAfter_append {q : Nat} {m : List Byte} (h : 64 * q ≤ m.length) (l : List Byte) :
    hashAfter (m ++ l) q = hashAfter m q := by
  induction q with
  | zero => rfl
  | succ q ih => rw [hashAfter, hashAfter, ih (by omega), byteBlock_append h]

/-- The fold of R160 over the blocks of a stream of bytes. -/
theorem foldl_byteBlocks (bs : List Byte) (n : Nat) :
    ((List.range n).map (fun q => messageBitString (byteBlock q bs))).foldl
      (fun st b => compress st (schedule (bytesOfBits b))) initialValue = hashAfter bs n := by
  induction n with
  | zero => rfl
  | succ n ih =>
    rw [List.range_succ, List.map_append, List.foldl_append, ih]
    have := bytesOfBits_messageBitString (byteBlock n bs) []
    rw [List.append_nil, bytesOfBits_nil, List.append_nil] at this
    simp only [List.map_cons, List.map_nil, List.foldl_cons, List.foldl_nil, hashAfter, this]

end Sys2Proof.Machine
end

