-- ==== Sys2Proof/Tests/Slice0.lean ====
section
/-! SUPPORT. The model's own tests: the checks of WellFormed, words written out from the encoding rules, one step of
each instruction against spec/95_test_vectors.md (its section is named beside each), and for every statement with
hypotheses a state and operands that meet them. -/

namespace Sys2Proof.Tests

open Sys2Proof Sys2Proof.Machine
open Host (Outcome)

/-! ### WellFormed: each check refuses an ill-formed term -/

theorem test_wellFormed_transactionWord :
    WellFormed.transactionWord 0x1ffffffffff = true ∧ WellFormed.transactionWord 0x20000000000 = false := by decide

theorem test_wellFormed_microOpCode :
    WellFormed.microOpCode 0 = false ∧ WellFormed.microOpCode 1 = true ∧ WellFormed.microOpCode 6 = true ∧
    WellFormed.microOpCode 7 = false := by decide

theorem test_wellFormed_message (m : List Byte) (h : m.length = 2 ^ 61) :
    WellFormed.message [] = true ∧ WellFormed.message m = false := by
  simp [WellFormed.message, h]

theorem test_decode_rejects_by_name :
    decodeBits 48 0x20000000000 = .error .bitAboveWord ∧ decodeBits 8 8 = .error .bitAboveWord ∧
    decodeBits 8 0 = .error .noMicroOperation ∧ decodeBits 8 7 = .error .noMicroOperation := by decide

/-! ### Decoding: words written out bit by bit from R81 to R86 and R90 -/

/-- `PUSH 0x61`: `WE` 1, `ADDR` 00000101, `WDATA` 61 (the example of R81). -/
theorem test_decode_push_bits :
    decodeTableWord 48 0b1_00000101_00000000000000000000000001100001 = some (.push 0x61) := by decide

/-- `RD W63`: `WE` 0, `ADDR` 01_111111. -/
theorem test_decode_rdW_bits :
    decodeTableWord 48 0b0_01111111_00000000000000000000000000000000 = some (.rdW 63) := by decide

/-- `WR CTRL, 2`: `WE` 1, `ADDR` 00000010, `CMD` 010. -/
theorem test_decode_final_bits :
    decodeTableWord 48 0b1_00000010_00000000000000000000000000000010 = some .final := by decide

/-- `WR H4`: `WE` 1, `ADDR` 00001_100. -/
theorem test_decode_illAccessWrH_bits :
    decodeTableWord 48 0b1_00001100_00000000000000000000000000000000 = some .illAccessWrH := by decide

/-- The micro-operations, by the code of `PHASE` (R90). -/
theorem test_decode_microOps :
    decodeTableWord 8 0b001 = some .uPad1 ∧ decodeTableWord 8 0b010 = some .uSched ∧
    decodeTableWord 8 0b011 = some .uLoad ∧ decodeTableWord 8 0b100 = some .uRound ∧
    decodeTableWord 8 0b101 = some .uAccum ∧ decodeTableWord 8 0b110 = some .uPad2 := by decide

/-- The single registers (95 §4.1, §4.2). -/
theorem test_decode_registers :
    decodeTableWord 48 0x00000000000 = some .rdId ∧ decodeTableWord 48 0x00100000000 = some .rdCfg ∧
    decodeTableWord 48 0x101ffffffff = some (.wrCfg 7) ∧ decodeTableWord 48 0x00300000000 = some .rdStatus ∧
    decodeTableWord 48 0x00400000000 = some .rdErr ∧ decodeTableWord 48 0x00600000000 = some .rdLenLo ∧
    decodeTableWord 48 0x00700000000 = some .rdLenHi := by decide

/-- The register files, first and last element (95 §4.1). -/
theorem test_decode_files :
    decodeTableWord 48 0x00800000000 = some (.rdH 0) ∧ decodeTableWord 48 0x00f00000000 = some (.rdH 7) ∧
    decodeTableWord 48 0x01000000000 = some (.rdR 0) ∧ decodeTableWord 48 0x01700000000 = some (.rdR 7) ∧
    decodeTableWord 48 0x02000000000 = some (.rdBlk 0) ∧ decodeTableWord 48 0x02f00000000 = some (.rdBlk 15) ∧
    decodeTableWord 48 0x04000000000 = some (.rdW 0) ∧ decodeTableWord 48 0x08000000000 = some (.rdK 0) ∧
    decodeTableWord 48 0x0bf00000000 = some (.rdK 63) ∧ decodeTableWord 48 0x0c000000000 = some (.rdIv 0) ∧
    decodeTableWord 48 0x0c700000000 = some (.rdIv 7) := by decide

/-- The commands, and bits the decoder ignores (95 §2.4, §4.2, §4.3). -/
theorem test_decode_commands :
    decodeTableWord 48 0x10200000000 = some .nop ∧ decodeTableWord 48 0x102fffffff8 = some .nop ∧
    decodeTableWord 48 0x10200000001 = some .init ∧ decodeTableWord 48 0x10200000003 = some .cont ∧
    decodeTableWord 48 0x10200000004 = some .illCmd ∧ decodeTableWord 48 0x102ffffffff = some .illCmd ∧
    decodeTableWord 48 0x105ffffff80 = some (.push 0x80) := by decide

/-- The unmapped ranges at their ends (95 §4.3). -/
theorem test_decode_unmapped :
    decodeTableWord 48 0x01800000000 = some .illAddr18 ∧ decodeTableWord 48 0x11f00000000 = some .illAddr18 ∧
    decodeTableWord 48 0x03000000000 = some .illAddr30 ∧ decodeTableWord 48 0x03f00000000 = some .illAddr30 ∧
    decodeTableWord 48 0x1c800000005 = some .illAddrC8 ∧ decodeTableWord 48 0x0d000000000 = some .illAddrD0 ∧
    decodeTableWord 48 0x0e000000000 = some .illAddrE0 ∧ decodeTableWord 48 0x0ff00000000 = some .illAddrE0 := by
  decide

/-- The wrong kind of access (95 §4.3; R86). -/
theorem test_decode_wrong_access :
    decodeTableWord 48 0x10000001234 = some .illAccessWrId ∧ decodeTableWord 48 0x00200000004 = some .illAccessRdCtrl ∧
    decodeTableWord 48 0x10300000000 = some .illAccessWrStatus ∧ decodeTableWord 48 0x10400000000 = some .illAccessWrErr ∧
    decodeTableWord 48 0x00500000000 = some .illAccessRdDin ∧ decodeTableWord 48 0x10700000000 = some .illAccessWrLen ∧
    decodeTableWord 48 0x11700000000 = some .illAccessWrR ∧ decodeTableWord 48 0x12f00000000 = some .illAccessWrBlk ∧
    decodeTableWord 48 0x17f00000000 = some .illAccessWrW ∧ decodeTableWord 48 0x18000000000 = some .illAccessWrK ∧
    decodeTableWord 48 0x1c700000000 = some .illAccessWrIv := by decide

/-! ### One step of each instruction -/

/-- A value of the next state, where there is one. -/
def next? {α : Type} (f : State → α) : Outcome State Fault Refusal → Option α
  | .next t => some (f t)
  | _ => none

/-- The response of the transaction `w` in the state `s`, by way of `step`. -/
def reply (s : State) (w : Nat) : Option (Word × Bool) :=
  next? (fun t => (t.rspRdata, t.rspErr)) (step (s.withFetchWord 48 w))

/-- `STATUS` and `ERR` after the transaction `w` in the state `s`. -/
def statusAfter (s : State) (w : Nat) : Option (Word × BitVec 5) :=
  next? (fun t => (statusWord t, t.err)) (step (s.withFetchWord 48 w))

/-- The engine's step in the state `s`, by way of `step`. -/
def engineAlone (s : State) : Outcome State Fault Refusal := step { s with inputs := [enginePins] }

/-- 95 §4.1: reads straight after reset. -/
theorem test_reset_reads :
    reply State.reset 0x00000000000 = some (0x53323536, false) ∧ reply State.reset 0x00100000000 = some (0, false) ∧
    reply State.reset 0x00300000000 = some (0x00000001, false) ∧ reply State.reset 0x00400000000 = some (0, false) ∧
    reply State.reset 0x00600000000 = some (0, false) ∧ reply State.reset 0x00700000000 = some (0, false) := by decide

/-- 95 §4.1: the register files straight after reset. -/
theorem test_reset_files :
    reply State.reset 0x00800000000 = some (0x6a09e667, false) ∧ reply State.reset 0x00f00000000 = some (0x5be0cd19, false) ∧
    reply State.reset 0x01700000000 = some (0, false) ∧ reply State.reset 0x09000000000 = some (0xe49b69c1, false) ∧
    reply State.reset 0x0bf00000000 = some (0xc67178f2, false) ∧ reply State.reset 0x0c700000000 = some (0x5be0cd19, false) := by
  decide

/-- R15: a read of an unwritten location runs, is answered without error, and counts one draw. -/
theorem test_reset_unwritten_reads :
    next? (fun t => (t.rspErr, t.draws)) (step (State.reset.withFetchWord 48 0x02000000000)) = some (false, 1) ∧
    next? (fun t => (t.rspErr, t.draws)) (step (State.reset.withFetchWord 48 0x07f00000000)) = some (false, 1) := by decide

/-- 95 §4.2: `WR CFG, 0xffffffff` stores 7; it reads back as 7. -/
theorem test_wrCfg_and_rdCfg :
    next? (fun t => (t.cfg, t.rspRdata)) (step (State.reset.withFetchWord 48 0x101ffffffff)) = some (7, 0) ∧
    reply { State.reset with cfg := 7 } 0x00100000000 = some (7, false) := by decide

/-- 95 §4.2: `NOP` changes nothing. -/
theorem test_nop : next? id (step (State.reset.withFetchWord 48 0x102fffffff8)) = some State.reset := by decide

/-- 95 §2.4: the first byte. -/
theorem test_push_first :
    next? (fun t => (t.buf, t.fill, t.nbytes, statusWord t)) (step (State.reset.withFetchWord 48 0x105ffffff80)) =
      some ([(0, 0x80)], 1, 1, 0x01000001) := by decide

/-- The state of 95 §2.4 with 63 bytes pushed. -/
def pushed63 : State :=
  { State.reset with buf := Memory.writeAll 0 (List.replicate 63 0x61) [], fill := 63, nbytes := 63 }

/-- 95 §2.4: the 64th byte starts the schedule; a 65th, too early, is dropped with `E_SEQ`. -/
theorem test_push_last :
    statusAfter pushed63 0x10500000061 = some (0x40000202, 0) ∧
    statusAfter { pushed63 with fill := 64, nbytes := 64, phase := .sched } 0x10500000061 = some (0x40000282, 0x08) := by
  decide

/-- 95 §2.4: the length counter at its end. -/
theorem test_push_tooLong :
    statusAfter { State.reset with fill := 62, nbytes := 0x1ffffffffffffffe#61 } 0x105000000aa = some (0x3f000001, 0) ∧
    statusAfter { State.reset with fill := 63, nbytes := 0x1fffffffffffffff#61 } 0x105000000bb = some (0x3f000081, 0x10) := by
  decide

/-- 95 §2.4: `LEN_HI` and `LEN_LO` of the longest message. -/
theorem test_len_longest :
    reply { State.reset with nbytes := 0x1fffffffffffffff#61 } 0x00700000000 = some (0xffffffff, false) ∧
    reply { State.reset with nbytes := 0x1fffffffffffffff#61 } 0x00600000000 = some (0xfffffff8, false) := by decide

/-- 95 §4.3 rows 18 and 20, §2.4: `FINAL` accepted, and too early. -/
theorem test_final :
    statusAfter { State.reset with fill := 3, nbytes := 3 } 0x10200000002 = some (0x03000122, 0) ∧
    statusAfter { State.reset with fill := 64, nbytes := 64, phase := .sched } 0x10200000002 = some (0x40000282, 0x08) := by
  decide

/-- 95 §4.3 row 22: `INIT` in `DONE` with errors; it keeps `CFG`. -/
theorem test_init :
    next? (fun t => (statusWord t, t.err, t.h.w0, t.cfg))
      (step ({ State.reset with h := ⟨1, 2, 3, 4, 5, 6, 7, 8⟩, fin := true, lastblk := true, phase := .done, err := 0x0f,
                                cfg := 5 }.withFetchWord 48 0x10200000001)) =
      some (0x00000001, 0, 0x6a09e667, 5) := by decide

/-- 95 §4.4: `CONT` in `DONE` with `HALT = 1`, and once more. -/
theorem test_cont :
    statusAfter { State.reset with fin := true, lastblk := true, halt := true, phase := .done, cfg := 1 } 0x10200000003 =
      some (0x0000076c, 0) ∧
    statusAfter { State.reset with fin := true, lastblk := true, phase := .done, cfg := 1 } 0x10200000003 =
      some (0x000007e4, 0x08) := by decide

/-- 95 §4.3: the errors of the illegal transactions, and bits that stay set. -/
theorem test_illegal :
    statusAfter State.reset 0x01800000000 = some (0x00000081, 0x01) ∧
    statusAfter State.reset 0x10000001234 = some (0x00000081, 0x02) ∧
    statusAfter { State.reset with err := 0x03 } 0x10200000004 = some (0x00000081, 0x07) ∧
    reply { State.reset with err := 0x01 } 0x10800000000 = some (0, true) := by decide

/-- 95 §4.3, priority: one cause only, the first in the order of R214. -/
theorem test_priority :
    statusAfter State.reset 0x11800000007 = some (0x00000081, 0x01) ∧
    statusAfter State.reset 0x00200000004 = some (0x00000081, 0x02) ∧
    next? State.err (step ({ State.reset with phase := .rounds }.withFetchWord 48 0x10200000005)) = some 0x04 ∧
    next? State.err (step ({ State.reset with phase := .done, nbytes := 0x1fffffffffffffff#61 }.withFetchWord 48 0x105000000bb)) =
      some 0x08 := by decide

/-- A state about to pad `n` bytes `0x61`, `n` at most 63. -/
def aboutToPad (n : Nat) : State :=
  { State.reset with
    buf := Memory.writeAll 0 (List.replicate n 0x61) []
    fill := BitVec.ofNat 7 n, nbytes := BitVec.ofNat 61 n, fin := true, phase := .pad1 }

/-- Bytes 55 to 57 and 63 of the buffer, and `STATUS`. -/
def padView (t : State) : List (Option Byte) × Word :=
  ([55, 56, 57, 62, 63].map (fun j => Memory.read? j t.buf), statusWord t)

/-- 95 §2.3: `f = 55`, the length follows `0x80` at once. -/
theorem test_uPad1_55 :
    next? padView (engineAlone (aboutToPad 55)) =
      some ([some 0x80, some 0x00, some 0x00, some 0x01, some 0xb8], 0x40000262) := by decide

/-- 95 §2.3: `f = 56`, no room for the length. -/
theorem test_uPad1_56 :
    next? padView (engineAlone (aboutToPad 56)) =
      some ([some 0x61, some 0x80, some 0x00, some 0x00, some 0x00], 0x40000222) := by decide

/-- 95 §2.3: `uPAD2` of a message of 120 bytes. -/
theorem test_uPad2 :
    next? padView (engineAlone { State.reset with nbytes := 120, fin := true, phase := .pad2 }) =
      some ([some 0x00, some 0x00, some 0x00, some 0x03, some 0xc0], 0x40000262) := by decide

/-- The block of "abc" in the buffer (95 §2.2). -/
def abcBuf : List Host.Cell := Memory.writeAll 0 ([0x61, 0x62, 0x63, 0x80] ++ List.replicate 59 0x00 ++ [0x18]) []

/-- The first 16 words of the schedule of "abc" (95 §3.3). -/
def sixteenWords : List (Nat × Word) :=
  Memory.writeAll 0 ([0x61626380] ++ List.replicate 14 0 ++ [0x00000018]) []

/-- 95 §3.3: `W[15]` comes from `BUF[60..63]`. -/
theorem test_uSched_copies :
    next? (fun t => (Memory.read? 15 t.w, statusWord t))
      (engineAlone { State.reset with buf := abcBuf, fill := 64, nbytes := 3, fin := true, lastblk := true, phase := .sched, t := 15 }) =
      some (some 0x00000018, 0x40100262) := by decide

/-- 95 §3.3: `W[17]` from `W[15]`, `W[10]`, `W[2]`, `W[1]`; `W[31]` from `W[29]`, `W[24]`, `W[16]`, `W[15]`. -/
theorem test_uSched_expands :
    next? (fun t => Memory.read? 17 t.w)
      (engineAlone { State.reset with w := Memory.write 16 0x61626380 sixteenWords, fill := 64, phase := .sched, t := 17 }) =
      some (some 0x000f0000) ∧
    next? (fun t => Memory.read? 31 t.w)
      (engineAlone { State.reset with w := [(15, 0x00000018), (16, 0x61626380), (24, 0xc8215c1a), (29, 0xec8726cb)],
                                      fill := 64, phase := .sched, t := 31 }) = some (some 0xd3b7973b) := by decide

/-- 95 §3.5: `uLOAD`. -/
theorem test_uLoad :
    next? (fun t => (t.r, statusWord t))
      (engineAlone { State.reset with fill := 64, fin := true, lastblk := true, phase := .load }) =
      some (⟨0x6a09e667, 0xbb67ae85, 0x3c6ef372, 0xa54ff53a, 0x510e527f, 0x9b05688c, 0x1f83d9ab, 0x5be0cd19⟩, 0x40000462) := by
  decide

/-- 95 §3.5: round 0 of "abc". -/
theorem test_uRound_first :
    next? (fun t => (t.r, statusWord t))
      (engineAlone { State.reset with r := initialValue, w := sixteenWords, fill := 64, fin := true, lastblk := true, phase := .rounds }) =
      some (⟨0x5d6aebcd, 0x6a09e667, 0xbb67ae85, 0x3c6ef372, 0xfa2a4622, 0x510e527f, 0x9b05688c, 0x1f83d9ab⟩, 0x40010462) := by
  decide

/-- 95 §3.5: round 63 of "abc" ends the rounds. -/
theorem test_uRound_last :
    next? (fun t => (t.r, statusWord t))
      (engineAlone { State.reset with
        r := ⟨0xd39a2165, 0x04d24d6c, 0xb85e2ce9, 0xb6ae8fff, 0xfb121210, 0x948d25b6, 0x961f4894, 0xb21bad3d⟩
        w := [(63, 0x12b1edeb)], fill := 64, fin := true, lastblk := true, phase := .rounds, t := 63 }) =
      some (⟨0x506e3058, 0xd39a2165, 0x04d24d6c, 0xb85e2ce9, 0x5ef50f24, 0xfb121210, 0x948d25b6, 0x961f4894⟩, 0x40000562) := by
  decide

/-- The state before the last `uACCUM` of "abc" (95 §3.5). -/
def beforeAccum : State :=
  { State.reset with
    r := ⟨0x506e3058, 0xd39a2165, 0x04d24d6c, 0xb85e2ce9, 0x5ef50f24, 0xfb121210, 0x948d25b6, 0x961f4894⟩
    fill := 64, nbytes := 3, fin := true, lastblk := true, phase := .accum }

/-- 95 §3.5: `uACCUM` of "abc", the digest and its validity. -/
theorem test_uAccum_done :
    next? (fun t => (digestPort t, digestValidPort t, statusWord t)) (engineAlone beforeAccum) =
      some (0xba7816bf8f01cfea414140de5dae2223b00361a396177a9cb410ff61f20015ad, true, 0x0000076c) := by decide

/-- 95 §3.6 and §4.4: where `uACCUM` goes; with `STEP = 1` it halts. -/
theorem test_uAccum_phases :
    next? State.phase (engineAlone { beforeAccum with fin := false, lastblk := false }) = some .accept ∧
    next? State.phase (engineAlone { beforeAccum with lastblk := false }) = some .pad2 ∧
    next? statusWord (engineAlone { beforeAccum with cfg := 1 }) = some 0x0000077c := by decide

/-- 95 §4.5: the interrupt line. -/
theorem test_irq :
    irq { State.reset with cfg := 6 } = false ∧ irq { State.reset with cfg := 6, phase := .done } = true ∧
    irq { State.reset with cfg := 6, err := 1 } = true ∧ irq { State.reset with cfg := 2, err := 1 } = false ∧
    irq { State.reset with cfg := 4, err := 1 } = true ∧ irq { State.reset with err := 1, phase := .done } = false := by decide

/-- 95 §3.2 and §3.4: the six functions at a word with no symmetry. -/
theorem test_functions :
    smallSigma0 0x12345678 = 0xe7fce6ee ∧ smallSigma1 0x12345678 = 0xa1f78649 ∧
    bigSigma0 0x12345678 = 0x66146474 ∧ bigSigma1 0x12345678 = 0x3561abda ∧
    ch 0x510e527f 0x9b05688c 0x1f83d9ab = 0x1f85c98c ∧ maj 0x6a09e667 0xbb67ae85 0x3c6ef372 = 0x3a6fe667 := by decide

/-- 95 §2.1: the zero count at the boundary of one and two blocks. -/
theorem test_zeroCount :
    zeroCount 440 = 7 ∧ zeroCount 447 = 0 ∧ zeroCount 448 = 511 ∧ zeroCount 512 = 447 ∧ zeroCount 960 = 511 := by decide

/-- R92: `PUSHS` of a text. -/
theorem test_pushText :
    pushText ['a', 'b', 'c'] = some [.push 0x61, .push 0x62, .push 0x63] ∧ pushText ['a', Char.ofNat 0x100] = none := by
  decide

/-- R250: 131 micro-operations end a message of 55 bytes, 262 one of 56. -/
theorem test_finalSteps : finalSteps 55 = 131 ∧ finalSteps 56 = 262 ∧ finalSteps 64 = 131 := by decide

/-! ### A witness for every statement with hypotheses -/

/-- With `STEP = 1` and with `STEP = 0`. -/
theorem test_witness_PhaseSelectsMicroOp :
    isMicroOp .uAccum = true ∧ next? State.halt (exec .uAccum { beforeAccum with cfg := 1 }) = some true ∧
    next? State.halt (exec .uAccum beforeAccum) = some false := by decide

/-- One sample on the pins: reset while a transaction stands there too. -/
theorem test_witness_ResetStepLeavesResetValues :
    ∃ (s : State) (p : Inputs) (rest : List Inputs), s.inputs = p :: rest ∧ p.rst = true ∧ p.reqValid = true :=
  ⟨{ beforeAccum with inputs := [⟨true, true, true, 5, 0x61, true⟩] }, _, _, rfl, rfl, rfl⟩

theorem test_witness_StepRunsDecodedTransaction :
    ∃ (s : State) (p : Inputs) (rest : List Inputs),
      s.inputs = p :: rest ∧ p.rst = false ∧ p.reqValid = true ∧ p.engine = false :=
  ⟨{ beforeAccum with inputs := [⟨false, true, true, 5, 0x61, false⟩] }, _, _, rfl, rfl, rfl, rfl⟩

/-- With a sample left and with none. -/
theorem test_witness_StepRunsSelectedMicroOp :
    (beforeAccum.halt = false ∧ decodeMicroOp (phaseCode beforeAccum.phase) = .ok .uAccum ∧ beforeAccum.inputs = []) ∧
    ∃ p rest, ({ beforeAccum with inputs := [enginePins] } : State).inputs = p :: rest ∧ p.rst = false ∧
      p.reqValid = false ∧ p.engine = true :=
  ⟨⟨rfl, rfl, rfl⟩, _, _, rfl, rfl, rfl, rfl⟩

/-- The engine enabled but given no turn; and given a turn but not enabled. -/
theorem test_witness_StepWithoutEventIdles :
    (let s := { beforeAccum with inputs := [⟨false, false, false, 0, 0, false⟩] }
     (nextPins s).rst = false ∧ (nextPins s).reqValid = false ∧ (nextPins s).engine = false ∧ engineEnabled s = true) ∧
    ((nextPins State.reset).rst = false ∧ (nextPins State.reset).reqValid = false ∧ engineEnabled State.reset = false) := by
  decide

/-- First clause: `NOP` while `uACCUM` is due. Second: the 64th byte enables the engine, which was not enabled; and
`INIT` disables the engine, which was. -/
theorem test_witness_SharedCycleOrdersHostFirst :
    (exec (decodeBus (transactionWord true 2 0)) beforeAccum = .next (respond 0 beforeAccum) ∧
      engineEnabled beforeAccum = true ∧ (respond 0 beforeAccum).halt = false ∧
      decodeMicroOp (phaseCode (respond 0 beforeAccum).phase) = .ok .uAccum) ∧
    (engineEnabled pushed63 = false ∧
      next? engineEnabled (exec (decodeBus (transactionWord true 5 0x61)) pushed63) = some true) ∧
    (engineEnabled beforeAccum = true ∧
      next? engineEnabled (exec (decodeBus (transactionWord true 2 1)) beforeAccum) = some false) :=
  ⟨⟨rfl, rfl, rfl, rfl⟩, by decide, by decide⟩

/-- The last word of the buffer, all four bytes written; then one of its bytes alone. -/
theorem test_witness_RdBlkReadsBlockBuffer :
    (Memory.read? (4 * (15 : BitVec 4).toNat) abcBuf = some 0x00 ∧ Memory.read? (4 * (15 : BitVec 4).toNat + 1) abcBuf = some 0x00 ∧
     Memory.read? (4 * (15 : BitVec 4).toNat + 2) abcBuf = some 0x00 ∧ Memory.read? (4 * (15 : BitVec 4).toNat + 3) abcBuf = some 0x18) ∧
    Memory.read? (4 * (15 : BitVec 4).toNat + 3) [(63, (0x18 : Byte))] = some 0x18 := by decide

theorem test_witness_RdWReadsScheduleMemory :
    Memory.read? (63 : BitVec 6).toNat [(63, (0x12b1edeb : Word))] = some 0x12b1edeb := by decide

/-- Accepted and refused. -/
theorem test_witness_FinalEndsMessage : State.reset.phase = .accept ∧ beforeAccum.phase ≠ .accept := by decide

theorem test_witness_ContLeavesHalt :
    ({ beforeAccum with halt := true } : State).halt = true ∧ beforeAccum.halt = false := by decide

/-- The ends of the unmapped ranges, and the mapped numbers beside them. -/
theorem test_witness_UnmappedNumberRaisesAddr :
    [0x18, 0x1F, 0x30, 0x3F, 0xC8, 0xFF].all unmapped = true ∧ [0x17, 0x20, 0x2F, 0x40, 0xC7].all unmapped = false ∧
    Instr.illAddrE0 ∈ [Instr.illAddr18, .illAddr30, .illAddrC8, .illAddrD0, .illAddrE0] := by decide

/-- The ends of the read-only ranges; the three numbers that may be written. -/
theorem test_witness_WrongAccessRaisesAccess :
    [0x00, 0x03, 0x04, 0x06, 0x17, 0x20, 0x2F, 0x40, 0xC7].all (fun a => readOnly a && !unmapped a) = true ∧
    [0x01, 0x02, 0x05].all (fun a => !readOnly a && !unmapped a) = true ∧
    Instr.illAccessWrIv ∈ [Instr.illAccessWrId, .illAccessRdCtrl, .illAccessWrStatus, .illAccessWrErr,
      .illAccessRdDin, .illAccessWrLen, .illAccessWrH, .illAccessWrR, .illAccessWrBlk, .illAccessWrW, .illAccessWrK,
      .illAccessWrIv] := by decide

/-- The premise at its end, and a case of each answer of `errorOf`. -/
theorem test_witness_ErrorCausesAndPriority :
    next? State.err (exec .uAccum { beforeAccum with err := 0x08 }) = some 0x08 ∧
    (pushed63.phase = .accept ∧ pushed63.fill.toNat ≤ 63) ∧
    errorOf true 0xC8 5 pushed63 = some .eAddr ∧ errorOf false 0x05 0 pushed63 = some .eAccess ∧
    errorOf true 0x02 4 pushed63 = some .eIllCmd ∧ errorOf true 0x02 3 pushed63 = some .eSeq ∧
    errorOf true 0x05 0 beforeAccum = some .eSeq ∧
    errorOf true 0x05 0 { pushed63 with nbytes := 0x1fffffffffffffff#61 } = some .eTooLong ∧
    errorOf true 0x05 0 pushed63 = none ∧ errorOf true 0x02 1 pushed63 = none := by decide

/-- The byte that fills the buffer; the byte before it; a busy engine; a full counter. -/
theorem test_witness_PushAppendsByte :
    (pushed63.phase = .accept ∧ pushed63.nbytes.toNat ≠ 2 ^ 61 - 1 ∧ pushed63.fill.toNat ≤ 63 ∧ pushed63.fill.toNat = 63) ∧
    (State.reset.phase = .accept ∧ State.reset.nbytes.toNat ≠ 2 ^ 61 - 1 ∧ State.reset.fill.toNat ≠ 63) ∧
    beforeAccum.phase ≠ .accept ∧
    ({ pushed63 with nbytes := 0x1fffffffffffffff#61 } : State).nbytes.toNat = 2 ^ 61 - 1 := by decide

theorem test_witness_ByteOutsideBufferFaults :
    (let s := { pushed63 with fill := 64 }
     63 < s.fill.toNat ∧ s.phase = .accept ∧ s.nbytes.toNat ≠ 2 ^ 61 - 1) ∧
    (let s := { aboutToPad 63 with fill := 64 }
     63 < s.fill.toNat ∧ s.phase = .pad1 ∧ s.halt = false) := by decide

/-- The last fill with room for the length, the first without, and both ends. -/
theorem test_witness_UPad1WritesPadding :
    [0, 55, 56, 63].all (fun n => decide ((aboutToPad n).phase = .pad1 ∧ (aboutToPad n).halt = false ∧
      (aboutToPad n).fill.toNat = n)) = true := by decide

theorem test_witness_UPad2WritesLengthBlock :
    ∃ s : State, s.Inv ∧ s.phase = .pad2 ∧ s.halt = false :=
  ⟨{ State.reset with nbytes := 56, fin := true, phase := .pad2 },
    ⟨rfl, rfl, ⟨rfl, rfl, rfl, rfl⟩, fun _ => rfl, (fun h => by cases h), fun _ _ _ => by decide⟩, rfl, rfl⟩

/-- Copying at `T = 15`; expanding at `T = 16`; the last word. -/
theorem test_witness_USchedWritesOneWord :
    (let s := { State.reset with buf := abcBuf, fill := 64, phase := .sched, t := 15 }
     s.phase = .sched ∧ s.halt = false ∧ s.t.toNat ≤ 15 ∧
     [0, 1, 2, 3].map (fun k => Memory.read? (4 * s.t.toNat + k) s.buf) = [some 0x00, some 0x00, some 0x00, some 0x18]) ∧
    (let s := { State.reset with w := sixteenWords, fill := 64, phase := .sched, t := 16 }
     s.phase = .sched ∧ s.halt = false ∧ 16 ≤ s.t.toNat ∧ s.t.toNat ≠ 63 ∧
     [2, 7, 15, 16].map (fun k => Memory.read? (s.t.toNat - k) s.w) = [some 0, some 0, some 0, some 0x61626380]) ∧
    ({ State.reset with phase := .sched, t := 63 } : State).t.toNat = 63 := by decide

theorem test_witness_ULoadCopiesHashState :
    ({ State.reset with phase := .load } : State).phase = .load ∧ ({ State.reset with phase := .load } : State).halt = false :=
  ⟨rfl, rfl⟩

/-- `W[T]` written at `T = 0`; the last round. -/
theorem test_witness_URoundPerformsOneRound :
    (let s := { State.reset with w := sixteenWords, phase := .rounds }
     s.phase = .rounds ∧ s.halt = false ∧ Memory.read? s.t.toNat s.w = some 0x61626380 ∧ s.t.toNat ≠ 63) ∧
    ({ State.reset with phase := .rounds, t := 63 } : State).t.toNat = 63 := by decide

theorem test_witness_UAccumAddsIntoHashState : beforeAccum.phase = .accum ∧ beforeAccum.halt = false := ⟨rfl, rfl⟩

/-- The right phase but held; and the wrong phase. -/
theorem test_witness_UnselectedMicroOpIsRefused :
    isMicroOp .uAccum = true ∧ ({ beforeAccum with halt := true } : State).halt = true ∧
    decodeMicroOp (phaseCode State.reset.phase) ≠ .ok .uAccum ∧ decodeMicroOp (phaseCode beforeAccum.phase) ≠ .ok .uPad1 := by
  decide

theorem test_witness_MicroOpsIgnoreErrAndInterrupts :
    isMicroOp .uAccum = true ∧ (6 : BitVec 3).getLsbD 0 = beforeAccum.cfg.getLsbD 0 ∧ (6 : BitVec 3) ≠ beforeAccum.cfg := by decide

theorem test_witness_ReadsAndControlKeepTheMessage :
    keepsMessage .cont = true ∧ keepsMessage (.wrCfg 7) = true ∧ keepsMessage (.rdW 63) = true ∧ keepsMessage .init = false := by
  decide

/-- The top bit, where the shift brings in zeros, and the last bit before. -/
theorem test_witness_SmallSigmasBitByBit : (31 < 32 ∧ ¬ 31 ≤ 28 ∧ ¬ 31 ≤ 21) ∧ (28 < 32 ∧ 28 ≤ 28) ∧ (21 < 32 ∧ 21 ≤ 21) := by
  decide

theorem test_witness_RoundFunctionsBitByBit : (0 : Nat) < 32 ∧ (31 : Nat) < 32 := by decide

theorem test_witness_OutputsFollowState :
    (0 : Nat) < 4 ∧ (3 : Nat) < 4 ∧ (7 : Nat) < 8 ∧ ∃ v, answers .rdStatus State.reset v :=
  ⟨by decide, by decide, by decide, _, _, rfl, rfl, rfl⟩

/-- Both sides of the two bounds. -/
theorem test_witness_PadLengthLaws :
    ∃ s t : List Bool, (s.length < 2 ^ 64 ∧ s.length % 512 ≤ 447) ∧ (t.length < 2 ^ 64 ∧ 448 ≤ t.length % 512) :=
  ⟨List.replicate 447 false, List.replicate 448 false, by rw [List.length_replicate]; omega,
    by rw [List.length_replicate]; omega⟩

theorem test_witness_PaddingInBytes :
    ∃ m n : List Byte, (m.length < 2 ^ 61 ∧ m.length % 64 = 56) ∧ (n.length < 2 ^ 61 ∧ n.length % 64 = 55) :=
  ⟨List.replicate 56 0x61, List.replicate 55 0x61, by rw [List.length_replicate]; omega,
    by rw [List.length_replicate]; omega⟩

/-- A sound state that is not the reset state: one byte accepted. -/
def oneByte : State := { State.reset with buf := [(0, 0x61)], fill := 1, nbytes := 1 }

theorem test_oneByte_inv : oneByte.Inv :=
  ⟨rfl, rfl, ⟨by decide, by decide, rfl, rfl, rfl, fun j hj => by
    obtain rfl : j = 0 := by change j < 1 at hj; omega
    rfl⟩, fun _ => rfl, (fun h => by cases h), fun _ h => by cases h⟩

theorem test_witness_StepKeepsInvariant : ∃ s t : State, s.Inv ∧ step s = .next t :=
  ⟨oneByte, quiet oneByte, test_oneByte_inv, rfl⟩

theorem test_witness_SoundStepNeverStops : ∃ s : State, s.Inv ∧ (nextPins s).reqValid = false :=
  ⟨oneByte, test_oneByte_inv, rfl⟩

/-- `ACCEPT`; `DONE`; `HALT = 1`; a bit of `ERR` set; each with a transaction that does not end it. -/
theorem test_witness_PollingIsSound :
    (step oneByte = .next (quiet oneByte) ∧ (nextPins oneByte).rst = false ∧ oneByte.phase = .accept ∧
      (nextPins oneByte).reqValid = false) ∧
    (let s := { State.reset with phase := .done, halt := true, err := 0x10, inputs := [hostPins (transactionWord true 5 0x61)] }
     (nextPins s).rst = false ∧ s.phase = .done ∧ s.halt = true ∧ s.err.getLsbD 4 = true ∧
     decodeBus (pinsWord (nextPins s)) ≠ .init ∧ decodeBus (pinsWord (nextPins s)) ≠ .cont ∧
     next? State.phase (step s) = some .done) := by
  refine ⟨⟨rfl, rfl, rfl, rfl⟩, ?_⟩
  decide

theorem test_witness_NewMessageHashesNothing :
    ∃ s t : State, s.Inv ∧ exec .init s = .next t :=
  ⟨oneByte, _, test_oneByte_inv, rfl⟩

/-- One byte accepted, and the step that accepts a second. -/
theorem test_witness_StepKeepsHashingRelation :
    ∃ (m : List Byte) (s t : State), Hashing m s ∧ step s = .next t ∧ (nextPins s).reqValid = true ∧ m ≠ [] :=
  ⟨[0x61], { oneByte with inputs := [hostPins (transactionWord true 5 0x62)] }, _,
    ⟨⟨test_oneByte_inv.1, test_oneByte_inv.2, test_oneByte_inv.3, test_oneByte_inv.4, test_oneByte_inv.5,
      test_oneByte_inv.6⟩, rfl, 0, rfl, rfl,
      fun j hj => by
        obtain rfl : j = 0 := by change j < 1 at hj; omega
        rfl⟩, rfl, rfl, by simp⟩

/-- The state in which the empty message is done: its one padded block, that block's schedule and the working registers
after it are still there. -/
theorem test_witness_DoneShowsSha256OfAcceptedBytes : ∃ (m : List Byte) (s : State), Hashing m s ∧ s.phase = .done := by
  refine ⟨[], { State.reset with
      h := hashAfter (paddedBytes []) 1, fin := true, lastblk := true, phase := .done
      r := roundsUpTo (hashAfter (paddedBytes []) 0) (schedule (byteBlock 0 (paddedBytes []))) 64
      buf := Memory.writeAll 0 (paddedBytes []) []
      w := Memory.writeAll 0 (schedule (byteBlock 0 (paddedBytes []))) [] },
    ⟨⟨?_, ?_, ⟨rfl, rfl, rfl, rfl⟩, (fun h => by cases h), (fun h => by cases h), fun _ _ h => by cases h⟩, rfl, 1, rfl, ?_⟩, rfl⟩
  · exact Memory.wf_writeAll _ (by decide) rfl
  · exact Memory.wf_writeAll _ (by rw [schedule, length_scheduleUpTo]) rfl
  · have hlen : (paddedBytes []).length = 64 := by decide
    refine ⟨hlen.symm, fun j hj => ?_, fun i hi => ?_, rfl⟩
    · show Memory.read? j (Memory.writeAll 0 (paddedBytes []) []) = _
      rw [Memory.read?_writeAll, if_pos ⟨Nat.zero_le _, by omega⟩]
      exact congrArg (fun k => (paddedBytes [])[k]?) (by omega)
    · show Memory.read? i (Memory.writeAll 0 (schedule (byteBlock 0 (paddedBytes []))) []) = _
      rw [Memory.read?_writeAll, if_pos ⟨Nat.zero_le _, by rw [schedule, length_scheduleUpTo]; omega⟩]
      rfl

/-- A full buffer about to be compressed. -/
theorem test_witness_EngineCompressesBlockIn130Steps :
    ∃ s : State, s.phase = .sched ∧ s.t = 0 ∧ s.halt = false ∧ s.cfg.getLsbD 0 = false ∧ WrittenBelow 64 s.buf ∧ s.inputs = [] :=
  ⟨{ State.reset with buf := abcBuf, fill := 64, phase := .sched }, rfl, rfl, rfl, rfl, by
    have h : ∀ j, j < 64 → (Memory.read? j abcBuf).isSome = true := by decide
    exact h, rfl⟩

theorem test_witness_EngineComesToRest :
    ∃ s : State, s.Inv ∧ s.halt = false ∧ s.cfg.getLsbD 0 = false ∧ s.inputs = [] ∧ s.phase = .pad1 :=
  ⟨{ oneByte with fin := true, phase := .pad1 },
    ⟨rfl, rfl, ⟨by decide, by decide, rfl, rfl, rfl, fun j hj => by
      obtain rfl : j = 0 := by change j < 1 at hj; omega
      rfl⟩, fun _ => rfl, (fun h => by cases h), fun h => absurd rfl h⟩, rfl, rfl, rfl, rfl⟩

theorem test_witness_CanonicalProtocolComputesSha256 :
    ∃ (m : List Byte) (s : State), m.length < 2 ^ 61 ∧ s.Inv ∧ s.cfg.getLsbD 0 = false ∧ m ≠ [] :=
  ⟨[0x61, 0x62, 0x63], oneByte, by simp, test_oneByte_inv, rfl, by simp⟩

/-! ### The host of R203 -/

/-- The digest of "abc" as characters (95_test_vectors.md section 3). -/
theorem test_digest_hex :
    digestHex 0xba7816bf8f01cfea414140de5dae2223b00361a396177a9cb410ff61f20015ad =
      "ba7816bf8f01cfea414140de5dae2223b00361a396177a9cb410ff61f20015ad".toList := by decide

/-- A plan in single steps, with `INIT`, and one straight after reset that waits for `irq`. -/
def stepPlan : HostPlan := { cfg := some 1, init := true, batch := false, useIrq := false }

def irqPlan : HostPlan := { cfg := some 2, init := false, batch := true, useIrq := true }

/-- R92's and R203's conditions on `STATUS` values of 95_test_vectors.md: halted after `uPAD1` (0x40000272); `ACCEPT` with nothing and with 62 bytes
in the buffer (0x00000001, 0x3e000001); `DONE` and `VALID`
(0x0000076c); `DONE` after an error (0x000007e4). -/
theorem test_host_reads_status :
    (afterPollReady stepPlan 0x40000272 (hostStart stepPlan [0x61])).place = .cont false ∧
    (afterPollReady stepPlan 0x00000001 (hostStart stepPlan [0x61])).place = .push 0x61 0 ∧
    (afterPollReady irqPlan 0x3e000001 (hostStart irqPlan [0x61])).place = .push 0x61 1 ∧
    (afterPollDone 0x0000076c (hostStart stepPlan [])).place = .readDigest readDigest ∧
    (afterPollDone 0x000007e4 (hostStart stepPlan [])).place = .readErr := by decide

/-- A failed check reads `ERR` and starts again from the first byte (R203, R204). -/
theorem test_host_starts_again :
    hostRequest { hostStart stepPlan [0x61] with place := .readErr, rest := [] } = some .rdErr ∧
    hostReceive stepPlan [0x61] 0x08 false { hostStart stepPlan [0x61] with place := .readErr, rest := [] } =
      { place := .init, rest := [0x61], digest := [], failures := 1 } := by decide

/-- The host's first transaction and the engine's answer in one step of both. -/
theorem test_host_first_turn :
    (match benchStep irqPlan [0x61] ⟨.proceed, true⟩ (benchStart irqPlan [0x61] State.reset) with
     | .next b => some (b.host.place, b.engine.cfg)
     | _ => none) = some (.pollReady, 2) := by decide

/-- As after reset, but with the error interrupt enabled. -/
def freshState : State := { State.reset with cfg := 4 }

theorem test_freshState_ready : readyFor irqPlan freshState := by
  have inv : freshState.Inv :=
    ⟨rfl, rfl, ⟨by decide, by decide, rfl, rfl, rfl, fun j hj => absurd hj (Nat.not_lt_zero j)⟩, fun _ => rfl,
      (fun h => by cases h), fun _ h => by cases h⟩
  exact ⟨inv, fun _ => ⟨⟨inv, rfl, 0, rfl, rfl, fun j hj => absurd hj (Nat.not_lt_zero j)⟩, rfl, rfl⟩⟩

/-- A plan that starts in a sound state with `INIT`, one that starts without, and turns with waits and liberties. -/
theorem test_witness_HostProtocolReadsSha256 :
    readyFor stepPlan oneByte ∧ readyFor irqPlan freshState ∧
    (∀ turn ∈ [(⟨.proceed, true⟩ : Turn), ⟨.wait, true⟩, ⟨.other (.wrCfg 7), false⟩, ⟨.other (.rdW 0), true⟩],
      lawfulTurn turn = true) ∧ lawfulTurn ⟨.other .cont, true⟩ = false :=
  ⟨⟨test_oneByte_inv, fun h => by cases h⟩, test_freshState_ready, by decide, by decide⟩

theorem test_witness_HostProtocolFinishes :
    readyFor irqPlan freshState ∧ irqPlan.useIrq = true ∧ (irqPlan.cfg.getD freshState.cfg).getLsbD 1 = true ∧
    (irqPlan.cfg.getD freshState.cfg).getLsbD 0 = false ∧ freshState.halt = false ∧ stepPlan.useIrq = false :=
  ⟨test_freshState_ready, rfl, rfl, rfl, rfl, rfl⟩

end Sys2Proof.Tests
end

section
/-! SUPPORT. The reset values (R53), the two faults at the end of `BUF` (R34, R60), and that reset and every step keep
the invariant (R25, R31, R32, R34, R49). -/

namespace Sys2Proof.Machine

/-! ### The facts of each phase -/

theorem writtenBelow_zero {α : Type} (m : List (Nat × α)) : WrittenBelow 0 m :=
  fun j hj => absurd hj (Nat.not_lt_zero j)

theorem phaseFacts_accept {s : State} (hp : s.phase = .accept) :
    PhaseFacts s ↔ s.fill.toNat ≤ 63 ∧ s.fill.toNat = s.nbytes.toNat % 64 ∧ s.t = 0 ∧ s.fin = false ∧
      s.lastblk = false ∧ WrittenBelow s.fill.toNat s.buf := by
  rw [PhaseFacts, hp]

theorem phaseFacts_pad1 {s : State} (hp : s.phase = .pad1) :
    PhaseFacts s ↔ s.fill.toNat ≤ 63 ∧ s.fill.toNat = s.nbytes.toNat % 64 ∧ s.t = 0 ∧ s.fin = true ∧
      s.lastblk = false ∧ WrittenBelow s.fill.toNat s.buf := by
  rw [PhaseFacts, hp]

theorem phaseFacts_sched {s : State} (hp : s.phase = .sched) :
    PhaseFacts s ↔ s.fill = 64 ∧ WrittenBelow 64 s.buf ∧ WrittenBelow s.t.toNat s.w := by
  rw [PhaseFacts, hp]

theorem phaseFacts_load {s : State} (hp : s.phase = .load) :
    PhaseFacts s ↔ s.fill = 64 ∧ s.t = 0 ∧ WrittenBelow 64 s.buf ∧ WrittenBelow 64 s.w := by
  rw [PhaseFacts, hp]

theorem phaseFacts_rounds {s : State} (hp : s.phase = .rounds) :
    PhaseFacts s ↔ s.fill = 64 ∧ WrittenBelow 64 s.buf ∧ WrittenBelow 64 s.w := by
  rw [PhaseFacts, hp]

theorem phaseFacts_accum {s : State} (hp : s.phase = .accum) :
    PhaseFacts s ↔ s.fill = 64 ∧ s.t = 0 ∧ WrittenBelow 64 s.buf ∧ WrittenBelow 64 s.w := by
  rw [PhaseFacts, hp]

theorem phaseFacts_pad2 {s : State} (hp : s.phase = .pad2) :
    PhaseFacts s ↔ s.fill = 0 ∧ s.t = 0 ∧ s.fin = true ∧ s.lastblk = false := by
  rw [PhaseFacts, hp]

theorem phaseFacts_done {s : State} (hp : s.phase = .done) :
    PhaseFacts s ↔ s.fill = 0 ∧ s.t = 0 ∧ s.fin = true ∧ s.lastblk = true := by
  rw [PhaseFacts, hp]

/-! ### The updates that keep the data -/

theorem sameData_holdIfStep (s : State) : SameData s (holdIfStep s) :=
  ⟨rfl, rfl, rfl, rfl, rfl, rfl, rfl, rfl, rfl, rfl⟩

theorem sameData_noteDraw (d : Bool) (s : State) : SameData s (noteDraw d s) := by
  cases d <;> exact ⟨rfl, rfl, rfl, rfl, rfl, rfl, rfl, rfl, rfl, rfl⟩

theorem sameData_takePins (s : State) : SameData s (takePins s) :=
  ⟨rfl, rfl, rfl, rfl, rfl, rfl, rfl, rfl, rfl, rfl⟩

theorem sameData_hardReset (s : State) : SameData State.reset (hardReset s) :=
  ⟨rfl, rfl, rfl, rfl, rfl, rfl, rfl, rfl, rfl, rfl⟩

/-! ### States just after reset or `INIT` -/

/-- An empty buffer in `ACCEPT` with no byte counted is sound, whatever the memories hold (R53, R191). -/
theorem inv_of_empty {s : State} (hbuf : Memory.wf 64 s.buf = true) (hw : Memory.wf 64 s.w = true)
    (hp : s.phase = .accept) (hfill : s.fill = 0) (hn : s.nbytes = 0) (ht : s.t = 0) (hfin : s.fin = false)
    (hlast : s.lastblk = false) : s.Inv := by
  refine ⟨hbuf, hw, (phaseFacts_accept hp).2 ?_, fun _ => hlast, by simp [hp, onBlock], by simp [hfin]⟩
  rw [hfill, hn]
  exact ⟨Nat.zero_le 63, rfl, ht, hfin, hlast, writtenBelow_zero _⟩

/-- Settles O48: reset is an empty buffer in `ACCEPT`. -/
theorem resetStateIsSound : Obligations.ResetStateIsSound :=
  inv_of_empty rfl rfl rfl rfl rfl rfl rfl rfl

theorem inv_hardReset (s : State) : (hardReset s).Inv := (sameData_hardReset s).inv resetStateIsSound

theorem inv_initMessage {s : State} (hi : s.Inv) : (initMessage s).Inv :=
  inv_of_empty hi.bufWf hi.wWf rfl rfl rfl rfl rfl rfl

/-! ### The transactions that write the data -/

/-- `FINAL` closes the message: what `ACCEPT` says, `PAD1` says of the same data with `FIN = 1` (R192). -/
theorem inv_final {s : State} (hi : s.Inv) (hp : s.phase = .accept) :
    State.Inv { s with fin := true, phase := .pad1 } := by
  obtain ⟨hfill, hcount, ht, _, hlast, hbuf⟩ := (phaseFacts_accept hp).1 hi.phaseFacts
  exact ⟨hi.bufWf, hi.wWf, (phaseFacts_pad1 rfl).2 ⟨hfill, hcount, ht, rfl, hlast, hbuf⟩, fun _ => hlast,
    by simp [onBlock], fun h => absurd rfl h⟩

/-- Counting a byte moves the residue of the length by one, also where 61 bits wrap: 64 divides `2^61` (R30, R34). -/
theorem nbytes_succ_mod (s : State) : (s.nbytes + 1).toNat % 64 = (s.nbytes.toNat % 64 + 1) % 64 := by
  simp [BitVec.toNat_add]

theorem toNat_fill_succ {s : State} (hf : s.fill.toNat ≤ 63) : (s.fill + 1).toNat = s.fill.toNat + 1 := by
  rw [BitVec.toNat_add_of_lt (by simp; omega)]
  rfl

theorem wf_pushed_buf {s : State} (b : Byte) (hi : s.Inv) (hfill : s.fill.toNat ≤ 63) :
    Memory.wf 64 (pushed b s).buf = true :=
  Memory.wf_write (by omega) b hi.bufWf

/-- A byte that does not fill the buffer: `ACCEPT` with one byte more (R108). -/
theorem inv_pushed_of_lt {s : State} (b : Byte) (hi : s.Inv) (hp : s.phase = .accept) (hroom : s.fill.toNat < 63) :
    (pushed b s).Inv := by
  obtain ⟨hfill, hcount, ht, hfin, hlast, hbuf⟩ := (phaseFacts_accept hp).1 hi.phaseFacts
  have hphase : (pushed b s).phase = .accept := if_neg hroom.ne
  have hfill' : (pushed b s).fill.toNat = s.fill.toNat + 1 := toNat_fill_succ hfill
  have hcount' : (pushed b s).nbytes.toNat % 64 = s.fill.toNat + 1 := by
    refine (nbytes_succ_mod s).trans ?_
    rw [← hcount]
    exact Nat.mod_eq_of_lt (by omega)
  have hbuf' : WrittenBelow (pushed b s).fill.toNat (pushed b s).buf := by
    rw [hfill']
    exact hbuf.write_next b
  exact ⟨wf_pushed_buf b hi hfill, hi.wWf,
    (phaseFacts_accept hphase).2 ⟨by omega, by omega, (if_neg hroom.ne).trans ht, hfin, hlast, hbuf'⟩,
    fun _ => hlast, by simp [hphase, onBlock], by simp [show (pushed b s).fin = false from hfin]⟩

/-- The byte that fills the buffer: a whole number of blocks is accepted, and `SCHED` begins (R108). -/
theorem inv_pushed_of_eq {s : State} (b : Byte) (hi : s.Inv) (hp : s.phase = .accept) (hfull : s.fill.toNat = 63) :
    (pushed b s).Inv := by
  obtain ⟨hfill, hcount, ht, hfin, hlast, hbuf⟩ := (phaseFacts_accept hp).1 hi.phaseFacts
  have hphase : (pushed b s).phase = .sched := if_pos hfull
  have ht' : (pushed b s).t = 0 := if_pos hfull
  have hfill' : (pushed b s).fill.toNat = 64 := (toNat_fill_succ hfill).trans (by rw [hfull])
  have hcount' : (pushed b s).nbytes.toNat % 64 = 0 := by
    refine (nbytes_succ_mod s).trans ?_
    rw [← hcount, hfull]
  have hbuf' : WrittenBelow 64 (pushed b s).buf := (hbuf.write_next b).mono (by omega)
  have hw' : WrittenBelow (pushed b s).t.toNat (pushed b s).w := by
    rw [ht']
    exact writtenBelow_zero _
  exact ⟨wf_pushed_buf b hi hfill, hi.wWf,
    (phaseFacts_sched hphase).2 ⟨BitVec.eq_of_toNat_eq hfill', hbuf', hw'⟩,
    fun _ => hlast, fun _ _ => hcount', by simp [show (pushed b s).fin = false from hfin]⟩

theorem inv_pushed {s : State} (b : Byte) (hi : s.Inv) (hp : s.phase = .accept) : (pushed b s).Inv := by
  rcases (hi.fill_le (.inl hp)).lt_or_eq with hroom | hfull
  · exact inv_pushed_of_lt b hi hp hroom
  · exact inv_pushed_of_eq b hi hp hfull

theorem inv_of_exec_transaction {i : Instr} {s t : State} (hi : s.Inv) (hm : isMicroOp i = false)
    (h : exec i s = .next t) : t.Inv := by
  rcases exec_transaction_cases hm h with hsame | ⟨_, rfl⟩ | ⟨b, _, hp, _, _, rfl⟩ | ⟨_, hp, rfl⟩
  · exact hsame.inv hi
  · exact (sameData_respond _ _).inv (inv_initMessage hi)
  · exact inv_pushed b hi hp
  · exact (sameData_respond _ _).inv (inv_final hi hp)

/-! ### The micro-operations -/

/-- The padding leaves a complete block: with `LASTBLK = 0` the length had no room in it (R110 to R112). -/
theorem inv_startBlock {s : State} {buf : List Host.Cell} {last : Bool} (hi : s.Inv) (hfin : s.fin = true)
    (hwf : Memory.wf 64 buf = true) (hbuf : WrittenBelow 64 buf)
    (hlast : last = false → 56 ≤ s.nbytes.toNat % 64) : (startBlock buf last s).Inv :=
  ⟨hwf, hi.wWf, (phaseFacts_sched rfl).2 ⟨rfl, hbuf, writtenBelow_zero _⟩, by simp [hfin], by simp [hfin],
    fun _ _ => hlast⟩

theorem inv_padded1 {s : State} (hi : s.Inv) (hp : s.phase = .pad1) : (padded1 s).Inv := by
  obtain ⟨hfill, hcount, _, hfin, _, hbuf⟩ := (phaseFacts_pad1 hp).1 hi.phaseFacts
  have hlen := length_padTail hfill (messageBits s)
  have hbuf' := hbuf.writeAll_next (padTail s.fill.toNat (messageBits s))
  refine inv_startBlock hi hfin (Memory.wf_writeAll _ (by omega) hi.bufWf) (hbuf'.mono (by omega)) fun hlong => ?_
  have := of_decide_eq_false hlong
  omega

theorem inv_padded2 {s : State} (hi : s.Inv) (hp : s.phase = .pad2) :
    (startBlock (Memory.writeAll 0 (padBlock (messageBits s)) s.buf) true s).Inv := by
  obtain ⟨_, _, hfin, _⟩ := (phaseFacts_pad2 hp).1 hi.phaseFacts
  have hbuf' := (writtenBelow_zero s.buf).writeAll_next (padBlock (messageBits s))
  exact inv_startBlock hi hfin (Memory.wf_writeAll _ (by simp) hi.bufWf) (hbuf'.mono (by simp)) (by simp)

/-- While the engine works on a block the length, the flags and `BUF` stand still, so only `W` and the facts of the new
phase are to be shown. -/
theorem inv_of_onBlock {s t : State} (hi : s.Inv) (hs : onBlock s.phase = true)
    (hbuf : t.buf = s.buf) (hn : t.nbytes = s.nbytes) (hfin : t.fin = s.fin) (hlast : t.lastblk = s.lastblk)
    (hw : Memory.wf 64 t.w = true) (hf : PhaseFacts t) : t.Inv := by
  have hpad : s.phase ≠ .pad1 := fun h => by simp [h, onBlock] at hs
  refine ⟨hbuf ▸ hi.bufWf, hw, hf, ?_, fun _ => ?_, fun _ => ?_⟩
  · rw [hfin, hlast]
    exact hi.lastblkNeedsFin
  · rw [hfin, hn]
    exact hi.wholeBlocks hs
  · rw [hfin, hlast, hn]
    exact hi.lengthNextBlock hpad

/-- Below 63 the counter `T` goes up by one (R25). -/
theorem toNat_t_succ {s : State} (ht : s.t.toNat ≠ 63) : (s.t + 1).toNat = s.t.toNat + 1 := by
  have := s.t.isLt
  rw [BitVec.toNat_add_of_lt (by simp; omega)]
  rfl

/-- What `SCHED` says while words of the schedule remain, and what `LOAD` says once the last is written (R135). -/
theorem phaseFacts_scheduled {s : State} (v : Word) (hi : s.Inv) (hp : s.phase = .sched) :
    PhaseFacts (advance .load { s with w := Memory.write s.t.toNat v s.w }) := by
  obtain ⟨hfill, hbuf, hw⟩ := (phaseFacts_sched hp).1 hi.phaseFacts
  have hw' := hw.write_next v
  by_cases hlast : s.t.toNat = 63
  · refine (phaseFacts_load (by simp [hlast])).2 ⟨by simp [hfill], by simp [hlast], by simp [hbuf], ?_⟩
    simpa using hw'.mono (by omega)
  · refine (phaseFacts_sched (by simp [hlast, hp])).2 ⟨by simp [hfill], by simp [hbuf], ?_⟩
    rwa [advance_t, if_neg hlast, toNat_t_succ hlast, advance_w]

/-- `uSCHED` writes word `T` of the schedule (R135). -/
theorem inv_scheduled {s : State} (v : Word) (hi : s.Inv) (hp : s.phase = .sched) :
    (advance .load { s with w := Memory.write s.t.toNat v s.w }).Inv := by
  have hs : onBlock s.phase = true := by rw [hp]; rfl
  exact inv_of_onBlock hi hs (by simp) (by simp) (by simp) (by simp)
    (by simpa using Memory.wf_write s.t.isLt v hi.wWf) (phaseFacts_scheduled v hi hp)

theorem inv_loaded {s : State} (hi : s.Inv) (hp : s.phase = .load) :
    State.Inv { s with r := s.h, phase := .rounds, t := 0 } := by
  obtain ⟨hfill, _, hbuf, hw⟩ := (phaseFacts_load hp).1 hi.phaseFacts
  exact inv_of_onBlock hi (by rw [hp]; rfl) rfl rfl rfl rfl hi.wWf ((phaseFacts_rounds rfl).2 ⟨hfill, hbuf, hw⟩)

/-- `ROUNDS` says the same of every round; after the last, `T = 0` makes it what `ACCUM` says (R147). -/
theorem inv_roundDone {s : State} (v : Words8) (hi : s.Inv) (hp : s.phase = .rounds) :
    (advance .accum { s with r := v }).Inv := by
  obtain ⟨hfill, hbuf, hw⟩ := (phaseFacts_rounds hp).1 hi.phaseFacts
  have hs : onBlock s.phase = true := by rw [hp]; rfl
  refine inv_of_onBlock hi hs (by simp) (by simp) (by simp) (by simp)
    (by simpa using hi.wWf) ?_
  by_cases hlast : s.t.toNat = 63
  · exact (phaseFacts_accum (by simp [hlast])).2 (by simp [hlast, hfill, hbuf, hw])
  · exact (phaseFacts_rounds (by simp [hlast, hp])).2 (by simp [hfill, hbuf, hw])

/-- The three ways on from `ACCUM`: the next data block, the finished digest, the block of the length (R156, R157). -/
theorem inv_accumulated {s : State} (v : Words8) (hi : s.Inv) (hp : s.phase = .accum) :
    State.Inv { s with h := v, fill := 0, t := 0, phase := afterAccum s } := by
  have hpad : s.phase ≠ .pad1 := by simp [hp]
  have hfacts : PhaseFacts { s with h := v, fill := 0, t := 0, phase := afterAccum s } := by
    unfold afterAccum
    split
    · rename_i hfin
      have hwhole := hi.wholeBlocks (by rw [hp]; rfl) hfin
      exact (phaseFacts_accept rfl).2
        ⟨Nat.zero_le 63, hwhole.symm, rfl, hfin, hi.lastblkNeedsFin hfin, writtenBelow_zero _⟩
    · rename_i hfin
      split
      · rename_i hlast
        exact (phaseFacts_done rfl).2 ⟨rfl, rfl, by simpa using hfin, hlast⟩
      · rename_i hlast
        exact (phaseFacts_pad2 rfl).2 ⟨rfl, rfl, by simpa using hfin, by simpa using hlast⟩
  have hrest : onBlock (afterAccum s) = false := by
    unfold afterAccum
    split_ifs <;> rfl
  exact ⟨hi.bufWf, hi.wWf, hfacts, hi.lastblkNeedsFin, by simp [hrest], fun _ => hi.lengthNextBlock hpad⟩

theorem inv_of_exec_microOp {i : Instr} {s t : State} (hi : s.Inv) (hm : isMicroOp i = true)
    (h : exec i s = .next t) : t.Inv := by
  cases i
  case uPad1 =>
    obtain ⟨hp, _, _, rfl⟩ := execUPad1_cases h
    exact inv_padded1 hi hp
  case uSched =>
    obtain ⟨hp, _, rfl⟩ := execUSched_cases h
    exact (sameData_holdIfStep _).inv ((sameData_noteDraw _ _).inv (inv_scheduled _ hi hp))
  case uLoad =>
    obtain ⟨hp, _, rfl⟩ := execULoad_cases h
    exact (sameData_holdIfStep _).inv (inv_loaded hi hp)
  case uRound =>
    obtain ⟨hp, _, rfl⟩ := execURound_cases h
    exact (sameData_holdIfStep _).inv ((sameData_noteDraw _ _).inv (inv_roundDone _ hi hp))
  case uAccum =>
    obtain ⟨hp, _, rfl⟩ := execUAccum_cases h
    exact (sameData_holdIfStep _).inv (inv_accumulated _ hi hp)
  case uPad2 =>
    obtain ⟨hp, _, rfl⟩ := execUPad2_cases h
    exact inv_padded2 hi hp
  all_goals cases hm

theorem inv_of_exec {i : Instr} {s t : State} (hi : s.Inv) (h : exec i s = .next t) : t.Inv := by
  cases hm : isMicroOp i
  · exact inv_of_exec_transaction hi hm h
  · exact inv_of_exec_microOp hi hm h

/-- Settles O49: taking a sample and a quiet response keep the data, reset starts afresh, every instruction keeps the
invariant. -/
theorem stepKeepsInvariant : Obligations.StepKeepsInvariant := by
  unfold Obligations.StepKeepsInvariant
  intro s t hs
  exact step_preserves (fun s => (sameData_takePins s).inv) (fun s => (sameData_respond 0 s).inv)
    (fun s _ => inv_hardReset s) (fun _ _ _ => inv_of_exec) hs

/-! ### The end of `BUF` -/

theorem execPush_of_outside {s : State} (b : Byte) (hf : 63 < s.fill.toNat) (hp : s.phase = .accept)
    (hn : s.nbytes.toNat ≠ 2 ^ 61 - 1) : execPush b s = .fault .bufIndexOutside := by
  rw [execPush, if_neg (not_not.2 hp), if_neg (by simpa [lengthFull] using hn), if_pos hf]

theorem execUPad1_of_outside {s : State} (hf : 63 < s.fill.toNat) (hp : s.phase = .pad1) (hh : s.halt = false) :
    execUPad1 s = .fault .bufIndexOutside := by
  rw [execUPad1, if_pos ((selected_iff _ _).2 ⟨hp, hh⟩), if_pos hf]

/-- Settles O33: both stops lie past the range `FILL` keeps in a sound state. -/
theorem byteOutsideBufferFaults : Obligations.ByteOutsideBufferFaults := by
  unfold Obligations.ByteOutsideBufferFaults
  intro s hf
  refine ⟨fun b hp hn => execPush_of_outside b hf hp hn, fun hp hh => execUPad1_of_outside hf hp hh, ?_⟩
  rintro ⟨hi, hp⟩
  exact absurd (hi.fill_le hp) (by omega)

/-! ### The values after reset -/

theorem answers_of_respond {i : Instr} {s u : State} {v : Word} (h : exec i s = .next (respond v u)) :
    answers i s v :=
  ⟨_, h, rfl, rfl⟩

/-- A read that may draw answers all the same (R15). -/
theorem answers_of_noteDraw {i : Instr} {s : State} {d : Bool} {v : Word}
    (h : exec i s = .next (noteDraw d (respond v s))) : answers i s v :=
  ⟨_, h, noteDraw_rspRdata d _, noteDraw_rspErr d _⟩

theorem wordAt_zero (i : BitVec 3) : wordAt ⟨0, 0, 0, 0, 0, 0, 0, 0⟩ i = 0 := by
  revert i
  decide

theorem answers_rdR_reset (i : BitVec 3) : answers (.rdR i) State.reset 0 :=
  answers_of_respond (u := State.reset) (by rw [← wordAt_zero i]; rfl)

/-- Every byte of `BUF` is unwritten after reset, so its words are answered with draws (R15, R53). -/
theorem answers_rdBlk_reset (j : BitVec 4) :
    answers (.rdBlk j) State.reset (blkWord State.reset j.toNat) ∧ blkUnwritten State.reset j.toNat = true :=
  ⟨answers_of_noteDraw rfl, rfl⟩

/-- Every word of `W` is unwritten after reset (R15, R53). -/
theorem answers_rdW_reset (t : BitVec 6) :
    answers (.rdW t) State.reset (schedWord State.reset t.toNat) ∧ schedUnwritten State.reset t.toNat = true :=
  ⟨answers_of_noteDraw rfl, rfl⟩

/-- A message can start at once: the first byte is accepted (R53, R108). -/
theorem answers_push_reset (b : Byte) : answers (.push b) State.reset 0 :=
  answers_of_respond rfl

/-- The outputs after reset (R53, R158, R220). -/
theorem digestPort_reset :
    digestPort State.reset = 0x6a09e667bb67ae853c6ef372a54ff53a510e527f9b05688c1f83d9ab5be0cd19 := by
  decide

/-- Settles O1: the fields and the two memories; the reads, in the order of the register map; the outputs; a first
`PUSH`. -/
theorem resetLeavesStatedValues : Obligations.ResetLeavesStatedValues := by
  unfold Obligations.ResetLeavesStatedValues
  refine ⟨rfl, rfl, rfl, rfl, rfl, rfl, rfl, rfl, rfl, rfl, rfl, rfl, fun _ => rfl, fun _ => rfl, ?_⟩
  refine ⟨answers_of_respond rfl, answers_of_respond rfl, answers_of_respond rfl, answers_of_respond rfl,
    answers_of_respond rfl, answers_of_respond rfl, fun _ => answers_of_respond rfl, answers_rdR_reset,
    answers_rdBlk_reset, answers_rdW_reset, fun _ => answers_of_respond rfl, fun _ => answers_of_respond rfl, ?_⟩
  exact ⟨rfl, rfl, digestPort_reset, answers_push_reset⟩

end Sys2Proof.Machine
end

section
/-! SUPPORT. The order of a shared cycle (R77), and what polling relies on: which transactions end `ACCEPT`, `DONE`,
`HALT = 1` and a set bit of `ERR` (R71). -/

namespace Sys2Proof.Machine

/-! ### A step with a transaction -/

/-- A step with a transaction that answers `s'` is the engine's turn on `s'`, taken only where the engine was enabled
before it (R77). -/
theorem step_of_transaction {s s' : State} (hrst : (nextPins s).rst = false) (hreq : (nextPins s).reqValid = true)
    (hexec : exec (decodeBus (pinsWord (nextPins s))) (takePins s) = .next s') :
    step s = engineTurn ((nextPins s).engine && engineEnabled s) s' := by
  simp [step, cycle, hrst, hreq, hostStep, hexec]

/-- A `PHASE` code that selects a micro-operation is one in which the engine is busy (R28, R90). -/
theorem busy_of_decodeMicroOp {p : Phase} {i : Instr} (h : decodeMicroOp (phaseCode p) = .ok i) : busy p = true := by
  cases p
  case accept | done => cases h
  case pad1 | sched | load | rounds | accum | pad2 => rfl

/-- Settles O6: after the transaction comes the engine's turn, on the state the transaction answers. -/
theorem sharedCycleOrdersHostFirst : Obligations.SharedCycleOrdersHostFirst := by
  unfold Obligations.SharedCycleOrdersHostFirst
  intro s s' p rest hin hrst hreq hgo hexec
  have hpins : nextPins s = p := by simp [nextPins, hin]
  have htake : takePins s = { s with inputs := rest } := by simp [takePins, hin]
  subst hpins
  have hstep : step s = engineTurn (engineEnabled s) s' := by
    rw [step_of_transaction hrst hreq (htake ▸ hexec), hgo, Bool.true_and]
  rw [hstep]
  refine ⟨fun i hs hhalt hi => ?_, fun hoff => ?_⟩
  · have hs' : engineEnabled s' = true := (engineEnabled_iff s').2 ⟨busy_of_decodeMicroOp hi, hhalt⟩
    simp [engineTurn, hs, hs', engineStep_eq hi]
  · simp [engineTurn, Bool.and_eq_false_iff.2 hoff]

/-- Where the engine has no enabled step, a step without reset is the transaction on the pins, or nothing (R28). -/
theorem step_cases_of_not_enabled {s t : State} (hs : engineEnabled s = false) (hrst : (nextPins s).rst = false)
    (h : step s = .next t) :
    ((nextPins s).reqValid = true ∧ exec (decodeBus (pinsWord (nextPins s))) (takePins s) = .next t) ∨
    ((nextPins s).reqValid = false ∧ t = quiet (takePins s)) := by
  rcases step_cases h with ⟨hrst', _⟩ | ⟨_, hreq, s', hexec, hturn⟩ | ⟨_, hreq, hturn⟩
  · rw [hrst] at hrst'
    cases hrst'
  · rw [hs, Bool.and_false] at hturn
    cases hturn
    exact .inl ⟨hreq, hexec⟩
  · exact .inr ⟨hreq, engineTurn_of_not_enabled hs hturn⟩

/-! ### What a transaction leaves of `HALT` and `ERR` -/

/-- A transaction other than `INIT` raises an error and does nothing else, or keeps `ERR`, and `HALT` too unless it is
`CONT` (R33, R43, R212). -/
theorem exec_transaction_raises_or_keeps {i : Instr} {s t : State} (hm : isMicroOp i = false) (hinit : i ≠ .init)
    (h : exec i s = .next t) :
    (∃ x, t = raiseErr x s) ∨ (t.err = s.err ∧ (i ≠ .cont → t.halt = s.halt)) := by
  cases i
  case init => exact absurd rfl hinit
  case push =>
    rcases execPush_cases h with ⟨_, rfl⟩ | ⟨_, _, rfl⟩ | ⟨_, _, _, rfl⟩
    · exact .inl ⟨_, rfl⟩
    · exact .inl ⟨_, rfl⟩
    · exact .inr ⟨rfl, fun _ => rfl⟩
  case final =>
    rcases execFinal_cases h with ⟨_, rfl⟩ | ⟨_, rfl⟩
    · exact .inl ⟨_, rfl⟩
    · exact .inr ⟨rfl, fun _ => rfl⟩
  case cont =>
    rcases execCont_cases h with ⟨_, rfl⟩ | ⟨_, rfl⟩
    · exact .inl ⟨_, rfl⟩
    · exact .inr ⟨rfl, fun hcont => absurd rfl hcont⟩
  case rdBlk | rdW =>
    cases h
    exact .inr ⟨noteDraw_err _ _, fun _ => noteDraw_halt _ _⟩
  case nop | wrCfg | rdId | rdCfg | rdStatus | rdErr | rdLenLo | rdLenHi | rdH | rdR | rdK | rdIv =>
    cases h
    exact .inr ⟨rfl, fun _ => rfl⟩
  case uPad1 | uPad2 | uSched | uLoad | uRound | uAccum => cases hm
  -- what is left are the illegal transactions (R184, R185, R194)
  all_goals
    cases h
    exact .inl ⟨_, rfl⟩

/-- No transaction but `INIT` clears a bit of `ERR` (R43). -/
theorem exec_transaction_keeps_errBit {i : Instr} {s t : State} {n : Nat} (hm : isMicroOp i = false)
    (hinit : i ≠ .init) (h : exec i s = .next t) (hn : s.err.getLsbD n = true) : t.err.getLsbD n = true := by
  rcases exec_transaction_raises_or_keeps hm hinit h with ⟨x, rfl⟩ | ⟨herr, _⟩
  · simp [hn]
  · rwa [herr]

/-- No transaction but `INIT` and `CONT` writes `HALT` (R33). -/
theorem exec_transaction_keeps_halt {i : Instr} {s t : State} (hm : isMicroOp i = false) (hinit : i ≠ .init)
    (hcont : i ≠ .cont) (h : exec i s = .next t) : t.halt = s.halt := by
  rcases exec_transaction_raises_or_keeps hm hinit h with ⟨x, rfl⟩ | ⟨_, hhalt⟩
  · rfl
  · exact hhalt hcont

/-- No transaction but `INIT` writes what the engine alone computes (R200). -/
theorem exec_transaction_keeps_results {i : Instr} {s t : State} (hm : isMicroOp i = false) (hinit : i ≠ .init)
    (h : exec i s = .next t) : t.h = s.h ∧ t.r = s.r ∧ t.w = s.w ∧ t.lastblk = s.lastblk := by
  rcases exec_transaction_cases hm h with hsame | ⟨rfl, _⟩ | ⟨b, _, _, _, _, rfl⟩ | ⟨_, _, rfl⟩
  · exact ⟨hsame.h, hsame.r, hsame.w, hsame.lastblk⟩
  · exact absurd rfl hinit
  · exact ⟨rfl, rfl, rfl, rfl⟩
  · exact ⟨rfl, rfl, rfl, rfl⟩

/-- Outside `ACCEPT` no transaction but `INIT` writes any of the data: `PUSH` and `FINAL` raise `E_SEQ` (R108, R192). -/
theorem exec_transaction_keeps_data {i : Instr} {s t : State} (hm : isMicroOp i = false) (hinit : i ≠ .init)
    (hp : s.phase ≠ .accept) (h : exec i s = .next t) : SameData s t := by
  rcases exec_transaction_cases hm h with hsame | ⟨rfl, _⟩ | ⟨_, _, haccept, _⟩ | ⟨_, haccept, _⟩
  · exact hsame
  · exact absurd rfl hinit
  · exact absurd haccept hp
  · exact absurd haccept hp

/-! ### What polling relies on (R71) -/

/-- R71 (a): the engine has no step in `ACCEPT`, and of the transactions only `PUSH` and `FINAL` leave it. -/
theorem step_keeps_accept {s t : State} (h : step s = .next t) (hrst : (nextPins s).rst = false)
    (hp : s.phase = .accept)
    (hkeep : (nextPins s).reqValid = true →
      ∀ i, decodeBus (pinsWord (nextPins s)) = i → i ≠ .final ∧ ∀ b, i ≠ .push b) :
    t.phase = .accept := by
  have hs : engineEnabled s = false := by simp [engineEnabled, hp, busy]
  rcases step_cases_of_not_enabled hs hrst h with ⟨hreq, hexec⟩ | ⟨_, rfl⟩
  · obtain ⟨hfinal, hpush⟩ := hkeep hreq _ rfl
    rcases exec_transaction_cases (isMicroOp_decodeBus _) hexec with hsame | ⟨_, rfl⟩ | ⟨b, hb, _⟩ | ⟨hf, _⟩
    · exact hsame.phase.trans hp
    · rfl
    · exact absurd hb (hpush b)
    · exact absurd hf hfinal
  · exact hp

/-- R71 (b): the engine has no step in `DONE`, and there `PUSH` and `FINAL` raise `E_SEQ`. -/
theorem step_keeps_done {s t : State} (h : step s = .next t) (hrst : (nextPins s).rst = false) (hp : s.phase = .done)
    (hkeep : (nextPins s).reqValid = true → decodeBus (pinsWord (nextPins s)) ≠ .init) :
    t.phase = .done ∧ t.h = s.h ∧ t.r = s.r ∧ t.w = s.w ∧ t.buf = s.buf ∧ t.nbytes = s.nbytes := by
  have hs : engineEnabled s = false := by simp [engineEnabled, hp, busy]
  have hsame : SameData (takePins s) t := by
    rcases step_cases_of_not_enabled hs hrst h with ⟨hreq, hexec⟩ | ⟨_, rfl⟩
    · exact exec_transaction_keeps_data (isMicroOp_decodeBus _) (hkeep hreq) (by simp [hp]) hexec
    · exact sameData_respond 0 _
  exact ⟨hsame.phase.trans hp, hsame.h, hsame.r, hsame.w, hsame.buf, hsame.nbytes⟩

/-- R71 (c): with `HALT = 1` the engine has no step, also where the transaction starts a block. -/
theorem step_keeps_halt {s t : State} (h : step s = .next t) (hrst : (nextPins s).rst = false) (hhalt : s.halt = true)
    (hkeep : (nextPins s).reqValid = true →
      decodeBus (pinsWord (nextPins s)) ≠ .init ∧ decodeBus (pinsWord (nextPins s)) ≠ .cont) :
    t.halt = true ∧ t.h = s.h ∧ t.r = s.r ∧ t.w = s.w ∧ t.lastblk = s.lastblk := by
  have hs : engineEnabled s = false := by simp [engineEnabled, hhalt]
  rcases step_cases_of_not_enabled hs hrst h with ⟨hreq, hexec⟩ | ⟨_, rfl⟩
  · obtain ⟨hinit, hcont⟩ := hkeep hreq
    have hm := isMicroOp_decodeBus (pinsWord (nextPins s))
    obtain ⟨hh, hr, hw, hlast⟩ := exec_transaction_keeps_results hm hinit hexec
    exact ⟨(exec_transaction_keeps_halt hm hinit hcont hexec).trans hhalt, hh, hr, hw, hlast⟩
  · exact ⟨hhalt, rfl, rfl, rfl, rfl⟩

/-- R71 (d): the engine's turn never writes `ERR`, so this holds in every phase. -/
theorem step_keeps_errBit {s t : State} {n : Nat} (h : step s = .next t) (hrst : (nextPins s).rst = false)
    (hkeep : (nextPins s).reqValid = true → decodeBus (pinsWord (nextPins s)) ≠ .init)
    (hn : s.err.getLsbD n = true) : t.err.getLsbD n = true := by
  rcases step_cases h with ⟨hrst', _⟩ | ⟨_, hreq, s', hexec, hturn⟩ | ⟨_, _, hturn⟩
  · rw [hrst] at hrst'
    cases hrst'
  · obtain ⟨herr, _⟩ := engineTurn_keeps hturn
    rw [herr]
    exact exec_transaction_keeps_errBit (isMicroOp_decodeBus _) (hkeep hreq) hexec hn
  · obtain ⟨herr, _⟩ := engineTurn_keeps hturn
    rwa [herr]

/-- Settles O51, clause by clause. -/
theorem pollingIsSound : Obligations.PollingIsSound := by
  unfold Obligations.PollingIsSound
  exact fun s t h hrst => ⟨step_keeps_accept h hrst, step_keeps_done h hrst, step_keeps_halt h hrst,
    fun hkeep _ => step_keeps_errBit h hrst hkeep⟩

end Sys2Proof.Machine
end

section
/-! SUPPORT. Decoding and encoding agree, and each transaction word matches one row of the opcode table (R81 to R86,
R90). -/

namespace Sys2Proof

/-! ### Decoding the encoding of an instruction -/

theorem decode_readWord (r : Reg) : decode (readWord r) = .ok (decodeRead r) := by
  simp [decode, readWord, decodeBus_transactionWord, regOf_regAddr]

theorem decode_writeWord (r : Reg) (wd : Word) : decode (writeWord r wd) = .ok (decodeWrite wd r) := by
  simp [decode, writeWord, decodeBus_transactionWord, regOf_regAddr]

/-- The low bits of `WDATA` hold an operand of up to 32 bits (R82). -/
theorem extractLsb'_setWidth_word {n : Nat} (v : BitVec n) (hn : n ≤ 32) : (v.setWidth 32).extractLsb' 0 n = v := by
  rw [← BitVec.setWidth_eq_extractLsb' hn, BitVec.setWidth_setWidth_of_le v hn, BitVec.setWidth_eq]

/-- Settles O8: a micro-operation by its `PHASE` code, a transaction by the register and the kind of access that its
encoding names. -/
theorem decodeInvertsEncode : Obligations.DecodeInvertsEncode := by
  unfold Obligations.DecodeInvertsEncode
  intro i
  cases i
  case uPad1 | uSched | uLoad | uRound | uAccum | uPad2 => rfl
  case wrCfg v =>
    rw [encode, decode_writeWord, decodeWrite, extractLsb'_setWidth_word v (by decide)]
  case push b =>
    rw [encode, decode_writeWord, decodeWrite, extractLsb'_setWidth_word b (by decide)]
  case nop | init | final | cont | illCmd | illAccessWrId | illAccessWrStatus | illAccessWrErr | illAccessWrLen
      | illAccessWrH | illAccessWrR | illAccessWrBlk | illAccessWrW | illAccessWrK | illAccessWrIv =>
    exact decode_writeWord _ _
  -- what is left is encoded as a read: the legal reads, the unmapped numbers, the reads of CTRL and DIN
  all_goals exact decode_readWord _

/-- Settles O7, word by word. -/
theorem sampleWordsDecode : Obligations.SampleWordsDecode := by
  unfold Obligations.SampleWordsDecode
  decide

/-! ### The one row a transaction word matches -/

theorem regOf_eq_ctrl_iff (a : BitVec 8) : regOf a = .ctrl ↔ a = 0x02 := by
  revert a
  decide

theorem regOf_eq_din_iff (a : BitVec 8) : regOf a = .din ↔ a = 0x05 := by
  revert a
  decide

/-- `WE`, `ADDR` and the bits `m` of `WDATA`, as a mask over transaction words (R81). -/
def seenBits (m : Word) : Nat := (transactionWord true 0xff m).toNat

/-- What such a mask leaves of a word is the word with `WDATA` masked. -/
theorem toNat_and_seenBits (we : Bool) (a : BitVec 8) (wd m : Word) :
    (transactionWord we a wd).toNat &&& seenBits m = (transactionWord we a (wd &&& m)).toNat := by
  have hhead : (BitVec.ofBool we ++ a) &&& (BitVec.ofBool true ++ BitVec.allOnes 8) = BitVec.ofBool we ++ a := by
    rw [BitVec.and_append, BitVec.and_allOnes]
    cases we <;> rfl
  have hword : transactionWord we a wd &&& transactionWord true 0xff m = transactionWord we a (wd &&& m) :=
    BitVec.and_append.trans (congrArg (· ++ (wd &&& m)) hhead)
  rw [seenBits, ← BitVec.toNat_and, hword]

/-- A row that looks at no bit of `WDATA` outside `m` matches a word whatever the other bits are. -/
theorem rowMatches_and_wdata {row : TableRow} {m : Word} (hm : seenBits m &&& row.mask = row.mask) (we : Bool)
    (a : BitVec 8) (wd : Word) :
    rowMatches row (transactionWord we a wd).toNat = rowMatches row (transactionWord we a (wd &&& m)).toNat := by
  rw [rowMatches, rowMatches, ← toNat_and_seenBits, Nat.and_assoc, hm]

/-- A row looks at `WE`, `ADDR` and `CMD` at most (R84, R85, R86). -/
theorem row_mask_seenBits_seven : ∀ row ∈ legalRows ++ illegalRows, seenBits 7 &&& row.mask = row.mask := by
  decide

/-- The rows that look at `WDATA` at all are rows of a write of `CTRL` (R84, R85, R86). -/
theorem row_mask_seenBits_zero_or_ctrl : ∀ row ∈ legalRows ++ illegalRows,
    seenBits 0 &&& row.mask = row.mask ∨
      row.mask &&& seenBits 0 = seenBits 0 ∧ row.pattern &&& seenBits 0 = (transactionWord true 0x02 0).toNat := by
  decide

/-- A row of the second kind matches nothing but writes of `CTRL`. -/
theorem eq_ctrl_of_rowMatches {row : TableRow} {we : Bool} {a : BitVec 8} {wd : Word}
    (hmask : row.mask &&& seenBits 0 = seenBits 0)
    (hpattern : row.pattern &&& seenBits 0 = (transactionWord true 0x02 0).toNat)
    (h : rowMatches row (transactionWord we a wd).toNat = true) : we = true ∧ a = 0x02 := by
  have hrow : (transactionWord we a wd).toNat &&& row.mask = row.pattern := by simpa [rowMatches] using h
  have hword : transactionWord we a (wd &&& 0) = transactionWord true 0x02 0 := by
    apply BitVec.eq_of_toNat_eq
    rw [← toNat_and_seenBits, ← hmask, ← Nat.and_assoc, hrow, hpattern]
  exact ⟨by simpa using congrArg twWe hword, by simpa using congrArg twAddr hword⟩

/-- Outside a write of `CTRL` no row sees `WDATA`. -/
theorem rowMatches_of_not_ctrl {row : TableRow} (hrow : row ∈ legalRows ++ illegalRows) {we : Bool} {a : BitVec 8}
    (hctrl : ¬ (we = true ∧ a = 0x02)) (wd : Word) :
    rowMatches row (transactionWord we a wd).toNat = rowMatches row (transactionWord we a 0).toNat := by
  rcases row_mask_seenBits_zero_or_ctrl row hrow with hm | ⟨hmask, hpattern⟩
  · simpa using rowMatches_and_wdata hm we a wd
  · have hno : ∀ wd, rowMatches row (transactionWord we a wd).toNat = false := fun wd =>
      Bool.eq_false_iff.2 fun h => hctrl (eq_ctrl_of_rowMatches hmask hpattern h)
    rw [hno, hno]

/-- Outside a write of `CTRL` the choice of the instruction does not see `WDATA` either (R84, R86). -/
theorem mnemonic_decodeBus_of_not_ctrl {we : Bool} {a : BitVec 8} (hctrl : ¬ (we = true ∧ a = 0x02)) (wd : Word) :
    mnemonic (decodeBus (transactionWord we a wd)) = mnemonic (decodeBus (transactionWord we a 0)) := by
  rw [← regOf_eq_ctrl_iff] at hctrl
  simp only [decodeBus_transactionWord]
  cases we with
  | false => rfl
  | true =>
    cases hr : regOf a
    case ctrl => exact absurd ⟨rfl, hr⟩ hctrl
    all_goals rfl

/-- The row of each register number and kind of access (R84, R86). -/
theorem matchingRows_wdata_zero : ∀ (we : Bool) (a : BitVec 8),
    matchingRows (.transaction (transactionWord we a 0)) = [mnemonic (decodeBus (transactionWord we a 0))] := by
  decide +kernel

/-- The row of each command code (R85, R86). -/
theorem matchingRows_command : ∀ cmd : BitVec 3,
    matchingRows (.transaction (transactionWord true 0x02 (cmd.setWidth 32))) = [mnemonic (decodeCommand cmd)] := by
  decide

theorem word_and_seven (wd : Word) : wd &&& 7 = (wd.extractLsb' 0 3).setWidth 32 := by
  apply BitVec.eq_of_toNat_eq
  have hcmd : wd.toNat % 8 < 4294967296 := by omega
  simpa [Nat.mod_eq_of_lt hcmd] using Nat.and_two_pow_sub_one_eq_mod wd.toNat 3

/-- Words in which every row sees the same match the same rows. -/
theorem matchingRows_congr {tw tw' : BitVec 41}
    (h : ∀ row ∈ legalRows ++ illegalRows, rowMatches row tw.toNat = rowMatches row tw'.toNat) :
    matchingRows (.transaction tw) = matchingRows (.transaction tw') :=
  congrArg (List.map TableRow.mnemonic) (List.filter_congr h)

/-- Settles O9: in a write of `CTRL` the command code decides, in any other word `WE` and `ADDR` do. -/
theorem decoderPicksTheOneMatchingRow : Obligations.DecoderPicksTheOneMatchingRow := by
  unfold Obligations.DecoderPicksTheOneMatchingRow
  intro tw
  rw [← transactionWord_fields tw]
  generalize twWe tw = we, twAddr tw = a, twWdata tw = wd
  by_cases hctrl : we = true ∧ a = 0x02
  · obtain ⟨rfl, rfl⟩ := hctrl
    rw [matchingRows_congr fun row hrow => rowMatches_and_wdata (row_mask_seenBits_seven row hrow) true 0x02 wd,
      word_and_seven, matchingRows_command, decodeBus_transactionWord]
    rfl
  · rw [matchingRows_congr fun row hrow => rowMatches_of_not_ctrl hrow hctrl wd,
      mnemonic_decodeBus_of_not_ctrl hctrl, matchingRows_wdata_zero]

end Sys2Proof
end

section
/-! SUPPORT. A step of one kind alone: the transaction on the pins, the selected micro-operation, nothing (R80, R90,
R200, R201). Which error a transaction raises, and that a micro-operation raises none (R88, R213, R214). -/

namespace Sys2Proof.Machine

open Host (Outcome)

/-! ### A step of one kind -/

/-- The engine's turn is empty where it gets none or has no step (R28, R70). -/
theorem engineTurn_of_idle {go : Bool} {s : State} (h : go = false ∨ engineEnabled s = false) :
    engineTurn go s = .next s := by
  simp [engineTurn, Bool.and_eq_false_iff.2 h]

/-- A step without reset or transaction is the engine's turn, with the response pins at 0 (R80). -/
theorem step_of_no_transaction {s : State} (hrst : (nextPins s).rst = false) (hreq : (nextPins s).reqValid = false) :
    step s = engineTurn (nextPins s).engine (quiet (takePins s)) := by
  simp [step, cycle, hrst, hreq]

/-- Settles O3: the engine's part of the cycle is empty. -/
theorem stepRunsDecodedTransaction : Obligations.StepRunsDecodedTransaction := by
  unfold Obligations.StepRunsDecodedTransaction
  intro s p rest hin hrst hreq hgo
  have hpins : nextPins s = p := by simp [nextPins, hin]
  have htake : takePins s = { s with inputs := rest } := by simp [takePins, hin]
  rw [step, cycle, hpins, htake, hrst, hreq, hgo, hostStep, pinsWord]
  cases exec (decodeBus (transactionWord p.reqWe p.reqAddr p.reqWdata)) { s with inputs := rest } <;> rfl

/-- Settles O4: the engine is enabled, so its turn is the micro-operation of `PHASE`. -/
theorem stepRunsSelectedMicroOp : Obligations.StepRunsSelectedMicroOp := by
  unfold Obligations.StepRunsSelectedMicroOp
  intro s i hhalt hi hin
  have hs : engineEnabled s = true := (engineEnabled_iff s).2 ⟨busy_of_decodeMicroOp hi, hhalt⟩
  have hpins : (nextPins s).rst = false ∧ (nextPins s).reqValid = false ∧ (nextPins s).engine = true := by
    rcases hin with hin | ⟨p, rest, hin, hp⟩
    · simp [nextPins, hin, enginePins]
    · simpa [nextPins, hin] using hp
  obtain ⟨hrst, hreq, hgo⟩ := hpins
  calc step s = engineTurn true (quiet (takePins s)) := by rw [step_of_no_transaction hrst hreq, hgo]
    _ = engineStep (quiet (takePins s)) := by simp [engineTurn, hs]
    _ = exec i (quiet (takePins s)) := engineStep_eq hi

/-- Settles O5: the engine's turn does nothing. -/
theorem stepWithoutEventIdles : Obligations.StepWithoutEventIdles := by
  unfold Obligations.StepWithoutEventIdles
  intro s hrst hreq hoff
  exact (step_of_no_transaction hrst hreq).trans (engineTurn_of_idle (by simpa using hoff))

/-! ### The end of every micro-operation -/

/-- Every micro-operation runs with `HALT = 0`, writes neither `CFG` nor `ERR`, and ends with the single-step hold
(R33, R201). -/
theorem exec_microOp_holds {i : Instr} {s t : State} (hm : isMicroOp i = true) (h : exec i s = .next t) :
    ∃ u, t = holdIfStep u ∧ u.halt = false ∧ u.cfg = s.cfg ∧ u.err = s.err := by
  cases i
  case uPad1 =>
    obtain ⟨_, hhalt, _, rfl⟩ := execUPad1_cases h
    exact ⟨_, rfl, hhalt, rfl, rfl⟩
  case uPad2 =>
    obtain ⟨_, hhalt, rfl⟩ := execUPad2_cases h
    exact ⟨_, rfl, hhalt, rfl, rfl⟩
  case uSched =>
    obtain ⟨_, hhalt, rfl⟩ := execUSched_cases h
    exact ⟨_, rfl, by simpa using hhalt, by simp, by simp⟩
  case uRound =>
    obtain ⟨_, hhalt, rfl⟩ := execURound_cases h
    exact ⟨_, rfl, by simpa using hhalt, by simp, by simp⟩
  case uLoad =>
    obtain ⟨_, hhalt, rfl⟩ := execULoad_cases h
    exact ⟨_, rfl, hhalt, rfl, rfl⟩
  case uAccum =>
    obtain ⟨_, hhalt, rfl⟩ := execUAccum_cases h
    exact ⟨_, rfl, hhalt, rfl, rfl⟩
  all_goals cases hm

theorem exec_microOp_halt {i : Instr} {s t : State} (hm : isMicroOp i = true) (h : exec i s = .next t) :
    t.halt = s.cfg.getLsbD 0 := by
  obtain ⟨u, rfl, hhalt, hcfg, _⟩ := exec_microOp_holds hm h
  simp [hhalt, cfgStep, hcfg]

theorem exec_microOp_err {i : Instr} {s t : State} (hm : isMicroOp i = true) (h : exec i s = .next t) :
    t.err = s.err := by
  obtain ⟨u, rfl, _, _, herr⟩ := exec_microOp_holds hm h
  simpa using herr

/-- The busy phases are those with the codes 1 to 6 (R24, R28). -/
theorem busy_iff_phaseCode (p : Phase) : busy p = true ↔ 1 ≤ (phaseCode p).toNat ∧ (phaseCode p).toNat ≤ 6 := by
  cases p <;> decide

/-- Settles O10: the enabling condition, the table of codes, the hold. -/
theorem phaseSelectsMicroOp : Obligations.PhaseSelectsMicroOp := by
  unfold Obligations.PhaseSelectsMicroOp
  refine ⟨fun s => ?_, rfl, rfl, rfl, rfl, rfl, rfl, rfl, rfl, rfl, rfl, rfl, rfl, rfl, rfl, rfl, rfl,
    fun s t i => exec_microOp_halt⟩
  rw [engineEnabled_iff, busy_iff_phaseCode, and_comm]

/-! ### The error of a transaction -/

/-- The error the instruction of a transaction raises in a state: always, never, or by `PHASE`, `HALT` and `NBYTES`. -/
def raisedError (s : State) : Instr → Option ErrBit
  | .illAddr18 | .illAddr30 | .illAddrC8 | .illAddrD0 | .illAddrE0 => some .eAddr
  | .illAccessWrId | .illAccessRdCtrl | .illAccessWrStatus | .illAccessWrErr | .illAccessRdDin | .illAccessWrLen
  | .illAccessWrH | .illAccessWrR | .illAccessWrBlk | .illAccessWrW | .illAccessWrK | .illAccessWrIv => some .eAccess
  | .illCmd => some .eIllCmd
  | .push _ => if s.phase ≠ .accept then some .eSeq else if lengthFull s then some .eTooLong else none
  | .final => if s.phase ≠ .accept then some .eSeq else none
  | .cont => if s.halt = false then some .eSeq else none
  | _ => none

/-- An instruction with an error raises it and does nothing else (R212). -/
theorem exec_of_raisedError_some {i : Instr} {s : State} {x : ErrBit} (h : raisedError s i = some x) :
    exec i s = .next (raiseErr x s) := by
  cases i
  case push b =>
    simp only [raisedError] at h
    split_ifs at h with hp hl <;> cases h
    · exact if_pos hp
    · exact (if_neg hp).trans (if_pos hl)
  case final =>
    simp only [raisedError] at h
    split_ifs at h with hp
    cases h
    exact if_pos hp
  case cont =>
    simp only [raisedError] at h
    split_ifs at h with hp
    cases h
    exact if_pos hp
  case nop | init | wrCfg | rdId | rdCfg | rdStatus | rdErr | rdLenLo | rdLenHi | rdH | rdR | rdBlk | rdW | rdK | rdIv
      | uPad1 | uPad2 | uSched | uLoad | uRound | uAccum =>
    cases h
  -- the illegal transactions (R184, R185, R194)
  all_goals
    cases h
    rfl

/-- A transaction without an error is answered, with `err = 0`; only `INIT` writes `ERR`. The premise on `FILL` is that
of `PUSH` (R34). -/
theorem exec_of_raisedError_none {i : Instr} {s : State} (hm : isMicroOp i = false)
    (hfill : s.phase = .accept → s.fill.toNat ≤ 63) (h : raisedError s i = none) :
    ∃ t, exec i s = .next t ∧ t.rspErr = false ∧ (t.err = s.err ∨ (i = .init ∧ t.err = 0)) := by
  cases i
  case push b =>
    simp only [raisedError] at h
    split_ifs at h with hp hl
    have hroom : ¬ 63 < s.fill.toNat := not_lt.2 (hfill (not_not.1 hp))
    exact ⟨_, (if_neg hp).trans ((if_neg hl).trans (if_neg hroom)), rfl, .inl rfl⟩
  case final =>
    simp only [raisedError] at h
    split_ifs at h with hp
    exact ⟨_, if_neg hp, rfl, .inl rfl⟩
  case cont =>
    simp only [raisedError] at h
    split_ifs at h with hp
    exact ⟨_, if_neg hp, rfl, .inl rfl⟩
  case init => exact ⟨_, rfl, rfl, .inr ⟨rfl, rfl⟩⟩
  case rdBlk | rdW => exact ⟨_, rfl, noteDraw_rspErr _ _, .inl (noteDraw_err _ _)⟩
  case nop | wrCfg | rdId | rdCfg | rdStatus | rdErr | rdLenLo | rdLenHi | rdH | rdR | rdK | rdIv =>
    exact ⟨_, rfl, rfl, .inl rfl⟩
  case uPad1 | uPad2 | uSched | uLoad | uRound | uAccum => cases hm
  -- the illegal transactions raise an error always (R184, R185, R194)
  all_goals cases h

/-- The unmapped ranges of the register map (R35). -/
def isGap : Reg → Bool
  | .gap18 | .gap30 | .gapC8 | .gapD0 | .gapE0 => true
  | _ => false

/-- The read-only registers (R35, R86). -/
def isReadOnly : Reg → Bool
  | .id | .status | .err | .lenLo | .lenHi | .h _ | .r _ | .blk _ | .w _ | .k _ | .iv _ => true
  | _ => false

theorem unmapped_eq_isGap (a : BitVec 8) : unmapped a.toNat = isGap (regOf a) := by
  revert a
  decide

theorem readOnly_eq_isReadOnly (a : BitVec 8) : readOnly a.toNat = isReadOnly (regOf a) := by
  revert a
  decide

theorem toNat_eq_two_iff (a : BitVec 8) : a.toNat = 0x02 ↔ regOf a = .ctrl := by
  rw [regOf_eq_ctrl_iff]
  exact BitVec.toNat_inj (y := 2)

theorem toNat_eq_five_iff (a : BitVec 8) : a.toNat = 0x05 ↔ regOf a = .din := by
  rw [regOf_eq_din_iff]
  exact BitVec.toNat_inj (y := 5)

/-- The error of a write of `CTRL`, by its command code (R85, R192 to R194). -/
theorem raisedError_decodeCommand (c : BitVec 3) (s : State) : raisedError s (decodeCommand c) =
    if 4 ≤ c.toNat then some .eIllCmd
    else if c.toNat = 2 ∧ s.phase ≠ .accept then some .eSeq
    else if c.toNat = 3 ∧ s.halt = false then some .eSeq
    else none := by
  have hc : c = 0 ∨ c = 1 ∨ c = 2 ∨ c = 3 ∨ 4 ≤ c.toNat ∧ decodeCommand c = .illCmd := by
    revert c
    decide
  rcases hc with rfl | rfl | rfl | rfl | ⟨hc, hill⟩
  case inr.inr.inr.inr =>
    rw [hill, if_pos hc]
    rfl
  -- `NOP`, `INIT`, `FINAL`, `CONT`
  all_goals simp [decodeCommand, raisedError]

/-- R88's order of tests finds the error of the decoded instruction. -/
theorem errorOf_eq_raisedError (we : Bool) (a : BitVec 8) (wd : Word) (s : State) :
    errorOf we a.toNat wd.toNat s = raisedError s (decodeBus (transactionWord we a wd)) := by
  rw [decodeBus_transactionWord]
  simp only [errorOf, unmapped_eq_isGap, readOnly_eq_isReadOnly, toNat_eq_two_iff, toNat_eq_five_iff]
  cases we
  case false => cases regOf a <;> simp [isGap, isReadOnly, decodeRead, raisedError]
  case true =>
    cases regOf a
    case ctrl => simp [isGap, isReadOnly, decodeWrite, raisedError_decodeCommand]
    case din => simp [isGap, isReadOnly, decodeWrite, raisedError, lengthFull]
    all_goals simp [isGap, isReadOnly, decodeWrite, raisedError]

/-- Settles O31: the tests name the error of the decoded instruction, which is raised; where they name none, the
instruction is answered. -/
theorem errorCausesAndPriority : Obligations.ErrorCausesAndPriority := by
  unfold Obligations.ErrorCausesAndPriority
  refine ⟨fun s t i => exec_microOp_err, fun we a wd s hfill => ?_⟩
  rw [errorOf_eq_raisedError]
  cases h : raisedError s (decodeBus (transactionWord we a wd)) with
  | some x =>
    refine ⟨_, exec_of_raisedError_some h, rfl, fun n _ => ?_⟩
    rw [raiseErr_err, BitVec.getLsbD_or, getLsbD_errMask]
  | none => exact exec_of_raisedError_none (isMicroOp_decodeBus _) hfill h

end Sys2Proof.Machine
end

section
/-! SUPPORT. The padding of a message (R103, R104, R106) and the padder that writes it: a byte accepted, the end of the
message, the block of the length (R108, R110, R112). -/

namespace Sys2Proof.Machine

/-! ### The padded message (R103, R104) -/

/-- With room for the length in the last block of the data (R103). -/
theorem zeroCount_of_le {n : Nat} (h : n % 512 ≤ 447) : zeroCount n = 447 - n % 512 := by
  unfold zeroCount
  omega

/-- Without that room, so that the zeros run into one more block (R103). -/
theorem zeroCount_of_ge {n : Nat} (h : 448 ≤ n % 512) : zeroCount n = 959 - n % 512 := by
  unfold zeroCount
  omega

@[simp] theorem length_len64 (n : Nat) : (len64 n).length = 64 := by simp [len64]

theorem length_pad (s : List Bool) : (pad s).length = s.length + 65 + zeroCount s.length := by
  simp only [pad, List.length_append, List.length_singleton, List.length_replicate, length_len64]
  omega

/-- The length in whole blocks: the zeros end where the length field ends a block (R104). -/
theorem length_pad_eq_blocks (s : List Bool) : (pad s).length = 512 * ((s.length + 64) / 512 + 1) := by
  rw [length_pad]
  rcases le_or_gt (s.length % 512) 447 with hroom | hnone
  · rw [zeroCount_of_le hroom]
    omega
  · rw [zeroCount_of_ge hnone]
    omega

theorem self_isPrefix_pad (s : List Bool) : s <+: pad s := by
  simp [pad]

/-- Settles O46: the two cases of the zero count, the length as a sum and in whole blocks. -/
theorem padLengthLaws : Obligations.PadLengthLaws := by
  unfold Obligations.PadLengthLaws
  intro s _
  have hsum := length_pad s
  have hblocks := length_pad_eq_blocks s
  exact ⟨zeroCount_of_le, zeroCount_of_ge, hsum, by omega, by omega, self_isPrefix_pad s, hblocks⟩

/-! ### The padding in bytes (R106) -/

/-- Where the zeros are those of `0x80` and `z` whole bytes, the padding is bytes. -/
theorem pad_messageBitString {m : List Byte} {z : Nat} (hz : zeroCount (8 * m.length) = 7 + 8 * z) :
    pad (messageBitString m) = messageBitString
      (m ++ [0x80] ++ List.replicate z 0x00 ++ be64 (BitVec.ofNat 64 (8 * m.length))) := by
  have hend : messageBitString [0x80] = [true] ++ List.replicate 7 false := rfl
  have hzeros : messageBitString (List.replicate z 0x00) = List.replicate (8 * z) false := messageBitString_replicate z
  simp only [pad, length_messageBitString, hz, len64_eq, messageBitString_append, hend, hzeros, List.replicate_add,
    List.append_assoc]

/-- Settles O47: the zero count of whole bytes, cut after the seven zeros of `0x80`. -/
theorem paddingInBytes : Obligations.PaddingInBytes := by
  unfold Obligations.PaddingInBytes
  intro m _
  have hz := zeroCount_bytes m.length
  exact ⟨_, by omega, by omega, hz, by omega, by omega, pad_messageBitString hz⟩

/-! ### `PUSH` (R108) -/

/-- A write of `DIN` is a `PUSH` of its low byte, whatever the bits above are (R82, R86). -/
theorem decodeBus_write_din (hi : BitVec 24) (b : Byte) :
    decodeBus (transactionWord true 0x05 (hi ++ b)) = .push b := by
  have hreg : regOf 0x05 = .din := (regOf_eq_din_iff _).2 rfl
  have hbyte : (hi ++ b).extractLsb' 0 8 = b := BitVec.extractLsb'_append_eq_right
  rw [decodeBus_transactionWord, if_pos rfl, hreg, decodeWrite, hbyte]

theorem exec_push_of_room {s : State} (b : Byte) (hp : s.phase = .accept) (hn : s.nbytes.toNat ≠ 2 ^ 61 - 1)
    (hf : s.fill.toNat ≤ 63) : exec (.push b) s = .next (pushed b s) :=
  (if_neg (not_not.2 hp)).trans ((if_neg (by simpa [lengthFull] using hn)).trans (if_neg (not_lt.2 hf)))

/-- Below its largest value `NBYTES` goes up by one (R30). -/
theorem toNat_nbytes_succ {s : State} (hn : s.nbytes.toNat ≠ 2 ^ 61 - 1) :
    (s.nbytes + 1).toNat = s.nbytes.toNat + 1 := by
  have hlt : s.nbytes.toNat + 1 < 2 ^ 61 := by
    have := s.nbytes.isLt
    omega
  exact BitVec.toNat_add_of_lt hlt

/-- Settles O32: the accepted byte field by field, then `E_SEQ`, then `E_TOOLONG`. -/
theorem pushAppendsByte : Obligations.PushAppendsByte := by
  unfold Obligations.PushAppendsByte
  refine ⟨decodeBus_write_din, fun s b hp hn hf => ?_, fun s b hp => ?_, fun s b hp hn => ?_⟩
  · exact ⟨pushed b s, exec_push_of_room b hp hn hf, fun j => Memory.read?_write _ j b s.buf, toNat_nbytes_succ hn,
      toNat_fill_succ hf, fun h => ⟨if_pos h, if_pos h⟩, fun h => ⟨if_neg h, if_neg h⟩, rfl⟩
  · exact exec_of_raisedError_some (x := .eSeq) (if_pos hp)
  · have hfull : lengthFull s = true := decide_eq_true hn
    exact exec_of_raisedError_some (x := .eTooLong) ((if_neg (not_not.2 hp)).trans (if_pos hfull))

/-! ### `uPAD1` and `uPAD2` (R110, R112) -/

/-- All that the start of a block writes: the hold is `CFG.STEP` where the engine was running (R33, R110, R112). -/
theorem startBlock_of_running {s : State} (buf : List Host.Cell) (last : Bool) (hh : s.halt = false) :
    startBlock buf last s =
      { s with buf := buf, lastblk := last, fill := 64, phase := .sched, t := 0, halt := s.cfg.getLsbD 0 } := by
  simp [startBlock, holdIfStep, hh]

/-- What `uPAD2` leaves (R112). -/
def padded2 (s : State) : State :=
  startBlock (Memory.writeAll 0 (padBlock (messageBits s)) s.buf) true s

theorem exec_uPad1_of_selected {s : State} (hp : s.phase = .pad1) (hh : s.halt = false) (hf : s.fill.toNat ≤ 63) :
    exec .uPad1 s = .next (padded1 s) :=
  (if_pos ((selected_iff _ _).2 ⟨hp, hh⟩)).trans (if_neg (not_lt.2 hf))

theorem exec_uPad2_of_selected {s : State} (hp : s.phase = .pad2) (hh : s.halt = false) :
    exec .uPad2 s = .next (padded2 s) :=
  if_pos ((selected_iff _ _).2 ⟨hp, hh⟩)

/-- `BUF` after `uPAD1`, byte by byte (R110). -/
theorem read?_padded1_buf {s : State} (hf : s.fill.toNat ≤ 63) (j : Nat) :
    Memory.read? j (padded1 s).buf =
      if j < s.fill.toNat ∨ 64 ≤ j then Memory.read? j s.buf
      else if j = s.fill.toNat then some 0x80
      else if s.fill.toNat ≤ 55 ∧ 56 ≤ j then some (BitVec.ofNat 8 (s.nbytes.toNat * 8 / 2 ^ (8 * (63 - j))))
      else some 0x00 := by
  rw [padded1, startBlock_buf, Memory.read?_writeAll, length_padTail hf]
  by_cases hout : j < s.fill.toNat ∨ 64 ≤ j
  · rw [if_pos hout, if_neg (by omega)]
  · rw [if_neg hout, if_pos (by omega), getElem?_padTail hf (by omega) (by omega), messageBits_toNat,
      Nat.mul_comm s.nbytes.toNat]

/-- `BUF` after `uPAD2`, byte by byte (R112). -/
theorem read?_padded2_buf (s : State) (j : Nat) :
    Memory.read? j (padded2 s).buf =
      if 64 ≤ j then Memory.read? j s.buf
      else if 56 ≤ j then some (BitVec.ofNat 8 (s.nbytes.toNat * 8 / 2 ^ (8 * (63 - j))))
      else some 0x00 := by
  rw [padded2, startBlock_buf, Memory.read?_writeAll, length_padBlock]
  by_cases hout : 64 ≤ j
  · rw [if_pos hout, if_neg (by omega)]
  · rw [if_neg hout, if_pos (by omega), Nat.sub_zero, getElem?_padBlock (by omega), messageBits_toNat,
      Nat.mul_comm s.nbytes.toNat]

/-- Settles O34: the bytes of the padding, and the single-step hold. -/
theorem uPad1WritesPadding : Obligations.UPad1WritesPadding := by
  unfold Obligations.UPad1WritesPadding
  intro s hp hh hf
  have hexec := exec_uPad1_of_selected hp hh hf
  exact ⟨padded1 s, hexec, read?_padded1_buf hf, rfl, rfl, rfl, rfl, exec_microOp_halt rfl hexec, rfl⟩

/-- A sound state is in `PAD2` only where the length had no room (R111, R112). -/
theorem le_nbytes_mod_of_pad2 {s : State} (hi : s.Inv) (hp : s.phase = .pad2) : 56 ≤ s.nbytes.toNat % 64 := by
  obtain ⟨_, _, hfin, hlast⟩ := (phaseFacts_pad2 hp).1 hi.phaseFacts
  exact hi.lengthNextBlock (by simp [hp]) hfin hlast

/-- Settles O35: the bytes of the block, and the frame. -/
theorem uPad2WritesLengthBlock : Obligations.UPad2WritesLengthBlock := by
  unfold Obligations.UPad2WritesLengthBlock
  refine ⟨fun _ => le_nbytes_mod_of_pad2, fun s hp hh => ?_⟩
  refine ⟨padded2 s, exec_uPad2_of_selected hp hh, read?_padded2_buf s, ?_⟩
  rw [padded2, startBlock_buf, startBlock_of_running _ _ hh]

end Sys2Proof.Machine
end

section
/-! SUPPORT. The constant ROM holds what its definition says (R120): the first primes, the fractional bits of a root. -/

namespace Sys2Proof.Machine

/-! ### The first 64 primes -/

/-- Entry `i` of the numbers below `n` with a property, in order, is the `i`-th number with that property. -/
theorem getElem?_filter_range {p : Nat → Prop} [DecidablePred p] {n i : Nat} (h : i < Nat.count p n) :
    ((List.range n).filter p)[i]? = some (Nat.nth p i) := by
  induction n with
  | zero => simp at h
  | succ n ih =>
    have hlen : ((List.range n).filter p).length = Nat.count p n := List.countP_eq_length_filter.symm
    rw [List.range_succ, List.filter_append]
    rcases lt_or_ge i (Nat.count p n) with hlt | hge
    · rw [List.getElem?_append_left (by omega), ih hlt]
    · have hpn : p n := Nat.count_lt_count_succ_iff.1 (hge.trans_lt h)
      have hi : i = Nat.count p n := by
        rw [Nat.count_succ, if_pos hpn] at h
        omega
      have hlast : [n].filter p = [n] := List.filter_cons_of_pos (decide_eq_true hpn)
      rw [hi, Nat.nth_count hpn, ← hlen, hlast, List.getElem?_concat_length]

/-- Trial division up to the root. -/
theorem prime_iff_of_lt_sq {n b : Nat} (h : n < b ^ 2) :
    Nat.Prime n ↔ 2 ≤ n ∧ ∀ d < b, 2 ≤ d → d < n → ¬ d ∣ n := by
  constructor
  · intro hp
    exact ⟨hp.two_le, fun d _ => (Nat.prime_def_lt'.1 hp).2 d⟩
  · rintro ⟨h2, hall⟩
    refine Nat.prime_def_le_sqrt.2 ⟨h2, fun d hd hle => ?_⟩
    exact hall d (hle.trans_lt (Nat.sqrt_lt'.2 h)) hd (hle.trans_lt (Nat.sqrt_lt_self h2))

/-- The primes of R121. -/
def firstPrimes : List Nat :=
  [2, 3, 5, 7, 11, 13, 17, 19, 23, 29, 31, 37, 41, 43, 47, 53] ++
  [59, 61, 67, 71, 73, 79, 83, 89, 97, 101, 103, 107, 109, 113, 127, 131] ++
  [137, 139, 149, 151, 157, 163, 167, 173, 179, 181, 191, 193, 197, 199, 211, 223] ++
  [227, 229, 233, 239, 241, 251, 257, 263, 269, 271, 277, 281, 283, 293, 307, 311]

/-- 312 lies below 18 squared, so trial division stops at 17. -/
theorem filter_prime_range : (List.range 312).filter Nat.Prime = firstPrimes := by
  have htrial : (List.range 312).filter (fun n => 2 ≤ n ∧ ∀ d < 18, 2 ≤ d → d < n → ¬ d ∣ n) = firstPrimes := by
    decide +kernel
  rw [← htrial]
  refine List.filter_congr fun n hn => decide_eq_decide.2 (prime_iff_of_lt_sq ?_)
  have := List.mem_range.1 hn
  omega

theorem getElem?_firstPrimes {i : Nat} (h : i < 64) : firstPrimes[i]? = some (Nat.nth Nat.Prime i) := by
  have hcount : Nat.count Nat.Prime 312 = 64 := by
    rw [Nat.count, List.countP_eq_length_filter, filter_prime_range]
    rfl
  rw [← filter_prime_range]
  exact getElem?_filter_range (hcount.symm ▸ h)

/-! ### The words of the ROM (R120) -/

/-- The first 32 bits after the point of the `k`-th root of `p` (R120). -/
def rootWord (k p : Nat) : Word := BitVec.ofNat 32 (Nat.nthRoot k (p * 2 ^ (32 * k)))

theorem exists_floorRoot_rootWord {k : Nat} (hk : k ≠ 0) (p : Nat) :
    ∃ r : Nat, r ^ k ≤ p * 2 ^ (32 * k) ∧ p * 2 ^ (32 * k) < (r + 1) ^ k ∧ (rootWord k p).toNat = r % 2 ^ 32 :=
  ⟨_, Nat.pow_nthRoot_le (.inl hk), Nat.lt_pow_nthRoot_add_one hk _, BitVec.toNat_ofNat ..⟩

/-- The whole table of R121, evaluated by `Nat.nthRoot`'s Newton iteration. -/
theorem kTable_eq_map_rootWord : kTable = firstPrimes.map (rootWord 3) := by decide +kernel

theorem wordList_initialValue : wordList initialValue = (firstPrimes.take 8).map (rootWord 2) := by decide +kernel

theorem getElem?_wordList (v : Words8) (i : BitVec 3) : (wordList v)[i.toNat]? = some (wordAt v i) := by
  have hi := i.isLt
  unfold wordAt
  generalize i.toNat = n at hi
  interval_cases n <;> rfl

theorem roundConstant_eq_rootWord (i : BitVec 6) : roundConstant i = rootWord 3 (Nat.nth Nat.Prime i.toNat) := by
  rw [roundConstant, List.getD_eq_getElem?_getD, kTable_eq_map_rootWord, List.getElem?_map,
    getElem?_firstPrimes i.isLt]
  rfl

theorem wordAt_initialValue (i : BitVec 3) : wordAt initialValue i = rootWord 2 (Nat.nth Nat.Prime i.toNat) := by
  have hi := i.isLt
  apply Option.some.inj
  rw [← getElem?_wordList, wordList_initialValue, List.getElem?_map, List.getElem?_take_of_lt hi,
    getElem?_firstPrimes (by omega)]
  rfl

/-- Settles O45: each word of the ROM is the root word of its prime, and the floor of the root is the witness. -/
theorem constantsAreRootsOfPrimes : Obligations.ConstantsAreRootsOfPrimes := by
  unfold Obligations.ConstantsAreRootsOfPrimes
  refine ⟨fun i => ?_, fun i => ?_⟩
  · rw [roundConstant_eq_rootWord]
    exact exists_floorRoot_rootWord three_ne_zero _
  · rw [wordAt_initialValue]
    exact exists_floorRoot_rootWord two_ne_zero _

end Sys2Proof.Machine
end

section
/-! SUPPORT. The schedule expander: its word functions bit by bit and over exclusive or (R131 to R133), and what `uSCHED`
leaves (R135). -/

namespace Sys2Proof.Machine

/-! ### The lower-case sigmas (R131 to R133) -/

/-- `shr`, bit by bit: zeros come in from the top (R10, R133). -/
theorem getLsbD_shr (x : Word) (n i : Nat) :
    (shr x n).getLsbD i = if i ≤ 31 - n then x.getLsbD (i + n) else false := by
  rw [shr, BitVec.getLsbD_ushiftRight, Nat.add_comm n i]
  split_ifs with hi
  · rfl
  · exact BitVec.getLsbD_of_ge x _ (by omega)

theorem rotr_xor (x y : Word) {n : Nat} (hn : n < 32) : rotr (x ^^^ y) n = rotr x n ^^^ rotr y n := by
  apply BitVec.eq_of_getLsbD_eq
  intro i hi
  simp only [BitVec.getLsbD_xor, getLsbD_rotr _ hn hi]

theorem shr_xor (x y : Word) (n : Nat) : shr (x ^^^ y) n = shr x n ^^^ shr y n :=
  BitVec.ushiftRight_xor_distrib x y n

theorem getLsbD_smallSigma0 (x : Word) {i : Nat} (hi : i < 32) : (smallSigma0 x).getLsbD i =
    (x.getLsbD ((i + 7) % 32) ^^ x.getLsbD ((i + 18) % 32) ^^ (if i ≤ 28 then x.getLsbD (i + 3) else false)) := by
  simp only [smallSigma0, BitVec.getLsbD_xor, getLsbD_rotr x _ hi, getLsbD_shr, Nat.reduceLT, Nat.reduceSub]

theorem getLsbD_smallSigma1 (x : Word) {i : Nat} (hi : i < 32) : (smallSigma1 x).getLsbD i =
    (x.getLsbD ((i + 17) % 32) ^^ x.getLsbD ((i + 19) % 32) ^^ (if i ≤ 21 then x.getLsbD (i + 10) else false)) := by
  simp only [smallSigma1, BitVec.getLsbD_xor, getLsbD_rotr x _ hi, getLsbD_shr, Nat.reduceLT, Nat.reduceSub]

theorem smallSigma0_xor (x y : Word) : smallSigma0 (x ^^^ y) = smallSigma0 x ^^^ smallSigma0 y := by
  rw [smallSigma0, rotr_xor x y (by decide), rotr_xor x y (by decide), shr_xor]
  simp only [smallSigma0]
  ac_rfl

theorem smallSigma1_xor (x y : Word) : smallSigma1 (x ^^^ y) = smallSigma1 x ^^^ smallSigma1 y := by
  rw [smallSigma1, rotr_xor x y (by decide), rotr_xor x y (by decide), shr_xor]
  simp only [smallSigma1]
  ac_rfl

/-- Settles O43: the bits, the linearity, the printed values. -/
theorem smallSigmasBitByBit : Obligations.SmallSigmasBitByBit := by
  unfold Obligations.SmallSigmasBitByBit
  refine ⟨fun x _ => getLsbD_smallSigma0 x, fun x _ => getLsbD_smallSigma1 x, smallSigma0_xor, smallSigma1_xor, ?_⟩
  decide

/-! ### `uSCHED` (R135) -/

/-- All that counting `T` to 63 writes (R25, R26). -/
theorem advance_eq (after : Phase) (s : State) : advance after s =
    { s with
      phase := if s.t.toNat = 63 then after else s.phase
      t := if s.t.toNat = 63 then 0 else s.t + 1 } := by
  unfold advance
  split <;> rfl

/-- All that a draw writes (R15). -/
theorem noteDraw_eq (d : Bool) (s : State) :
    noteDraw d s = { s with draws := if d then s.draws + 1 else s.draws } := by
  cases d <;> rfl

/-- What `uSCHED` leaves (R135). -/
def scheduled (s : State) : State :=
  holdIfStep (noteDraw (nextSchedUnwritten s s.t.toNat) (advance .load
    { s with w := Memory.write s.t.toNat (nextSchedWord s s.t.toNat) s.w }))

theorem exec_uSched_of_selected {s : State} (hp : s.phase = .sched) (hh : s.halt = false) :
    exec .uSched s = .next (scheduled s) :=
  if_pos ((selected_iff _ _).2 ⟨hp, hh⟩)

/-- The hold is `CFG.STEP` where the engine was running (R33). -/
theorem scheduled_of_running {s : State} (hh : s.halt = false) :
    scheduled s = { s with
      w := (scheduled s).w, phase := (scheduled s).phase, t := (scheduled s).t, halt := s.cfg.getLsbD 0
      draws := (scheduled s).draws } := by
  simp only [scheduled, noteDraw_eq, advance_eq, holdIfStep, hh, Bool.false_or]

/-- `W` after `uSCHED`, word by word. -/
theorem read?_scheduled_w (s : State) (j : Nat) : Memory.read? j (scheduled s).w =
    if j = s.t.toNat then some (nextSchedWord s s.t.toNat) else Memory.read? j s.w := by
  simp only [scheduled, holdIfStep_w, noteDraw_w, advance_w, Memory.read?_write]

theorem scheduled_draws {s : State} (h : nextSchedUnwritten s s.t.toNat = false) :
    (scheduled s).draws = s.draws := by
  simp [scheduled, h]

/-- The first 16 words are the words of the block (R134). -/
theorem nextSched_of_block {s : State} {t : Nat} {b0 b1 b2 b3 : Byte} (ht : t ≤ 15)
    (h0 : Memory.read? (4 * t) s.buf = some b0) (h1 : Memory.read? (4 * t + 1) s.buf = some b1)
    (h2 : Memory.read? (4 * t + 2) s.buf = some b2) (h3 : Memory.read? (4 * t + 3) s.buf = some b3) :
    nextSchedWord s t = wordOfBytes b0 b1 b2 b3 ∧ nextSchedUnwritten s t = false := by
  constructor
  · rw [nextSchedWord, if_pos ht, blkWord, bufByte_of_read h0, bufByte_of_read h1, bufByte_of_read h2,
      bufByte_of_read h3]
  · simp [nextSchedUnwritten, ht, blkUnwritten, bufUnwritten, h0, h1, h2, h3]

/-- The other 48 words are those of the recurrence (R134). -/
theorem nextSched_of_recurrence {s : State} {t : Nat} {w2 w7 w15 w16 : Word} (ht : 16 ≤ t)
    (h2 : Memory.read? (t - 2) s.w = some w2) (h7 : Memory.read? (t - 7) s.w = some w7)
    (h15 : Memory.read? (t - 15) s.w = some w15) (h16 : Memory.read? (t - 16) s.w = some w16) :
    nextSchedWord s t = expandWord w2 w7 w15 w16 ∧ nextSchedUnwritten s t = false := by
  have ht' : ¬ t ≤ 15 := by omega
  constructor
  · rw [nextSchedWord, if_neg ht', schedWord_of_read h2, schedWord_of_read h7, schedWord_of_read h15,
      schedWord_of_read h16]
  · simp [nextSchedUnwritten, ht', schedUnwritten, h2, h7, h15, h16]

theorem scheduled_position_of_last {s : State} (ht : s.t.toNat = 63) :
    (scheduled s).phase = .load ∧ (scheduled s).t = 0 := by
  simp [scheduled, ht]

theorem scheduled_position_of_more {s : State} (hp : s.phase = .sched) (ht : s.t.toNat ≠ 63) :
    (scheduled s).phase = .sched ∧ (scheduled s).t.toNat = s.t.toNat + 1 := by
  refine ⟨by simp [scheduled, ht, hp], ?_⟩
  rw [← toNat_t_succ ht]
  simp [scheduled, ht]

/-- Settles O36: the word by the two cases of R134, the position, the frame. -/
theorem uSchedWritesOneWord : Obligations.USchedWritesOneWord := by
  unfold Obligations.USchedWritesOneWord
  intro s hp hh
  refine ⟨scheduled s, nextSchedWord s s.t.toNat, exec_uSched_of_selected hp hh, read?_scheduled_w s,
    fun b0 b1 b2 b3 ht h0 h1 h2 h3 => ?_, fun w2 w7 w15 w16 ht h2 h7 h15 h16 => ?_, scheduled_position_of_last,
    scheduled_position_of_more hp, scheduled_of_running hh⟩
  · obtain ⟨hword, hwritten⟩ := nextSched_of_block ht h0 h1 h2 h3
    exact ⟨hword, scheduled_draws hwritten⟩
  · obtain ⟨hword, hwritten⟩ := nextSched_of_recurrence ht h2 h7 h15 h16
    exact ⟨hword, scheduled_draws hwritten⟩

end Sys2Proof.Machine
end

section
/-! SUPPORT. The compression: the functions of a round bit by bit (R141 to R144), what `uLOAD` and `uROUND` leave (R146,
R147), and the 130 steps from a full buffer to the next hash state (R134, R145, R156). -/

namespace Sys2Proof.Machine

/-! ### The functions of a round (R141 to R144) -/

theorem getLsbD_bigSigma0 (x : Word) {i : Nat} (hi : i < 32) : (bigSigma0 x).getLsbD i =
    (x.getLsbD ((i + 2) % 32) ^^ x.getLsbD ((i + 13) % 32) ^^ x.getLsbD ((i + 22) % 32)) := by
  simp only [bigSigma0, BitVec.getLsbD_xor, getLsbD_rotr x _ hi, Nat.reduceLT]

theorem getLsbD_bigSigma1 (x : Word) {i : Nat} (hi : i < 32) : (bigSigma1 x).getLsbD i =
    (x.getLsbD ((i + 6) % 32) ^^ x.getLsbD ((i + 11) % 32) ^^ x.getLsbD ((i + 25) % 32)) := by
  simp only [bigSigma1, BitVec.getLsbD_xor, getLsbD_rotr x _ hi, Nat.reduceLT]

/-- Bit `i` of `x` chooses; past the word all three are 0 (R143). -/
theorem getLsbD_ch (x y z : Word) (i : Nat) :
    (ch x y z).getLsbD i = if x.getLsbD i then y.getLsbD i else z.getLsbD i := by
  simp only [ch, BitVec.getLsbD_xor, BitVec.getLsbD_and, BitVec.getLsbD_not]
  by_cases hi : i < 32
  · cases x.getLsbD i <;> simp [hi]
  · simp [BitVec.getLsbD_of_ge _ i (not_lt.1 hi)]

/-- At least two of the three bits (R144). -/
theorem getLsbD_maj (x y z : Word) (i : Nat) : (maj x y z).getLsbD i =
    ((x.getLsbD i && y.getLsbD i) || (x.getLsbD i && z.getLsbD i) || (y.getLsbD i && z.getLsbD i)) := by
  simp only [maj, BitVec.getLsbD_xor, BitVec.getLsbD_and]
  cases x.getLsbD i <;> cases y.getLsbD i <;> cases z.getLsbD i <;> rfl

theorem ch_zero (y z : Word) : ch 0 y z = z :=
  BitVec.eq_of_getLsbD_eq fun i _ => by simp [getLsbD_ch]

theorem ch_allOnes (y z : Word) : ch (BitVec.allOnes 32) y z = y :=
  BitVec.eq_of_getLsbD_eq fun i hi => by rw [getLsbD_ch, BitVec.getLsbD_allOnes, decide_eq_true hi, if_pos rfl]

theorem maj_self (x z : Word) : maj x x z = x :=
  BitVec.eq_of_getLsbD_eq fun i _ => by
    rw [getLsbD_maj]
    cases x.getLsbD i <;> rfl

/-- Settles O44: the bits, then the printed values, those of `Ch` and `Maj` for every other word from the bits. -/
theorem roundFunctionsBitByBit : Obligations.RoundFunctionsBitByBit := by
  unfold Obligations.RoundFunctionsBitByBit
  refine ⟨fun x _ => getLsbD_bigSigma0 x, fun x _ => getLsbD_bigSigma1 x, getLsbD_ch, getLsbD_maj, ?_⟩
  exact ⟨rfl, rfl, rfl, rfl, rfl, rfl, rfl, rfl, rfl, rfl, ch_zero, ch_allOnes, rfl, maj_self, rfl, rfl, rfl, rfl⟩

/-! ### The end of a micro-operation -/

/-- The hold is `CFG.STEP` where the engine was running (R33). -/
theorem holdIfStep_of_running {s : State} (hh : s.halt = false) :
    holdIfStep s = { s with halt := s.cfg.getLsbD 0 } := by
  simp only [holdIfStep, hh, Bool.false_or]

/-- With `STEP = 0` nothing is held (R33). -/
theorem holdIfStep_of_free {s : State} (hstep : s.cfg.getLsbD 0 = false) : holdIfStep s = s := by
  simp only [holdIfStep, hstep, Bool.or_false]

/-- A `uSCHED` that draws and holds nothing writes its word and counts `T` (R135). -/
theorem scheduled_of_free {s : State} (hfree : s.cfg.getLsbD 0 = false)
    (h : nextSchedUnwritten s s.t.toNat = false) :
    scheduled s = advance .load { s with w := Memory.write s.t.toNat (nextSchedWord s s.t.toNat) s.w } := by
  rw [scheduled, h, noteDraw_false]
  exact holdIfStep_of_free (by rwa [advance_cfg])

/-! ### `uLOAD` (R146) -/

theorem exec_uLoad_of_selected {s : State} (hp : s.phase = .load) (hh : s.halt = false) :
    exec .uLoad s = .next (holdIfStep { s with r := s.h, phase := .rounds, t := 0 }) :=
  if_pos ((selected_iff _ _).2 ⟨hp, hh⟩)

/-- Settles O37: the selected micro-operation, and the hold of a running engine. -/
theorem uLoadCopiesHashState : Obligations.ULoadCopiesHashState := by
  unfold Obligations.ULoadCopiesHashState
  intro s hp hh
  exact (exec_uLoad_of_selected hp hh).trans (congrArg _ (holdIfStep_of_running hh))

/-! ### `uROUND` (R147) -/

/-- What `uROUND` leaves (R147). -/
def rounded (s : State) : State :=
  holdIfStep (noteDraw (schedUnwritten s s.t.toNat) (advance .accum
    { s with r := compressRound (schedWord s s.t.toNat) (roundConstant s.t) s.r }))

theorem exec_uRound_of_selected {s : State} (hp : s.phase = .rounds) (hh : s.halt = false) :
    exec .uRound s = .next (rounded s) :=
  if_pos ((selected_iff _ _).2 ⟨hp, hh⟩)

theorem rounded_of_running {s : State} (hh : s.halt = false) :
    rounded s = { s with
      r := (rounded s).r, phase := (rounded s).phase, t := (rounded s).t, halt := s.cfg.getLsbD 0
      draws := (rounded s).draws } := by
  simp only [rounded, noteDraw_eq, advance_eq, holdIfStep, hh, Bool.false_or]

theorem rounded_r (s : State) :
    (rounded s).r = compressRound (schedWord s s.t.toNat) (roundConstant s.t) s.r := by
  simp [rounded]

/-- A round reads `W[T]` alone of the schedule, and draws only where it is unwritten (R15). -/
theorem rounded_draws {s : State} {v : Word} (h : Memory.read? s.t.toNat s.w = some v) :
    (rounded s).draws = s.draws := by
  simp [rounded, schedUnwritten, h]

theorem rounded_position_of_last {s : State} (ht : s.t.toNat = 63) :
    (rounded s).phase = .accum ∧ (rounded s).t = 0 := by
  simp [rounded, ht]

theorem rounded_position_of_more {s : State} (hp : s.phase = .rounds) (ht : s.t.toNat ≠ 63) :
    (rounded s).phase = .rounds ∧ (rounded s).t.toNat = s.t.toNat + 1 := by
  refine ⟨by simp [rounded, ht, hp], ?_⟩
  rw [← toNat_t_succ ht]
  simp [rounded, ht]

/-- A `uROUND` that draws and holds nothing computes its round and counts `T`. -/
theorem rounded_of_free {s : State} {v : Word} (hfree : s.cfg.getLsbD 0 = false)
    (h : Memory.read? s.t.toNat s.w = some v) :
    rounded s = advance .accum { s with r := compressRound v (roundConstant s.t) s.r } := by
  rw [rounded, schedWord_of_read h, schedUnwritten_of_written (by rw [h]; rfl), noteDraw_false]
  exact holdIfStep_of_free (by rwa [advance_cfg])

/-- Settles O38: the word, the eight registers, the position, the frame. -/
theorem uRoundPerformsOneRound : Obligations.URoundPerformsOneRound := by
  unfold Obligations.URoundPerformsOneRound
  intro s hp hh
  exact ⟨rounded s, schedWord s s.t.toNat, exec_uRound_of_selected hp hh,
    fun v hv => ⟨schedWord_of_read hv, rounded_draws hv⟩, rounded_r s, rounded_position_of_last,
    rounded_position_of_more hp, rounded_of_running hh⟩

/-! ### `uACCUM` (R156) -/

theorem exec_uAccum_of_selected {s : State} (hp : s.phase = .accum) (hh : s.halt = false) :
    exec .uAccum s = .next (holdIfStep
      { s with h := addWords s.h s.r, fill := 0, t := 0, phase := afterAccum s }) :=
  if_pos ((selected_iff _ _).2 ⟨hp, hh⟩)

/-! ### Runs of the engine alone -/

/-- The engine runs free and alone: no hold, no single steps, no input waiting (R33, R80; log entry 1). -/
structure RunsAlone (s : State) : Prop where
  halt : s.halt = false
  free : s.cfg.getLsbD 0 = false
  inputs : s.inputs = []

theorem runsAlone_quiet {s : State} (h : RunsAlone s) : RunsAlone (quiet s) := ⟨h.halt, h.free, h.inputs⟩

/-- Where no input waits there is no sample to take. -/
theorem takePins_of_no_inputs {s : State} (hin : s.inputs = []) : takePins s = s := by
  cases s
  simp_all [takePins]

/-- Where no input waits a step is the engine's turn (R70, R80). -/
theorem step_of_no_inputs {s : State} (hin : s.inputs = []) : step s = engineTurn true (quiet s) := by
  have hpins : nextPins s = enginePins := by rw [nextPins, hin]; rfl
  rw [step_of_no_transaction (by rw [hpins]; rfl) (by rw [hpins]; rfl), hpins, takePins_of_no_inputs hin]
  rfl

/-- No step reads the response pins (R80; log entry 2). -/
theorem step_quiet {s : State} (hin : s.inputs = []) : step (quiet s) = step s := by
  rw [step_of_no_inputs hin, step_of_no_inputs (s := quiet s) hin]
  rfl

theorem RunsAlone.step_eq {s : State} {i : Instr} (h : RunsAlone s) (hi : decodeMicroOp (phaseCode s.phase) = .ok i) :
    step s = exec i (quiet s) :=
  (stepRunsSelectedMicroOp s i h.halt hi (.inl h.inputs)).trans
    (congrArg (fun u => exec i (quiet u)) (takePins_of_no_inputs h.inputs))

section
variable {s : State} (h : RunsAlone s)
include h

theorem RunsAlone.step_of_sched (hp : s.phase = .sched) : step s = .next (scheduled (quiet s)) :=
  (h.step_eq (by rw [hp]; rfl)).trans (exec_uSched_of_selected hp h.halt)

theorem RunsAlone.step_of_load (hp : s.phase = .load) :
    step s = .next { quiet s with r := s.h, phase := .rounds, t := 0 } :=
  (h.step_eq (by rw [hp]; rfl)).trans
    ((exec_uLoad_of_selected (s := quiet s) hp h.halt).trans (congrArg _ (holdIfStep_of_free h.free)))

theorem RunsAlone.step_of_rounds (hp : s.phase = .rounds) : step s = .next (rounded (quiet s)) :=
  (h.step_eq (by rw [hp]; rfl)).trans (exec_uRound_of_selected hp h.halt)

theorem RunsAlone.step_of_accum (hp : s.phase = .accum) :
    step s = .next { quiet s with h := addWords s.h s.r, fill := 0, t := 0, phase := afterAccum s } :=
  (h.step_eq (by rw [hp]; rfl)).trans
    ((exec_uAccum_of_selected (s := quiet s) hp h.halt).trans (congrArg _ (holdIfStep_of_free h.free)))

end

section
variable {M : Host.Core}

theorem run_succ_of_step {s t : M.State} (h : M.step s = .next t) (n : Nat) : M.run (n + 1) s = M.run n t := by
  rw [Host.Core.run, h]

/-- A run sees of its first state only what the first step makes of it. -/
theorem run_succ_congr {s s' : M.State} (h : M.step s = M.step s') (n : Nat) : M.run (n + 1) s = M.run (n + 1) s' := by
  rw [Host.Core.run, h, Host.Core.run]

/-- A run along a sequence of states each of which steps to the next. -/
theorem run_of_steps (n m : Nat) : ∀ {f : Nat → M.State}, (∀ k, k < n → M.step (f k) = .next (f (k + 1))) →
    M.run (n + m) (f 0) = M.run m (f n) := by
  induction n with
  | zero => intros; rw [Nat.zero_add]
  | succ n ih =>
    intro f h
    rw [Nat.add_right_comm, run_succ_of_step (h 0 n.succ_pos)]
    exact ih (f := fun k => f (k + 1)) fun k hk => h (k + 1) (Nat.succ_lt_succ hk)

end

/-! ### The words of the schedule in `W` (R134) -/

/-- A run of writes and then one more (R12). -/
theorem writeAll_concat {α : Type} (v : α) (vs : List α) : ∀ (j : Nat) (m : List (Nat × α)),
    Memory.writeAll j (vs ++ [v]) m = Memory.write (j + vs.length) v (Memory.writeAll j vs m) := by
  induction vs with
  | nil => exact fun _ _ => rfl
  | cons x vs ih =>
    intro j m
    rw [List.cons_append, Memory.writeAll, ih, Memory.writeAll, List.length_cons, Nat.add_right_comm, Nat.add_assoc]

/-- A byte of a full buffer reads as the block has it. -/
theorem read?_buf_of_written {s : State} (hbuf : WrittenBelow 64 s.buf) {j : Nat} (hj : j < 64) :
    Memory.read? j s.buf = some ((bufBlock s).getD j 0) := by
  obtain ⟨b, hb⟩ := Option.isSome_iff_exists.1 (hbuf j hj)
  simp [bufBlock, bufByte, hb, hj]

/-- With the block in `BUF` and the first words of its schedule in `W`, `uSCHED` computes the next word of the schedule,
and draws nothing. -/
theorem nextSched_of_schedulePrefix {s : State} {block : List Byte} {n : Nat} (hn : n < 64)
    (hbuf : ∀ j, j < 64 → Memory.read? j s.buf = some (block.getD j 0))
    (hw : ∀ i, i < n → Memory.read? i s.w = some ((schedule block).getD i 0)) :
    nextSchedWord s n = scheduleNext block (scheduleUpTo block n) n ∧ nextSchedUnwritten s n = false := by
  unfold scheduleNext
  by_cases hfirst : n ≤ 15
  · rw [if_pos hfirst]
    exact nextSched_of_block hfirst (hbuf _ (by omega)) (hbuf _ (by omega)) (hbuf _ (by omega)) (hbuf _ (by omega))
  · have hback : ∀ k, 0 < k → k ≤ 16 →
        Memory.read? (n - k) s.w = some ((scheduleUpTo block n).getD (n - k) 0) := fun k h0 hk => by
      rw [hw _ (by omega), scheduleUpTo_getD block (by omega) hn.le]
    rw [if_neg hfirst]
    exact nextSched_of_recurrence (by omega) (hback 2 (by omega) (by omega)) (hback 7 (by omega) (by omega))
      (hback 15 (by omega) (by omega)) (hback 16 (by omega) (by omega))

/-- Where `W` is written from 0 on, it holds the words in order. -/
theorem read?_writeAll_zero (ws : List Word) (m : List (Nat × Word)) {i : Nat} (hi : i < ws.length) :
    Memory.read? i (Memory.writeAll 0 ws m) = some (ws.getD i 0) := by
  rw [Memory.read?_writeAll, if_pos (by omega), Nat.sub_zero, List.getD_eq_getElem?_getD, List.getElem?_eq_getElem hi,
    Option.getD_some]

theorem read?_writeAll_scheduleUpTo (block : List Byte) (m : List (Nat × Word)) {i n : Nat} (hi : i < n)
    (hn : n ≤ 64) :
    Memory.read? i (Memory.writeAll 0 (scheduleUpTo block n) m) = some ((schedule block).getD i 0) := by
  rw [read?_writeAll_zero _ _ (by rwa [length_scheduleUpTo]), scheduleUpTo_getD block hi hn]

/-! ### The states of a compression -/

/-- The counter moves on, and at 64, which is 0 in six bits, the phase is over (R25, R26). -/
theorem advance_of_t_eq {s : State} {n : Nat} (after : Phase) (hn : n < 64) (ht : s.t = BitVec.ofNat 6 n) :
    advance after s =
      { s with phase := if n + 1 = 64 then after else s.phase, t := BitVec.ofNat 6 (n + 1) } := by
  have htn : s.t.toNat = n := by rw [ht, BitVec.toNat_ofNat, Nat.mod_eq_of_lt hn]
  rw [advance_eq, htn]
  by_cases hlast : n = 63
  · subst hlast
    rfl
  · rw [if_neg hlast, if_neg hlast, if_neg (by omega), ht, BitVec.ofNat_add]
    rfl

section
variable {ws : List Word} {v : Words8} {n : Nat} {s : State}

/-- The first `n` words of a schedule, `ws`, are written (R135). -/
def expanding (ws : List Word) (n : Nat) (s : State) : State :=
  { s with
    w := Memory.writeAll 0 ws s.w
    phase := if n = 64 then .load else .sched
    t := BitVec.ofNat 6 n }

/-- The schedule `ws` is written, `n` rounds are done, and `v` is what they made of `a..h` (R146, R147). -/
def compressing (ws : List Word) (v : Words8) (n : Nat) (s : State) : State :=
  { s with
    r := v
    w := Memory.writeAll 0 ws s.w
    phase := if n = 64 then .accum else .rounds
    t := BitVec.ofNat 6 n }

/-- What the rounds made of `a..h` is added to the hash state (R156). -/
def accumulated (ws : List Word) (v : Words8) (s : State) : State :=
  { s with
    h := addWords s.h v
    r := v
    w := Memory.writeAll 0 ws s.w
    fill := 0, t := 0, phase := afterAccum s }

theorem expanding_nil_zero (hp : s.phase = .sched) (ht : s.t = 0) : expanding [] 0 s = s := by
  cases s
  simp_all [expanding, Memory.writeAll]

theorem runsAlone_expanding (h : RunsAlone s) : RunsAlone (expanding ws n s) := ⟨h.halt, h.free, h.inputs⟩

theorem runsAlone_compressing (h : RunsAlone s) : RunsAlone (compressing ws v n s) := ⟨h.halt, h.free, h.inputs⟩

theorem quiet_expanding : quiet (expanding ws n s) = expanding ws n (quiet s) := rfl

theorem quiet_compressing : quiet (compressing ws v n s) = compressing ws v n (quiet s) := rfl

theorem scheduled_expanding {block : List Byte} (hfree : s.cfg.getLsbD 0 = false)
    (hbuf : ∀ j, j < 64 → Memory.read? j s.buf = some (block.getD j 0)) (hn : n < 64) :
    scheduled (expanding (scheduleUpTo block n) n s) = expanding (scheduleUpTo block (n + 1)) (n + 1) s := by
  have ht : (expanding (scheduleUpTo block n) n s).t.toNat = n := Nat.mod_eq_of_lt hn
  obtain ⟨hword, hwritten⟩ := nextSched_of_schedulePrefix (s := expanding (scheduleUpTo block n) n s) hn hbuf
    fun _ hi => read?_writeAll_scheduleUpTo _ _ hi hn.le
  rw [scheduled_of_free (s := expanding _ n s) hfree (by rw [ht, hwritten]), ht, hword, advance_of_t_eq _ hn rfl]
  simp only [expanding, scheduleUpTo, writeAll_concat, length_scheduleUpTo, Nat.zero_add, if_neg hn.ne]

theorem rounded_compressing (hfree : s.cfg.getLsbD 0 = false) (hlen : ws.length = 64) (hn : n < 64) :
    rounded (compressing ws v n s) =
      compressing ws (compressRound (ws.getD n 0) (roundConstant (BitVec.ofNat 6 n)) v) (n + 1) s := by
  have ht : (compressing ws v n s).t.toNat = n := Nat.mod_eq_of_lt hn
  have hread : Memory.read? n (compressing ws v n s).w = some (ws.getD n 0) :=
    read?_writeAll_zero ws s.w (by omega)
  rw [rounded_of_free (s := compressing ws v n s) hfree (by rw [ht, hread]), advance_of_t_eq _ hn rfl]
  simp only [compressing, if_neg hn.ne]

/-! ### The 130 steps -/

theorem step_expanding {block : List Byte} (hs : RunsAlone s)
    (hbuf : ∀ j, j < 64 → Memory.read? j s.buf = some (block.getD j 0)) (hn : n < 64) :
    step (expanding (scheduleUpTo block n) n s) =
      .next (expanding (scheduleUpTo block (n + 1)) (n + 1) (quiet s)) := by
  rw [(runsAlone_expanding hs).step_of_sched (if_neg hn.ne), quiet_expanding,
    scheduled_expanding (s := quiet s) hs.free hbuf hn]

theorem step_expanding_last (hs : RunsAlone s) :
    step (expanding ws 64 s) = .next (compressing ws s.h 0 (quiet s)) :=
  (runsAlone_expanding hs).step_of_load rfl

theorem step_compressing (hs : RunsAlone s) (hlen : ws.length = 64) (hn : n < 64) :
    step (compressing ws v n s) = .next
      (compressing ws (compressRound (ws.getD n 0) (roundConstant (BitVec.ofNat 6 n)) v) (n + 1) (quiet s)) := by
  rw [(runsAlone_compressing hs).step_of_rounds (if_neg hn.ne), quiet_compressing,
    rounded_compressing (s := quiet s) hs.free hlen hn]

theorem step_compressing_last (hs : RunsAlone s) :
    step (compressing ws v 64 s) = .next (accumulated ws v (quiet s)) :=
  (runsAlone_compressing hs).step_of_accum rfl

theorem run_expanding {block : List Byte} (hs : RunsAlone s)
    (hbuf : ∀ j, j < 64 → Memory.read? j s.buf = some (block.getD j 0)) (m : Nat) :
    core.run (64 + m) (expanding [] 0 (quiet s)) = core.run m (expanding (schedule block) 64 (quiet s)) :=
  run_of_steps (M := core) (f := fun n => expanding (scheduleUpTo block n) n (quiet s)) 64 m fun _ =>
    step_expanding (runsAlone_quiet hs) hbuf

theorem run_compressing (hs : RunsAlone s) (hlen : ws.length = 64) (m : Nat) :
    core.run (64 + m) (compressing ws s.h 0 (quiet s)) =
      core.run m (compressing ws (roundsUpTo s.h ws 64) 64 (quiet s)) :=
  run_of_steps (M := core) (f := fun n => compressing ws (roundsUpTo s.h ws n) n (quiet s)) 64 m fun _ =>
    step_compressing (runsAlone_quiet hs) hlen

/-- 64 words, `uLOAD`, 64 rounds, `uACCUM` (R250); the response pins are quiet from the first step on. -/
theorem run_block {block : List Byte} (hs : RunsAlone s) (hp : s.phase = .sched) (ht : s.t = 0)
    (hbuf : ∀ j, j < 64 → Memory.read? j s.buf = some (block.getD j 0)) :
    core.run 130 s = .next (accumulated (schedule block) (roundsUpTo s.h (schedule block) 64) (quiet s)) := by
  have hlen : (schedule block).length = 64 := length_scheduleUpTo block 64
  have hwords := run_expanding hs hbuf 66
  generalize schedule block = ws at hlen hwords ⊢
  calc core.run 130 s
      = core.run 130 (quiet s) := (run_succ_congr (step_quiet hs.inputs) 129).symm
    _ = core.run 130 (expanding [] 0 (quiet s)) := by rw [expanding_nil_zero (s := quiet s) hp ht]
    _ = core.run 66 (expanding ws 64 (quiet s)) := hwords
    _ = core.run 65 (compressing ws s.h 0 (quiet s)) :=
      run_succ_of_step (step_expanding_last (runsAlone_quiet hs)) 65
    _ = core.run 1 (compressing ws (roundsUpTo s.h ws 64) 64 (quiet s)) := run_compressing hs hlen 1
    _ = core.run 0 (accumulated ws (roundsUpTo s.h ws 64) (quiet s)) :=
      run_succ_of_step (step_compressing_last (runsAlone_quiet hs)) 0

/-- What the 130 steps leave, and that they write no other field. -/
theorem accumulated_quiet (ht : s.t = 0) {u : State} (hu : u = accumulated ws v (quiet s)) :
    u.h = addWords s.h v ∧ u.phase = afterAccum s ∧ u.fill = 0 ∧ u.t = 0 ∧ u.buf = s.buf ∧
      u = { s with
        h := u.h, r := u.r, w := u.w, phase := u.phase, fill := u.fill, rspRdata := 0, rspErr := false } := by
  subst hu
  refine ⟨rfl, rfl, rfl, rfl, rfl, ?_⟩
  rw [ht]
  rfl

end

theorem compress_eq (start : Words8) (ws : List Word) :
    compress start ws = addWords start (roundsUpTo start ws 64) := rfl

/-- Settles O56: the run of the block in `BUF`, and what it leaves. -/
theorem engineCompressesBlockIn130Steps : Obligations.EngineCompressesBlockIn130Steps := by
  unfold Obligations.EngineCompressesBlockIn130Steps
  intro s hp ht hh hfree hbuf hin
  have hrun := run_block ⟨hh, hfree, hin⟩ hp ht fun _ => read?_buf_of_written hbuf
  rw [compress_eq]
  exact ⟨_, hrun, accumulated_quiet ht rfl⟩

end Sys2Proof.Machine
end

section
/-! SUPPORT. The relation between the state and the message accepted so far (R164): the padded message as the padder
writes it (R110, R112), what every instruction makes of the relation, and that every step keeps it (R113, R163). -/

namespace Sys2Proof.Machine

/-! ### The padded message as the padder writes it (R106, R110, R112) -/

/-- The padding in bytes, its zero count not yet split by the room for the length (R106). -/
theorem paddedBytes_eq (m : List Byte) : paddedBytes m =
    m ++ 0x80 :: List.replicate ((119 - m.length % 64) % 64) 0x00 ++ be64 (BitVec.ofNat 64 (8 * m.length)) := by
  rw [paddedBytes, pad_messageBitString (zeroCount_bytes m.length), ← List.append_nil (messageBitString _),
    bytesOfBits_messageBitString, bytesOfBits_nil, List.append_nil]
  simp

/-- With room for the length the bytes of `uPAD1` end the padded message (R110). -/
theorem paddedBytes_of_room {m : List Byte} (h : m.length % 64 ≤ 55) :
    paddedBytes m = m ++ padTail (m.length % 64) (BitVec.ofNat 64 (8 * m.length)) := by
  rw [paddedBytes_eq, padTail, if_pos h, show (119 - m.length % 64) % 64 = 55 - m.length % 64 by omega]
  simp

/-- Without it the block of `uPAD2` follows them (R111, R112). -/
theorem paddedBytes_of_no_room {m : List Byte} (h : 56 ≤ m.length % 64) :
    paddedBytes m = m ++ padTail (m.length % 64) (BitVec.ofNat 64 (8 * m.length)) ++
      padBlock (BitVec.ofNat 64 (8 * m.length)) := by
  have hzeros : (119 - m.length % 64) % 64 = (63 - m.length % 64) + 56 := by omega
  rw [paddedBytes_eq, padTail, if_neg (by omega), padBlock, hzeros, List.replicate_add]
  simp

/-- In both cases the bytes of `uPAD1` follow the message. -/
theorem exists_paddedBytes_eq_append (m : List Byte) : ∃ l,
    paddedBytes m = m ++ padTail (m.length % 64) (BitVec.ofNat 64 (8 * m.length)) ++ l := by
  rcases le_or_gt (m.length % 64) 55 with hroom | hnone
  · exact ⟨[], by rw [paddedBytes_of_room hroom, List.append_nil]⟩
  · exact ⟨_, paddedBytes_of_no_room hnone⟩

theorem length_paddedBytes_of_room {m : List Byte} (h : m.length % 64 ≤ 55) :
    (paddedBytes m).length = 64 * (m.length / 64 + 1) := by
  rw [paddedBytes_of_room h, List.length_append, length_padTail (by omega)]
  omega

theorem length_paddedBytes_of_no_room {m : List Byte} (h : 56 ≤ m.length % 64) :
    (paddedBytes m).length = 64 * (m.length / 64 + 2) := by
  rw [paddedBytes_of_no_room h, List.length_append, List.length_append, length_padTail (by omega), length_padBlock]
  omega

/-- Where `BUF` or `W` holds the start of a block of a stream, a run of writes of what follows in the stream holds on to
it. -/
theorem read?_writeAll_of_stream {α : Type} {stream before vs after : List α} {p n : Nat} {mem : List (Nat × α)}
    (hstream : stream = before ++ vs ++ after) (hbefore : before.length = p + n)
    (hmem : ∀ j, j < n → Memory.read? j mem = stream[p + j]?) {j : Nat} (hj : j < n + vs.length) :
    Memory.read? j (Memory.writeAll n vs mem) = stream[p + j]? := by
  rw [Memory.read?_writeAll]
  by_cases hn : n ≤ j
  · rw [if_pos ⟨hn, hj⟩, hstream, List.append_assoc, List.getElem?_append_right (by omega),
      List.getElem?_append_left (by omega)]
    congr 1
    omega
  · rw [if_neg (by omega)]
    exact hmem j (by omega)

/-! ### The progress of each phase (R164) -/

section
variable {bs : List Byte} {q : Nat} {s : State}

theorem progress_accept (hp : s.phase = .accept) : Progress bs q s ↔ s.h = hashAfter bs q ∧
    q = s.nbytes.toNat / 64 ∧ ∀ j, j < s.fill.toNat → Memory.read? j s.buf = bs[64 * q + j]? := by
  rw [Progress, hp]

theorem progress_pad1 (hp : s.phase = .pad1) : Progress bs q s ↔ s.h = hashAfter bs q ∧
    q = s.nbytes.toNat / 64 ∧ ∀ j, j < s.fill.toNat → Memory.read? j s.buf = bs[64 * q + j]? := by
  rw [Progress, hp]

theorem progress_sched (hp : s.phase = .sched) : Progress bs q s ↔ s.h = hashAfter bs q ∧
    BlockInBuf bs q s ∧ SchedulePrefix bs q s.t.toNat s := by
  rw [Progress, hp]

theorem progress_load (hp : s.phase = .load) : Progress bs q s ↔ s.h = hashAfter bs q ∧
    BlockInBuf bs q s ∧ SchedulePrefix bs q 64 s := by
  rw [Progress, hp]

theorem progress_rounds (hp : s.phase = .rounds) : Progress bs q s ↔ s.h = hashAfter bs q ∧
    BlockInBuf bs q s ∧ SchedulePrefix bs q 64 s ∧
    s.r = roundsUpTo (hashAfter bs q) (schedule (byteBlock q bs)) s.t.toNat := by
  rw [Progress, hp]

theorem progress_accum (hp : s.phase = .accum) : Progress bs q s ↔ s.h = hashAfter bs q ∧
    BlockInBuf bs q s ∧ SchedulePrefix bs q 64 s ∧
    s.r = roundsUpTo (hashAfter bs q) (schedule (byteBlock q bs)) 64 := by
  rw [Progress, hp]

theorem progress_pad2 (hp : s.phase = .pad2) : Progress bs q s ↔ s.h = hashAfter bs q ∧
    64 * (q + 1) = bs.length ∧ s.nbytes.toNat < 64 * q := by
  rw [Progress, hp]

theorem progress_done (hp : s.phase = .done) : Progress bs q s ↔ s.h = hashAfter bs q ∧
    64 * q = bs.length ∧ BlockDone bs (q - 1) s := by
  rw [Progress, hp]

end

@[simp] theorem hashStream_false (m : List Byte) : hashStream false m = m := rfl

@[simp] theorem hashStream_true (m : List Byte) : hashStream true m = paddedBytes m := rfl

/-! ### A new message (R53, R191) -/

/-- An empty buffer in `ACCEPT` with the initial hash state has hashed nothing. -/
theorem hashing_nil_of_empty {s : State} (hi : s.Inv) (hh : s.h = initialValue) (hp : s.phase = .accept)
    (hfill : s.fill = 0) (hn : s.nbytes = 0) : Hashing [] s := by
  refine ⟨hi, by rw [hn]; rfl, 0, (progress_accept hp).2 ⟨hh, by rw [hn]; rfl, fun j hj => ?_⟩⟩
  rw [hfill] at hj
  exact absurd hj (Nat.not_lt_zero j)

theorem hashing_reset : Hashing [] State.reset :=
  hashing_nil_of_empty resetStateIsSound rfl rfl rfl rfl

theorem hashing_hardReset (s : State) : Hashing [] (hardReset s) := (sameData_hardReset s).hashing hashing_reset

theorem hashing_initMessage {s : State} (hi : s.Inv) : Hashing [] (initMessage s) :=
  hashing_nil_of_empty (inv_initMessage hi) rfl rfl rfl rfl

/-- Settles O53: both are an empty buffer with the initial hash state. -/
theorem newMessageHashesNothing : Obligations.NewMessageHashesNothing := by
  unfold Obligations.NewMessageHashesNothing
  refine ⟨hashing_reset, fun s t hi hinit => ?_⟩
  cases hinit
  exact (sameData_respond 0 _).hashing (hashing_initMessage hi)

/-! ### A byte and the end of the message (R108, R192) -/

/-- In `ACCEPT` the accepted bytes are whole blocks and those in `BUF` (R34). -/
theorem Hashing.length_of_accept {m : List Byte} {s : State} (hm : Hashing m s) (hp : s.phase = .accept) :
    s.fill.toNat ≤ 63 ∧ m.length = 64 * (s.nbytes.toNat / 64) + s.fill.toNat := by
  obtain ⟨hfill, hmod, _⟩ := (phaseFacts_accept hp).1 hm.inv.phaseFacts
  have := hm.count
  exact ⟨hfill, by omega⟩

/-- What `ACCEPT` says of a message without its `FINAL`. -/
theorem Hashing.of_accept {m : List Byte} {s : State} (hm : Hashing m s) (hp : s.phase = .accept) :
    s.fin = false ∧ s.h = hashAfter m (s.nbytes.toNat / 64) ∧
      ∀ j, j < s.fill.toNat → Memory.read? j s.buf = m[64 * (s.nbytes.toNat / 64) + j]? := by
  obtain ⟨_, _, _, hfin, _⟩ := (phaseFacts_accept hp).1 hm.inv.phaseFacts
  obtain ⟨q, hq⟩ := hm.progress
  obtain ⟨hh, rfl, hbuf⟩ := (progress_accept hp).1 hq
  rw [hfin] at hh hbuf
  exact ⟨hfin, hh, hbuf⟩

theorem lengthFull_eq_false_iff (s : State) : lengthFull s = false ↔ s.nbytes.toNat ≠ 2 ^ 61 - 1 := by
  simp [lengthFull]

/-- `BUF` after an accepted byte holds one byte more of the message (R108). -/
theorem Hashing.read?_pushed_buf {m : List Byte} {s : State} (hm : Hashing m s) (hp : s.phase = .accept) (b : Byte)
    {j : Nat} (hj : j < s.fill.toNat + 1) :
    Memory.read? j (pushed b s).buf = (m ++ [b])[64 * (s.nbytes.toNat / 64) + j]? := by
  obtain ⟨_, hlen⟩ := hm.length_of_accept hp
  obtain ⟨_, _, hbuf⟩ := hm.of_accept hp
  refine read?_writeAll_of_stream (vs := [b]) (List.append_nil _).symm hlen (fun j hj => ?_) hj
  rw [List.getElem?_append_left (by omega)]
  exact hbuf j hj

/-- An accepted byte is the next byte of the message, and the block it completes is a block of the message (R108). -/
theorem hashing_pushed {m : List Byte} {s : State} (b : Byte) (hm : Hashing m s) (hp : s.phase = .accept)
    (hroom : lengthFull s = false) : Hashing (m ++ [b]) (pushed b s) := by
  obtain ⟨hfill, hlen⟩ := hm.length_of_accept hp
  obtain ⟨hfin, hh, _⟩ := hm.of_accept hp
  have hcount : (pushed b s).nbytes.toNat = s.nbytes.toNat + 1 :=
    toNat_nbytes_succ ((lengthFull_eq_false_iff s).1 hroom)
  have hfill' : (pushed b s).fill.toNat = s.fill.toNat + 1 := toNat_fill_succ hfill
  have hlen' : (m ++ [b]).length = m.length + 1 := List.length_append
  have hbytes := fun j => hm.read?_pushed_buf hp b (j := j)
  have hstream : hashStream (pushed b s).fin (m ++ [b]) = m ++ [b] := congrArg (hashStream · _) hfin
  have hold := hm.count
  refine ⟨inv_pushed b hm.inv hp, by omega, s.nbytes.toNat / 64, ?_⟩
  rw [← hashAfter_append (by omega) [b]] at hh
  rw [hstream]
  by_cases hfull : s.fill.toNat = 63
  · have ht : (pushed b s).t.toNat = 0 := congrArg BitVec.toNat (if_pos hfull)
    have hblock : BlockInBuf (m ++ [b]) (s.nbytes.toNat / 64) (pushed b s) :=
      ⟨fun j hj => hbytes j (by omega), fun _ => by omega, fun h => absurd h (Bool.eq_false_iff.1 hfin),
        fun h => absurd h (Bool.eq_false_iff.1 hfin)⟩
    exact (progress_sched (if_pos hfull)).2 ⟨hh, hblock, fun i hi => absurd hi (by omega)⟩
  · exact (progress_accept (if_neg hfull)).2 ⟨hh, by omega, fun j hj => hbytes j (by omega)⟩

/-- `FINAL` makes the padded message the stream, which starts with the message (R192). -/
theorem hashing_final {m : List Byte} {s : State} (hm : Hashing m s) (hp : s.phase = .accept) :
    Hashing m { s with fin := true, phase := .pad1 } := by
  obtain ⟨_, hlen⟩ := hm.length_of_accept hp
  obtain ⟨_, hh, hbuf⟩ := hm.of_accept hp
  obtain ⟨l, hl⟩ := exists_paddedBytes_eq_append m
  refine ⟨inv_final hm.inv hp, hm.count, s.nbytes.toNat / 64, (progress_pad1 rfl).2 ⟨?_, rfl, fun j hj => ?_⟩⟩
  · rw [hashStream_true, hl, List.append_assoc, hashAfter_append (by omega)]
    exact hh
  · change j < s.fill.toNat at hj
    rw [hashStream_true, hl, List.append_assoc, List.getElem?_append_left (by omega)]
    exact hbuf j hj

/-! ### The padding (R110 to R112) -/

/-- The length field is that of the accepted message (R30). -/
theorem Hashing.messageBits_eq {m : List Byte} {s : State} (hm : Hashing m s) :
    messageBits s = BitVec.ofNat 64 (8 * m.length) := by
  rw [← hm.count, ← messageBits_toNat, BitVec.ofNat_toNat, BitVec.setWidth_eq]

/-- A turn of the engine that writes neither `NBYTES` nor `FIN` keeps the relation where it keeps the invariant and the
progress along the stream. -/
theorem Hashing.of_progress {m : List Byte} {s t : State} (hm : Hashing m s) (hi : t.Inv)
    (hn : t.nbytes = s.nbytes) (hfin : t.fin = s.fin)
    (h : ∀ q, Progress (hashStream s.fin m) q s → ∃ q', Progress (hashStream s.fin m) q' t) : Hashing m t := by
  obtain ⟨q, hq⟩ := hm.progress
  refine ⟨hi, by rw [hn, hm.count], ?_⟩
  rw [hfin]
  exact h q hq

/-- The padder leaves a complete block of the stream, of whose schedule no word is written (R110, R112). -/
theorem progress_startBlock {bs : List Byte} {q : Nat} {s : State} {buf : List Host.Cell} {last : Bool}
    (hh : s.h = hashAfter bs q) (hfin : s.fin = true) (hbuf : ∀ j, j < 64 → Memory.read? j buf = bs[64 * q + j]?)
    (hlast : last = true → 64 * (q + 1) = bs.length)
    (hmore : last = false → 64 * (q + 2) = bs.length ∧ s.nbytes.toNat < 64 * (q + 1)) :
    Progress bs q (startBlock buf last s) :=
  (progress_sched rfl).2 ⟨hh,
    ⟨hbuf, fun h => absurd hfin (Bool.eq_false_iff.1 h), fun _ => hlast, fun _ => hmore⟩,
    fun _ hi => absurd hi (Nat.not_lt_zero _)⟩

/-- `uPAD1` completes the last block of the message, or the one before the block of the length (R110, R111). -/
theorem hashing_padded1 {m : List Byte} {s : State} (hm : Hashing m s) (hp : s.phase = .pad1) :
    Hashing m (padded1 s) := by
  obtain ⟨hfill, hmod, _, hfin, _⟩ := (phaseFacts_pad1 hp).1 hm.inv.phaseFacts
  have hcount := hm.count
  refine hm.of_progress (inv_padded1 hm.inv hp) (startBlock_nbytes ..) (startBlock_fin ..) fun q hq => ⟨q, ?_⟩
  obtain ⟨hh, hq, hbuf⟩ := (progress_pad1 hp).1 hq
  rw [hfin, hashStream_true] at hh hbuf ⊢
  have hlen : (padTail s.fill.toNat (messageBits s)).length = 64 - s.fill.toNat := length_padTail hfill _
  obtain ⟨l, hstream⟩ : ∃ l, paddedBytes m = m ++ padTail s.fill.toNat (messageBits s) ++ l := by
    rw [hmod, hcount, hm.messageBits_eq]
    exact exists_paddedBytes_eq_append m
  refine progress_startBlock hh hfin (fun j hj => ?_) (fun hlast => ?_) fun hlast => ?_
  · exact read?_writeAll_of_stream hstream (by omega) hbuf (by omega)
  · have := of_decide_eq_true hlast
    rw [length_paddedBytes_of_room (by omega)]
    omega
  · have := of_decide_eq_false hlast
    rw [length_paddedBytes_of_no_room (by omega)]
    omega

/-- `uPAD2` writes the last block of the padded message (R112). -/
theorem hashing_padded2 {m : List Byte} {s : State} (hm : Hashing m s) (hp : s.phase = .pad2) :
    Hashing m (padded2 s) := by
  obtain ⟨_, _, hfin, _⟩ := (phaseFacts_pad2 hp).1 hm.inv.phaseFacts
  refine hm.of_progress (inv_padded2 hm.inv hp) (startBlock_nbytes ..) (startBlock_fin ..) fun q hq => ⟨q, ?_⟩
  obtain ⟨hh, hlen, _⟩ := (progress_pad2 hp).1 hq
  rw [hfin, hashStream_true] at hh hlen ⊢
  obtain ⟨before, hstream⟩ : ∃ before, paddedBytes m = before ++ padBlock (messageBits s) ++ [] := by
    have hnone : 56 ≤ m.length % 64 := hm.count ▸ le_nbytes_mod_of_pad2 hm.inv hp
    rw [hm.messageBits_eq]
    exact ⟨_, (paddedBytes_of_no_room hnone).trans (List.append_nil _).symm⟩
  have hbefore : (paddedBytes m).length = before.length + 64 := by
    rw [hstream, List.append_nil, List.length_append, length_padBlock]
  refine progress_startBlock hh hfin (fun j hj => ?_) (fun _ => hlen) (by simp)
  refine read?_writeAll_of_stream hstream (by omega) (fun j hj => absurd hj (Nat.not_lt_zero j)) ?_
  rwa [length_padBlock, Nat.zero_add]

/-! ### The work on a block (R135, R146, R147, R156) -/

section
variable {bs : List Byte} {q : Nat} {s : State}

/-- A full buffer holds the bytes of its block. -/
theorem BlockInBuf.read?_buf (hblock : BlockInBuf bs q s) (hbuf : WrittenBelow 64 s.buf) {j : Nat} (hj : j < 64) :
    Memory.read? j s.buf = some ((byteBlock q bs).getD j 0) := by
  obtain ⟨b, hb⟩ := Option.isSome_iff_exists.1 (hbuf j hj)
  rw [byteBlock_getD hj, ← hblock.1 j hj, hb, Option.getD_some]

theorem schedule_getElem?_getD (block : List Byte) {i : Nat} (hi : i < 64) :
    (schedule block)[i]? = some ((schedule block).getD i 0) := by
  rw [List.getD_eq_getElem?_getD, schedule_getElem? block hi, Option.getD_some]

theorem SchedulePrefix.read?_w {n : Nat} (hw : SchedulePrefix bs q n s) (hn : n ≤ 64) {i : Nat} (hi : i < n) :
    Memory.read? i s.w = some ((schedule (byteBlock q bs)).getD i 0) :=
  (hw i hi).trans (schedule_getElem?_getD _ (by omega))

/-- The word `uSCHED` writes is the next word of the schedule of the block (R135). -/
theorem SchedulePrefix.write_next (hblock : BlockInBuf bs q s) (hbuf : WrittenBelow 64 s.buf) {n : Nat} (hn : n < 64)
    (hw : SchedulePrefix bs q n s) {i : Nat} (hi : i < n + 1) :
    Memory.read? i (Memory.write n (nextSchedWord s n) s.w) = (schedule (byteBlock q bs))[i]? := by
  rw [Memory.read?_write]
  split_ifs with hin
  · obtain ⟨hword, _⟩ := nextSched_of_schedulePrefix hn (fun _ => hblock.read?_buf hbuf) fun _ => hw.read?_w hn.le
    rw [hword, hin, schedule_getElem? _ hn]
  · exact hw i (by omega)

end

/-- `uSCHED` extends the schedule by a word (R135). -/
theorem hashing_scheduled {m : List Byte} {s : State} (hm : Hashing m s) (hp : s.phase = .sched) :
    Hashing m (advance .load { s with w := Memory.write s.t.toNat (nextSchedWord s s.t.toNat) s.w }) := by
  obtain ⟨_, hbuf, _⟩ := (phaseFacts_sched hp).1 hm.inv.phaseFacts
  refine hm.of_progress (inv_scheduled _ hm.inv hp) (by simp) (by simp) fun q hq => ⟨q, ?_⟩
  obtain ⟨hh, hblock, hw⟩ := (progress_sched hp).1 hq
  have hw' := fun i => hw.write_next hblock hbuf s.t.isLt (i := i)
  rw [advance_eq]
  by_cases hlast : s.t.toNat = 63
  · exact (progress_load (if_pos hlast)).2 ⟨hh, hblock, fun i hi => hw' i (by omega)⟩
  · refine (progress_sched ((if_neg hlast).trans hp)).2 ⟨hh, hblock, fun i hi => hw' i ?_⟩
    rw [← toNat_t_succ hlast]
    simpa [hlast] using hi

/-- `uLOAD` starts the rounds from the hash state (R146). -/
theorem hashing_loaded {m : List Byte} {s : State} (hm : Hashing m s) (hp : s.phase = .load) :
    Hashing m { s with r := s.h, phase := .rounds, t := 0 } := by
  refine hm.of_progress (inv_loaded hm.inv hp) rfl rfl fun q hq => ⟨q, ?_⟩
  obtain ⟨hh, hblock, hw⟩ := (progress_load hp).1 hq
  exact (progress_rounds rfl).2 ⟨hh, hblock, hw, hh⟩

/-- `uROUND` does a round with the word and the constant of its number (R147). -/
theorem hashing_rounded {m : List Byte} {s : State} (hm : Hashing m s) (hp : s.phase = .rounds) :
    Hashing m (advance .accum
      { s with r := compressRound (schedWord s s.t.toNat) (roundConstant s.t) s.r }) := by
  refine hm.of_progress (inv_roundDone _ hm.inv hp) (by simp) (by simp) fun q hq => ⟨q, ?_⟩
  obtain ⟨hh, hblock, hw, hr⟩ := (progress_rounds hp).1 hq
  have hr' : compressRound (schedWord s s.t.toNat) (roundConstant s.t) s.r =
      roundsUpTo (hashAfter (hashStream s.fin m) q) (schedule (byteBlock q (hashStream s.fin m)))
        (s.t.toNat + 1) := by
    rw [schedWord_of_read (hw.read?_w le_rfl s.t.isLt), hr, roundsUpTo, BitVec.ofNat_toNat, BitVec.setWidth_eq]
  rw [advance_eq]
  by_cases hlast : s.t.toNat = 63
  · rw [hlast] at hr'
    exact (progress_accum (if_pos hlast)).2 ⟨hh, hblock, hw, by rwa [hlast]⟩
  · refine (progress_rounds ((if_neg hlast).trans hp)).2 ⟨hh, hblock, hw, ?_⟩
    rw [← toNat_t_succ hlast] at hr'
    simpa [hlast] using hr'

/-- `uACCUM` counts the block as compressed (R156, R157). -/
theorem hashing_accumulated {m : List Byte} {s : State} (hm : Hashing m s) (hp : s.phase = .accum) :
    Hashing m { s with h := addWords s.h s.r, fill := 0, t := 0, phase := afterAccum s } := by
  have hcount := hm.count
  refine hm.of_progress (inv_accumulated _ hm.inv hp) rfl rfl fun q hq => ⟨q + 1, ?_⟩
  obtain ⟨hh, ⟨hbuf, hopen, hlast, hmore⟩, hw, hr⟩ := (progress_accum hp).1 hq
  have hhash : addWords s.h s.r = hashAfter (hashStream s.fin m) (q + 1) := by
    rw [hh, hr]
    rfl
  by_cases hfin : s.fin = false
  · have hlen := hopen hfin
    rw [hfin, hashStream_false] at hlen
    exact (progress_accept (if_pos hfin)).2
      ⟨hhash, show q + 1 = s.nbytes.toNat / 64 by omega, fun j hj => absurd hj (Nat.not_lt_zero j)⟩
  · have hfin' : s.fin = true := by simpa using hfin
    by_cases hl : s.lastblk = true
    · have hphase : afterAccum s = .done := (if_neg hfin).trans (if_pos hl)
      exact (progress_done hphase).2 ⟨hhash, hlast hfin' hl, hbuf, hw, hr⟩
    · have hphase : afterAccum s = .pad2 := (if_neg hfin).trans (if_neg hl)
      exact (progress_pad2 hphase).2 ⟨hhash, hmore hfin' (by simpa using hl)⟩

/-! ### Every instruction, every step -/

theorem hashing_of_exec_microOp {m : List Byte} {i : Instr} {s t : State} (hm : Hashing m s)
    (hi : isMicroOp i = true) (h : exec i s = .next t) : Hashing m t := by
  cases i
  case uPad1 =>
    obtain ⟨hp, _, _, rfl⟩ := execUPad1_cases h
    exact hashing_padded1 hm hp
  case uSched =>
    obtain ⟨hp, _, rfl⟩ := execUSched_cases h
    exact (sameData_holdIfStep _).hashing ((sameData_noteDraw _ _).hashing (hashing_scheduled hm hp))
  case uLoad =>
    obtain ⟨hp, _, rfl⟩ := execULoad_cases h
    exact (sameData_holdIfStep _).hashing (hashing_loaded hm hp)
  case uRound =>
    obtain ⟨hp, _, rfl⟩ := execURound_cases h
    exact (sameData_holdIfStep _).hashing ((sameData_noteDraw _ _).hashing (hashing_rounded hm hp))
  case uAccum =>
    obtain ⟨hp, _, rfl⟩ := execUAccum_cases h
    exact (sameData_holdIfStep _).hashing (hashing_accumulated hm hp)
  case uPad2 =>
    obtain ⟨hp, _, rfl⟩ := execUPad2_cases h
    exact hashing_padded2 hm hp
  all_goals cases hi

theorem hashing_of_engineTurn {m : List Byte} {go : Bool} {s t : State} (hm : Hashing m s)
    (h : engineTurn go s = .next t) : Hashing m t := by
  rcases engineTurn_cases h with ⟨rfl, _⟩ | ⟨_, _, hstep⟩
  · exact hm
  · obtain ⟨i, hi, hexec⟩ := engineStep_exec hstep
    exact hashing_of_exec_microOp hm hi hexec

/-- The message after a transaction, from the message before it (R164). -/
def messageAfterInstr (m : List Byte) (s : State) : Instr → List Byte
  | .init => []
  | .push b => if s.phase = .accept ∧ lengthFull s = false then m ++ [b] else m
  | _ => m

theorem messageAfterInstr_of_other {m : List Byte} {s : State} {i : Instr} (hinit : i ≠ .init)
    (hpush : ∀ b, i ≠ .push b) : messageAfterInstr m s i = m := by
  cases i
  case init => exact absurd rfl hinit
  case push b => exact absurd rfl (hpush b)
  all_goals rfl

theorem messageAfter_of_transaction {m : List Byte} {s : State} (hrst : (nextPins s).rst = false)
    (hreq : (nextPins s).reqValid = true) :
    messageAfter m s = messageAfterInstr m (takePins s) (decodeBus (pinsWord (nextPins s))) :=
  (if_neg (by simp [hrst])).trans (if_pos hreq)

theorem messageAfter_of_no_transaction {m : List Byte} {s : State} (hrst : (nextPins s).rst = false)
    (hreq : (nextPins s).reqValid = false) : messageAfter m s = m := by
  simp [messageAfter, hrst, hreq]

theorem hashing_of_exec_transaction {m : List Byte} {i : Instr} {s t : State} (hm : Hashing m s)
    (hi : isMicroOp i = false) (h : exec i s = .next t) : Hashing (messageAfterInstr m s i) t := by
  by_cases hinit : i = .init
  · subst hinit
    exact newMessageHashesNothing.2 s t hm.inv h
  by_cases hpush : ∃ b, i = .push b
  · obtain ⟨b, rfl⟩ := hpush
    rcases execPush_cases h with ⟨hp, rfl⟩ | ⟨_, hfull, rfl⟩ | ⟨hp, hroom, _, rfl⟩
    · rw [messageAfterInstr, if_neg (by simp [hp])]
      exact (sameData_raiseErr _ _).hashing hm
    · rw [messageAfterInstr, if_neg (by simp [hfull])]
      exact (sameData_raiseErr _ _).hashing hm
    · rw [messageAfterInstr, if_pos ⟨hp, hroom⟩]
      exact hashing_pushed b hm hp hroom
  have hpush : ∀ b, i ≠ .push b := not_exists.1 hpush
  rw [messageAfterInstr_of_other hinit hpush]
  rcases exec_transaction_cases hi h with hsame | ⟨heq, _⟩ | ⟨b, heq, _⟩ | ⟨_, hp, rfl⟩
  · exact hsame.hashing hm
  · exact absurd heq hinit
  · exact absurd heq (hpush b)
  · exact (sameData_respond 0 _).hashing (hashing_final hm hp)

/-- Settles O54: reset starts afresh, a transaction changes the message by its own rule, the engine never changes it. -/
theorem stepKeepsHashingRelation : Obligations.StepKeepsHashingRelation := by
  unfold Obligations.StepKeepsHashingRelation
  intro m s t hm h
  have htake : Hashing m (takePins s) := (sameData_takePins s).hashing hm
  rcases step_cases h with ⟨hrst, rfl⟩ | ⟨hrst, hreq, s', hexec, hturn⟩ | ⟨hrst, hreq, hturn⟩
  · rw [messageAfter, if_pos hrst]
    exact hashing_hardReset _
  · rw [messageAfter_of_transaction hrst hreq]
    exact hashing_of_engineTurn (hashing_of_exec_transaction htake (isMicroOp_decodeBus _) hexec) hturn
  · rw [messageAfter_of_no_transaction hrst hreq]
    exact hashing_of_engineTurn ((sameData_respond 0 _).hashing htake) hturn

end Sys2Proof.Machine
end

section
/-! SUPPORT. The digest finalizer: what `uACCUM` leaves (R156), the outputs as functions of the state (R158, R220), the
instructions that keep the message (R164), and the digest in `DONE` (R160, R163). -/

namespace Sys2Proof.Machine

/-! ### `uACCUM` (R156) -/

/-- The four cases of `FIN` and `LASTBLK` (R157). -/
theorem afterAccum_eq (s : State) : afterAccum s =
    match s.fin, s.lastblk with
    | false, _ => .accept
    | true, true => .done
    | true, false => .pad2 := by
  unfold afterAccum
  cases s.fin <;> cases s.lastblk <;> rfl

/-- Settles O39: the selected micro-operation, the phase by its four cases, and the hold of a running engine. -/
theorem uAccumAddsIntoHashState : Obligations.UAccumAddsIntoHashState := by
  unfold Obligations.UAccumAddsIntoHashState
  intro s hp hh
  have hhold := holdIfStep_of_running
    (s := { s with h := addWords s.h s.r, fill := 0, t := 0, phase := afterAccum s }) hh
  rw [exec_uAccum_of_selected hp hh, hhold, afterAccum_eq]
  rfl

/-! ### The instructions that keep the message (R164) -/

/-- A read, `NOP`, a write of `CFG` and `CONT` write at most `CFG`, `HALT`, `ERR` and what is not the engine's. -/
theorem exec_of_keepsMessage {i : Instr} (s : State) (hi : keepsMessage i = true) :
    ∃ t, exec i s = .next t ∧
      t = { s with
        cfg := t.cfg, halt := t.halt, err := t.err, rspRdata := t.rspRdata, rspErr := t.rspErr, draws := t.draws } := by
  cases i
  case cont =>
    by_cases hh : s.halt = false
    · exact ⟨_, if_pos hh, rfl⟩
    · exact ⟨_, if_neg hh, rfl⟩
  case rdBlk | rdW => exact ⟨_, rfl, by rw [noteDraw_eq]; rfl⟩
  case nop | wrCfg | rdId | rdCfg | rdStatus | rdErr | rdLenLo | rdLenHi | rdH | rdR | rdK | rdIv =>
    exact ⟨_, rfl, rfl⟩
  all_goals cases hi

/-- Such a write leaves the data. -/
theorem sameData_of_frame {s t : State}
    (h : t = { s with
      cfg := t.cfg, halt := t.halt, err := t.err, rspRdata := t.rspRdata, rspErr := t.rspErr, draws := t.draws }) :
    SameData s t := by
  rw [h]
  exact ⟨rfl, rfl, rfl, rfl, rfl, rfl, rfl, rfl, rfl, rfl⟩

/-- Settles O42: the frame leaves the data, which is all the relation looks at. -/
theorem readsAndControlKeepTheMessage : Obligations.ReadsAndControlKeepTheMessage := by
  unfold Obligations.ReadsAndControlKeepTheMessage
  intro s i hi
  obtain ⟨t, hexec, hframe⟩ := exec_of_keepsMessage s hi
  have hsame := sameData_of_frame hframe
  exact ⟨t, hexec, fun j => by rw [hsame.buf], fun j => by rw [hsame.w], hframe, fun m => hsame.hashing⟩

/-! ### The outputs (R158, R220) -/

/-- Bits inside a word of the join `H[0] || ... || H[7]` (R158). -/
theorem extractLsb'_joinWords (v : Words8) (i : BitVec 3) {n k : Nat} (hn : n + k ≤ 32) :
    (joinWords v).extractLsb' (224 - 32 * i.toNat + n) k = (wordAt v i).extractLsb' n k := by
  apply BitVec.eq_of_getLsbD_eq
  intro j hj
  rw [BitVec.getLsbD_extractLsb', BitVec.getLsbD_extractLsb', Nat.add_assoc, getLsbD_joinWords_word v i (by omega)]

theorem irq_iff (s : State) :
    irq s = true ↔ (s.cfg.getLsbD 1 = true ∧ s.phase = .done) ∨ (s.cfg.getLsbD 2 = true ∧ s.err ≠ 0) := by
  simp [irq, cfgIeDone, cfgIeErr, statusDone, statusErrAny]

theorem digestValidPort_iff (s : State) : digestValidPort s = true ↔ s.phase = .done ∧ s.err = 0 := by
  simp [digestValidPort, statusValid, statusDone, statusErrAny]

theorem digestWord_eq (s : State) (i : BitVec 3) :
    (digestPort s).extractLsb' (224 - 32 * i.toNat) 32 = wordAt s.h i :=
  (extractLsb'_joinWords s.h i (n := 0) le_rfl).trans BitVec.extractLsb'_eq_self

theorem digestBytes_getElem? (s : State) (i : BitVec 3) {k : Nat} (hk : k < 4) :
    (digestBytes (digestPort s))[4 * i.toNat + k]? = some ((wordAt s.h i).extractLsb' (24 - 8 * k) 8) := by
  have hi := i.isLt
  rw [digestBytes, List.getElem?_map, List.getElem?_range (by omega), Option.map_some, digestPort,
    show 248 - 8 * (4 * i.toNat + k) = 224 - 32 * i.toNat + (24 - 8 * k) by omega, extractLsb'_joinWords _ _ (by omega)]

theorem digestHex_getElem? (s : State) (i : BitVec 3) {k : Nat} (hk : k < 8) :
    (digestHex (digestPort s))[8 * i.toNat + k]? = some (hexDigit ((wordAt s.h i).extractLsb' (28 - 4 * k) 4)) := by
  have hi := i.isLt
  rw [digestHex, List.getElem?_map, List.getElem?_range (by omega), Option.map_some, digestPort,
    show 252 - 4 * (8 * i.toNat + k) = 224 - 32 * i.toNat + (28 - 4 * k) by omega, extractLsb'_joinWords _ _ (by omega)]

/-- `STATUS.VALID` is the port `digest_valid_o` (R42, R158). -/
theorem statusWord_valid (s : State) : (statusWord s).getLsbD 3 = digestValidPort s := by
  rw [getLsbD_statusWord, if_pos (by decide), getLsbD_statusFlags]
  rfl

/-- Settles O52, output by output. -/
theorem outputsFollowState : Obligations.OutputsFollowState := by
  unfold Obligations.OutputsFollowState
  refine fun s => ⟨irq_iff s, digestValidPort_iff s, digestWord_eq s, fun i k => digestBytes_getElem? s i,
    fun i k => digestHex_getElem? s i, fun i => answers_of_respond rfl, ?_⟩
  rintro v ⟨t, hexec, rfl, _⟩
  cases hexec
  exact statusWord_valid s

/-! ### The digest in `DONE` (R160, R163) -/

/-- The padded bytes are the padded bit string (R106). -/
theorem messageBitString_paddedBytes (m : List Byte) : messageBitString (paddedBytes m) = pad (messageBitString m) := by
  rw [paddedBytes_eq, pad_messageBitString (zeroCount_bytes m.length)]
  simp

/-- The blocks of a bit string made of bytes are the blocks of the bytes (R105). -/
theorem split_messageBitString {bs : List Byte} {n : Nat} (h : 64 * n = bs.length) :
    split (messageBitString bs) = some ((List.range n).map fun q => messageBitString (byteBlock q bs)) := by
  rw [split, length_messageBitString, if_pos (by omega), show 8 * bs.length / 512 = n by omega]
  congr 1
  refine List.map_congr_left fun q _ => ?_
  rw [show 512 * q = 8 * (64 * q) by omega, drop_messageBitString]
  exact take_messageBitString 64 _

/-- `S_N` of R160 is the hash state after the last block of the padded message. -/
theorem sha256Words_eq {m : List Byte} {n : Nat} (hm : m.length < 2 ^ 61) (hn : 64 * n = (paddedBytes m).length) :
    sha256Words m = some (hashAfter (paddedBytes m) n) := by
  have hshort : ¬ messageTooLong m = true := by
    simp only [messageTooLong, decide_eq_true_eq]
    omega
  rw [sha256Words, if_neg hshort, ← messageBitString_paddedBytes, split_messageBitString hn, Option.map_some,
    foldl_byteBlocks]

/-- What `DONE` says of the padded message: all its blocks are compressed, the last one is still in the memories. -/
theorem Hashing.of_done {m : List Byte} {s : State} (hm : Hashing m s) (hp : s.phase = .done) :
    ∃ q, 64 * (q + 1) = (paddedBytes m).length ∧ s.h = hashAfter (paddedBytes m) (q + 1) ∧
      BlockDone (paddedBytes m) q s := by
  obtain ⟨_, _, hfin, _⟩ := (phaseFacts_done hp).1 hm.inv.phaseFacts
  obtain ⟨n, hn⟩ := hm.progress
  obtain ⟨hh, hlen, hdone⟩ := (progress_done hp).1 hn
  rw [hfin, hashStream_true] at hh hlen hdone
  have hpos : 0 < n := by
    have : m.length < (paddedBytes m).length := by
      rw [paddedBytes_eq]
      simp
    omega
  obtain ⟨q, rfl⟩ := Nat.exists_eq_succ_of_ne_zero hpos.ne'
  exact ⟨q, hlen, hh, hdone⟩

/-- Settles O55: the hash state is the one after the last block, which is the one before it plus `R`. -/
theorem doneShowsSha256OfAcceptedBytes : Obligations.DoneShowsSha256OfAcceptedBytes := by
  unfold Obligations.DoneShowsSha256OfAcceptedBytes
  intro m s hm hp
  obtain ⟨q, hlen, hh, hbuf, hw, hr⟩ := hm.of_done hp
  have hshort : m.length < 2 ^ 61 := hm.count ▸ s.nbytes.isLt
  refine ⟨?_, by rw [messageBits_toNat, hm.count], ?_, q, hlen, hbuf, hw, ?_⟩
  · rw [sha256, sha256Words_eq hshort hlen, Option.map_some, digestPort, hh]
  · rw [Bool.eq_iff_iff, digestValidPort_iff, decide_eq_true_iff]
    exact and_iff_right hp
  · rw [hh, hr]
    rfl

end Sys2Proof.Machine
end

section
/-! SUPPORT. The canonical protocol in one interleaving (R163, R203, R250; log entry 13): what a list of samples drives
the machine to, and the states between `INIT` and `DONE`. -/

namespace Sys2Proof.Machine

/-! ### Lists of samples (log entry 1) -/

/-- With these samples before all others on the pins the machine goes from `s` to `t`. -/
def Drives (samples : List Inputs) (s t : State) : Prop :=
  ∀ (rest : List Inputs) (n : Nat),
    core.run (samples.length + n) { s with inputs := samples ++ rest } = core.run n { t with inputs := rest }

theorem drives_nil (s : State) : Drives [] s s := fun rest n => by rw [List.length_nil, Nat.zero_add, List.nil_append]

theorem Drives.append {samples more : List Inputs} {s t u : State} (h : Drives samples s t) (h' : Drives more t u) :
    Drives (samples ++ more) s u := fun rest n => by
  rw [List.length_append, Nat.add_assoc, List.append_assoc, h, h']

/-- The step that sees a sample, whatever samples follow it. -/
theorem drives_of_step {p : Inputs} {s t : State}
    (h : ∀ rest, step { s with inputs := p :: rest } = .next { t with inputs := rest }) : Drives [p] s t :=
  fun rest n => by
    rw [List.length_singleton, Nat.add_comm]
    exact run_succ_of_step (M := core) (h rest) n

/-! ### A transaction on the pins -/

/-- The sample of a transaction carries its word, without reset, and the engine takes no step. -/
theorem step_pinsFor {i : Instr} {tw : BitVec 41} (he : encode i = .transaction tw) (s : State)
    (rest : List Inputs) : step { s with inputs := pinsFor i :: rest } = exec i { s with inputs := rest } := by
  have hpins : pinsFor i = hostPins tw := by rw [pinsFor, he]
  have hdecode : decodeBus tw = i := by
    have h := decodeInvertsEncode i
    rw [he] at h
    exact Except.ok.inj h
  rw [hpins, stepRunsDecodedTransaction { s with inputs := hostPins tw :: rest } _ rest rfl rfl rfl rfl]
  exact congrArg (fun i => exec i { s with inputs := rest })
    ((congrArg decodeBus (transactionWord_fields tw)).trans hdecode)

theorem drives_init (s : State) : Drives [pinsFor .init] s (respond 0 (initMessage s)) :=
  drives_of_step fun rest => step_pinsFor rfl s rest

theorem drives_push {s : State} (b : Byte) (hp : s.phase = .accept) (hn : s.nbytes.toNat ≠ 2 ^ 61 - 1)
    (hf : s.fill.toNat ≤ 63) : Drives [pinsFor (.push b)] s (pushed b s) :=
  drives_of_step fun rest =>
    (step_pinsFor rfl s rest).trans (exec_push_of_room (s := { s with inputs := rest }) b hp hn hf)

theorem drives_final {s : State} (hp : s.phase = .accept) :
    Drives [pinsFor .final] s (respond 0 { s with fin := true, phase := .pad1 }) :=
  drives_of_step fun rest => (step_pinsFor rfl s rest).trans (if_neg (not_not.2 hp))

/-! ### The engine alone -/

theorem startBlock_withInputs (buf : List Host.Cell) (last : Bool) (s : State) (x : List Inputs) :
    startBlock buf last { s with inputs := x } = { startBlock buf last s with inputs := x } := rfl

theorem scheduled_withInputs (s : State) (x : List Inputs) :
    scheduled { s with inputs := x } = { scheduled s with inputs := x } := by
  simp only [scheduled, noteDraw_eq, advance_eq]
  rfl

theorem rounded_withInputs (s : State) (x : List Inputs) :
    rounded { s with inputs := x } = { rounded s with inputs := x } := by
  simp only [rounded, noteDraw_eq, advance_eq]
  rfl

/-- No micro-operation looks at the samples to come (log entry 1). -/
theorem engineStep_withInputs {s t : State} (x : List Inputs) (h : engineStep s = .next t) :
    engineStep { s with inputs := x } = .next { t with inputs := x } := by
  rcases engineStep_cases h with ⟨_, h⟩ | ⟨_, h⟩ | ⟨_, h⟩ | ⟨_, h⟩ | ⟨_, h⟩ | ⟨_, h⟩
  · obtain ⟨hp, hh, hf, rfl⟩ := execUPad1_cases h
    rw [engineStep_eq (i := .uPad1) (by rw [hp]; rfl)]
    exact exec_uPad1_of_selected (s := { s with inputs := x }) hp hh hf
  · obtain ⟨hp, hh, rfl⟩ := execUSched_cases h
    rw [engineStep_eq (i := .uSched) (by rw [hp]; rfl)]
    exact (exec_uSched_of_selected (s := { s with inputs := x }) hp hh).trans (congrArg _ (scheduled_withInputs s x))
  · obtain ⟨hp, hh, rfl⟩ := execULoad_cases h
    rw [engineStep_eq (i := .uLoad) (by rw [hp]; rfl)]
    exact exec_uLoad_of_selected (s := { s with inputs := x }) hp hh
  · obtain ⟨hp, hh, rfl⟩ := execURound_cases h
    rw [engineStep_eq (i := .uRound) (by rw [hp]; rfl)]
    exact (exec_uRound_of_selected (s := { s with inputs := x }) hp hh).trans (congrArg _ (rounded_withInputs s x))
  · obtain ⟨hp, hh, rfl⟩ := execUAccum_cases h
    rw [engineStep_eq (i := .uAccum) (by rw [hp]; rfl)]
    exact exec_uAccum_of_selected (s := { s with inputs := x }) hp hh
  · obtain ⟨hp, hh, rfl⟩ := execUPad2_cases h
    rw [engineStep_eq (i := .uPad2) (by rw [hp]; rfl)]
    exact (exec_uPad2_of_selected (s := { s with inputs := x }) hp hh).trans
      (congrArg _ (startBlock_withInputs _ _ s x))

theorem engineTurn_withInputs {go : Bool} {s t : State} (x : List Inputs) (h : engineTurn go s = .next t) :
    engineTurn go { s with inputs := x } = .next { t with inputs := x } := by
  rcases engineTurn_cases h with ⟨rfl, hidle⟩ | ⟨hgo, hs, hstep⟩
  · exact engineTurn_of_idle (s := { t with inputs := x }) hidle
  · have hs' : engineEnabled { s with inputs := x } = true := hs
    rw [engineTurn, hgo, hs']
    exact engineStep_withInputs x hstep

/-- A sample that leaves the engine alone does what an empty list does (log entry 1). -/
theorem step_enginePins {s t : State} (hin : s.inputs = []) (rest : List Inputs) (h : step s = .next t) :
    step { s with inputs := enginePins :: rest } = .next { t with inputs := rest } := by
  rw [step_of_no_inputs hin] at h
  rw [step_of_no_transaction rfl rfl]
  exact engineTurn_withInputs rest h

theorem inputs_of_step_of_no_inputs {s t : State} (hin : s.inputs = []) (h : step s = .next t) : t.inputs = [] := by
  rw [step_of_no_inputs hin] at h
  obtain ⟨_, _, _, _, _, _, hinputs⟩ := engineTurn_keeps h
  exact hinputs.trans hin

theorem run_one_of_step {s t : State} (h : step s = .next t) : core.run 1 s = .next t :=
  run_succ_of_step (M := core) h 0

theorem run_succ_eq_next {M : Host.Core} {s u : M.State} {n : Nat} (h : M.run (n + 1) s = .next u) :
    ∃ t, M.step s = .next t ∧ M.run n t = .next u := by
  rw [Host.Core.run] at h
  split at h
  · exact ⟨_, ‹_›, h⟩
  · cases h
  · cases h

/-- A run of the engine alone is driven by as many samples that leave it alone. -/
theorem drives_of_run (n : Nat) : ∀ {s t : State}, s.inputs = [] → core.run n s = .next t →
    Drives (List.replicate n enginePins) s t := by
  induction n with
  | zero =>
    intro s t _ h
    cases h
    exact drives_nil s
  | succ n ih =>
    intro s t hin h
    obtain ⟨u, hstep, hrun⟩ := run_succ_eq_next h
    exact (drives_of_step fun rest => step_enginePins hin rest hstep).append
      (ih (inputs_of_step_of_no_inputs hin hstep) hrun)

/-- The samples given are all that the machine sees, whatever samples the state held. -/
theorem Drives.of_withInputs {samples : List Inputs} {s t : State} {x : List Inputs}
    (h : Drives samples { s with inputs := x } t) : Drives samples s t := h

/-! ### A clean run -/

/-- A free-running engine that has accepted `m` and has found no error. -/
structure CleanRun (m : List Byte) (s : State) : Prop where
  hashing : Hashing m s
  err : s.err = 0
  halt : s.halt = false
  free : s.cfg.getLsbD 0 = false

theorem sameData_withInputs (s : State) (x : List Inputs) : SameData s { s with inputs := x } :=
  ⟨rfl, rfl, rfl, rfl, rfl, rfl, rfl, rfl, rfl, rfl⟩

section
variable {m : List Byte} {s t : State}

theorem CleanRun.withInputs (h : CleanRun m s) (x : List Inputs) : CleanRun m { s with inputs := x } :=
  ⟨(sameData_withInputs s x).hashing h.hashing, h.err, h.halt, h.free⟩

theorem CleanRun.of_quiet (h : CleanRun m s) : CleanRun m (quiet s) :=
  ⟨(sameData_respond 0 s).hashing h.hashing, h.err, h.halt, h.free⟩

theorem CleanRun.of_engineTurn (h : CleanRun m s) {go : Bool} (ht : engineTurn go s = .next t) : CleanRun m t := by
  obtain ⟨herr, _, _, hcfg, _⟩ := engineTurn_keeps ht
  refine ⟨hashing_of_engineTurn h.hashing ht, herr.trans h.err, ?_, hcfg ▸ h.free⟩
  rcases engineTurn_cases ht with ⟨rfl, _⟩ | ⟨_, _, hstep⟩
  · exact h.halt
  · obtain ⟨i, hi, hexec⟩ := engineStep_exec hstep
    exact (exec_microOp_halt hi hexec).trans h.free

theorem CleanRun.of_run (n : Nat) : ∀ {s t : State}, CleanRun m s → s.inputs = [] → core.run n s = .next t →
    CleanRun m t := by
  induction n with
  | zero =>
    intro s t h _ hrun
    cases hrun
    exact h
  | succ n ih =>
    intro s t h hin hrun
    obtain ⟨u, hstep, hrun⟩ := run_succ_eq_next hrun
    have hturn := (step_of_no_inputs hin).symm.trans hstep
    exact ih (h.of_quiet.of_engineTurn hturn) (inputs_of_step_of_no_inputs hin hstep) hrun

/-- A block in work is compressed by the next 130 steps (R250). -/
theorem CleanRun.drives_block (h : CleanRun m s) (hp : s.phase = .sched) (ht : s.t = 0) :
    ∃ u, Drives (List.replicate blockSteps enginePins) s u ∧ CleanRun m u ∧ u.phase = afterAccum s := by
  obtain ⟨_, hbuf, _⟩ := (phaseFacts_sched hp).1 h.hashing.inv.phaseFacts
  have hrun := run_block (s := { s with inputs := [] }) ⟨h.halt, h.free, rfl⟩ hp ht
    fun _ => read?_buf_of_written hbuf
  exact ⟨_, (drives_of_run 130 rfl hrun).of_withInputs, (h.withInputs []).of_run 130 rfl hrun, rfl⟩

/-! ### The bytes (R108) -/

/-- A byte, with the compression of the block it completes. -/
theorem CleanRun.drives_byte (h : CleanRun m s) (hp : s.phase = .accept) (b : Byte) (hm : m.length + 1 < 2 ^ 61) :
    ∃ u, Drives (pinsFor (.push b) :: if m.length % 64 = 63 then List.replicate blockSteps enginePins else []) s u ∧
      CleanRun (m ++ [b]) u ∧ u.phase = .accept := by
  obtain ⟨hfill, hlen⟩ := h.hashing.length_of_accept hp
  obtain ⟨hfin, _⟩ := h.hashing.of_accept hp
  have hcount := h.hashing.count
  have hroom : s.nbytes.toNat ≠ 2 ^ 61 - 1 := by omega
  have hpush := drives_push b hp hroom hfill
  have hclean : CleanRun (m ++ [b]) (pushed b s) :=
    ⟨hashing_pushed b h.hashing hp ((lengthFull_eq_false_iff s).2 hroom), h.err, h.halt, h.free⟩
  by_cases hfull : s.fill.toNat = 63
  · obtain ⟨u, hblock, hu, hphase⟩ := hclean.drives_block (if_pos hfull) (if_pos hfull)
    rw [if_pos (by omega)]
    exact ⟨u, hpush.append hblock, hu, hphase.trans (if_pos hfin)⟩
  · rw [if_neg (by omega)]
    exact ⟨_, hpush, hclean, if_neg hfull⟩

theorem CleanRun.drives_pushSchedule (bs : List Byte) : ∀ {m : List Byte} {s : State}, CleanRun m s →
    s.phase = .accept → m.length + bs.length < 2 ^ 61 →
    ∃ u, Drives (pushSchedule m.length bs) s u ∧ CleanRun (m ++ bs) u ∧ u.phase = .accept := by
  induction bs with
  | nil =>
    intro m s h hp _
    exact ⟨s, drives_nil s, by rwa [List.append_nil], hp⟩
  | cons b bs ih =>
    intro m s h hp hm
    rw [List.length_cons] at hm
    obtain ⟨t, hbyte, ht, htp⟩ := h.drives_byte hp b (by omega)
    obtain ⟨u, hbytes, hu, hup⟩ := ih ht htp (by rw [List.length_append, List.length_singleton]; omega)
    rw [List.length_append, List.length_singleton] at hbytes
    rw [List.append_assoc] at hu
    exact ⟨u, hbyte.append hbytes, hu, hup⟩

/-! ### The end of the message (R110, R112, R192, R250) -/

/-- A micro-operation of the padder and the compression of the block it completes. -/
theorem CleanRun.drives_padding (h : CleanRun m s) {i : Instr} {buf : List Host.Cell} {last : Bool}
    (hi : decodeMicroOp (phaseCode s.phase) = .ok i) (hfin : s.fin = true)
    (hexec : exec i (quiet { s with inputs := [] }) =
      .next (startBlock buf last (quiet { s with inputs := [] }))) :
    ∃ u, Drives (List.replicate (1 + blockSteps) enginePins) s u ∧ CleanRun m u ∧
      u.phase = if last then .done else .pad2 := by
  have halone : RunsAlone { s with inputs := [] } := ⟨h.halt, h.free, rfl⟩
  have hrun := run_one_of_step ((halone.step_eq hi).trans hexec)
  obtain ⟨u, hblock, hu, hphase⟩ := ((h.withInputs []).of_run 1 rfl hrun).drives_block rfl rfl
  refine ⟨u, ?_, hu, hphase.trans ((if_neg (by simp [hfin])).trans rfl)⟩
  rw [List.replicate_add]
  exact (drives_of_run 1 rfl hrun).of_withInputs.append hblock

/-- From `PAD1` to `DONE`, by one block or by two (R250). -/
theorem CleanRun.drives_finalSteps (h : CleanRun m s) (hp : s.phase = .pad1) :
    ∃ u, Drives (List.replicate (finalSteps m.length) enginePins) s u ∧ CleanRun m u ∧ u.phase = .done := by
  obtain ⟨hfill, hmod, _, hfin, _⟩ := (phaseFacts_pad1 hp).1 h.hashing.inv.phaseFacts
  rw [h.hashing.count] at hmod
  obtain ⟨t, hdrives, ht, htp⟩ := h.drives_padding (i := .uPad1) (by rw [hp]; rfl) hfin
    (exec_uPad1_of_selected (s := quiet { s with inputs := [] }) hp h.halt hfill)
  by_cases hroom : m.length % 64 ≤ 55
  · rw [finalSteps, if_pos hroom]
    exact ⟨t, hdrives, ht, htp.trans (if_pos (decide_eq_true (hmod.trans_le hroom)))⟩
  · have hpad2 : t.phase = .pad2 := htp.trans (if_neg (by simpa [hmod] using hroom))
    obtain ⟨_, _, htfin, _⟩ := (phaseFacts_pad2 hpad2).1 ht.hashing.inv.phaseFacts
    obtain ⟨u, hlast, hu, hup⟩ := ht.drives_padding (i := .uPad2) (by rw [hpad2]; rfl) htfin
      (exec_uPad2_of_selected (s := quiet { t with inputs := [] }) hpad2 ht.halt)
    rw [finalSteps, if_neg hroom, Nat.two_mul, List.replicate_add]
    exact ⟨u, hdrives.append hlast, hu, hup⟩

end

/-- The whole protocol, from any sound state that runs free (R163). -/
theorem drives_hashSchedule {m : List Byte} {s : State} (hm : m.length < 2 ^ 61) (hi : s.Inv)
    (hfree : s.cfg.getLsbD 0 = false) :
    ∃ u, Drives (hashSchedule m) s u ∧ CleanRun m u ∧ u.phase = .done := by
  have hinit : CleanRun [] (respond 0 (initMessage s)) :=
    ⟨(sameData_respond 0 _).hashing (hashing_initMessage hi), rfl, rfl, hfree⟩
  obtain ⟨t, hbytes, ht, htp⟩ := hinit.drives_pushSchedule m rfl (by rwa [List.length_nil, Nat.zero_add])
  rw [List.nil_append] at ht
  have hfinal : CleanRun m (respond 0 { t with fin := true, phase := .pad1 }) :=
    ⟨(sameData_respond 0 _).hashing (hashing_final ht.hashing htp), ht.err, ht.halt, ht.free⟩
  obtain ⟨u, hsteps, hu, hup⟩ := hfinal.drives_finalSteps rfl
  exact ⟨u, (drives_init s).append (hbytes.append ((drives_final htp).append hsteps)), hu, hup⟩

/-- Settles O58: the protocol ends in `DONE` without an error, and what the relation says there. -/
theorem canonicalProtocolComputesSha256 : Obligations.CanonicalProtocolComputesSha256 := by
  unfold Obligations.CanonicalProtocolComputesSha256
  intro m s hm hi hfree
  obtain ⟨u, hdrives, hu, hup⟩ := drives_hashSchedule hm hi hfree
  have hclean := hu.withInputs []
  obtain ⟨hsha, hbits, hvalid, _⟩ := doneShowsSha256OfAcceptedBytes m _ hclean.hashing hup
  have hrun := hdrives [] 0
  rw [List.append_nil] at hrun
  exact ⟨_, hrun, hup, hclean.err, hvalid.trans (decide_eq_true hclean.err), hsha, hbits⟩

end Sys2Proof.Machine
end

section
/-! SUPPORT. The host's operations one by one: the register reads (R171 to R183), the writes of `CFG` and `CTRL` (R173,
R190 to R193), the illegal transactions (R184, R185, R194), and when a micro-operation is refused (R201, R204). -/

namespace Sys2Proof.Machine

/-! ### Which instruction a transaction is, by its register (R84 to R86) -/

theorem decodeBus_read {a : BitVec 8} {r : Reg} (hr : regOf a = r) (wd : Word) :
    decodeBus (transactionWord false a wd) = decodeRead r := by
  rw [decodeBus_transactionWord, hr]
  rfl

theorem decodeBus_write {a : BitVec 8} {r : Reg} (hr : regOf a = r) (wd : Word) :
    decodeBus (transactionWord true a wd) = decodeWrite wd r := by
  rw [decodeBus_transactionWord, hr]
  rfl

/-- The bits of a write of `CTRL` above `CMD` do not matter (R85, R86). -/
theorem decodeBus_write_ctrl (hi : BitVec 29) (cmd : BitVec 3) :
    decodeBus (transactionWord true 0x02 (hi ++ cmd)) = decodeCommand cmd := by
  have hcmd : (hi ++ cmd).extractLsb' 0 3 = cmd := BitVec.extractLsb'_append_eq_right
  rw [decodeBus_write (r := .ctrl) rfl, decodeWrite, hcmd]

/-! ### Reads of one register (R171, R172, R175 to R177) -/

/-- Settles O11: the constant is the response. -/
theorem rdIdReadsIdentification : Obligations.RdIdReadsIdentification := by
  unfold Obligations.RdIdReadsIdentification
  exact ⟨decodeBus_read rfl, fun _ => rfl⟩

/-- Settles O12: widening keeps the value. -/
theorem rdCfgReadsConfiguration : Obligations.RdCfgReadsConfiguration := by
  unfold Obligations.RdCfgReadsConfiguration
  exact ⟨decodeBus_read rfl, fun s => ⟨_, rfl, BitVec.toNat_setWidth_of_le (by decide)⟩⟩

/-- Settles O14: widening keeps the value. -/
theorem rdErrReadsErrorFlags : Obligations.RdErrReadsErrorFlags := by
  unfold Obligations.RdErrReadsErrorFlags
  exact ⟨decodeBus_read rfl, fun s => ⟨_, rfl, BitVec.toNat_setWidth_of_le (by decide)⟩⟩

/-- The low word of the length in bits (R30, R176). -/
theorem messageBits_low_toNat (s : State) :
    ((messageBits s).extractLsb' 0 32).toNat = s.nbytes.toNat * 8 % 2 ^ 32 := by
  rw [BitVec.extractLsb'_toNat, messageBits_toNat, Nat.shiftRight_zero, Nat.mul_comm]

/-- The high word of the length in bits (R30, R177). -/
theorem messageBits_high_toNat (s : State) :
    ((messageBits s).extractLsb' 32 32).toNat = s.nbytes.toNat * 8 / 2 ^ 32 := by
  have := s.nbytes.isLt
  rw [BitVec.extractLsb'_toNat, messageBits_toNat, Nat.shiftRight_eq_div_pow]
  omega

/-- Settles O15: the number, and the same number as bits. -/
theorem rdLenLoReadsLowLength : Obligations.RdLenLoReadsLowLength := by
  unfold Obligations.RdLenLoReadsLowLength
  refine ⟨decodeBus_read rfl, fun s => ⟨_, rfl, messageBits_low_toNat s, BitVec.eq_of_toNat_eq ?_⟩⟩
  rw [messageBits_low_toNat, BitVec.toNat_append, BitVec.extractLsb'_toNat, Nat.shiftLeft_eq]
  simp
  omega

/-- Settles O16: the number, and the same number as bits. -/
theorem rdLenHiReadsHighLength : Obligations.RdLenHiReadsHighLength := by
  unfold Obligations.RdLenHiReadsHighLength
  refine ⟨decodeBus_read rfl, fun s => ⟨_, rfl, messageBits_high_toNat s, BitVec.eq_of_toNat_eq ?_⟩⟩
  have := s.nbytes.isLt
  rw [messageBits_high_toNat, BitVec.extractLsb'_toNat, Nat.shiftRight_eq_div_pow]
  omega

/-! ### The fields of `STATUS` (R42, R174) -/

/-- A field inside byte `j` of a word, byte 0 the least significant (R12). -/
theorem extractLsb'_wordOfBytes (b0 b1 b2 b3 : Byte) {j n k : Nat} (hj : j < 4) (hk : n + k ≤ 8) :
    (wordOfBytes b0 b1 b2 b3).extractLsb' (8 * j + n) k = ([b3, b2, b1, b0].getD j 0).extractLsb' n k := by
  apply BitVec.eq_of_getLsbD_eq
  intro i hi
  rw [BitVec.getLsbD_extractLsb', BitVec.getLsbD_extractLsb', getLsbD_wordOfBytes]
  match j, hj with
  | 0, _ => rw [if_pos (by omega), Nat.mul_zero, Nat.zero_add]; rfl
  | 1, _ => rw [if_neg (by omega), if_pos (by omega), show 8 * 1 + n + i - 8 = n + i by omega]; rfl
  | 2, _ =>
    rw [if_neg (by omega), if_neg (by omega), if_pos (by omega), show 8 * 2 + n + i - 16 = n + i by omega]
    rfl
  | 3, _ =>
    rw [if_neg (by omega), if_neg (by omega), if_neg (by omega), show 8 * 3 + n + i - 24 = n + i by omega]
    rfl

/-- The eight flags in the low byte. -/
theorem getLsbD_statusWord_flag (s : State) {i : Nat} (hi : i < 8) : (statusWord s).getLsbD i =
    ([statusReady s, statusBusy s, statusDone s, statusValid s, s.halt, s.fin, s.lastblk, statusErrAny s][i]?).getD
      false := by
  rw [getLsbD_statusWord, if_pos hi, getLsbD_statusFlags]

theorem statusWord_phase (s : State) : (statusWord s).extractLsb' 8 3 = phaseCode s.phase :=
  (extractLsb'_wordOfBytes _ _ _ _ (j := 1) (n := 0) (by decide) (by decide)).trans BitVec.extractLsb'_append_eq_right

theorem statusWord_t (s : State) : (statusWord s).extractLsb' 16 6 = s.t :=
  (extractLsb'_wordOfBytes _ _ _ _ (j := 2) (n := 0) (by decide) (by decide)).trans BitVec.extractLsb'_append_eq_right

theorem statusWord_fill (s : State) : (statusWord s).extractLsb' 24 7 = s.fill :=
  (extractLsb'_wordOfBytes _ _ _ _ (j := 3) (n := 0) (by decide) (by decide)).trans BitVec.extractLsb'_append_eq_right

/-- The reserved bits above `PHASE`, `T` and `FILL` are 0 (R42). -/
theorem statusWord_reserved (s : State) : (statusWord s).extractLsb' 11 5 = 0 ∧
    (statusWord s).extractLsb' 22 2 = 0 ∧ (statusWord s).getLsbD 31 = false := by
  refine ⟨?_, ?_, ?_⟩
  · exact (extractLsb'_wordOfBytes _ _ _ _ (j := 1) (n := 3) (by decide) (by decide)).trans
      BitVec.extractLsb'_append_eq_left
  · exact (extractLsb'_wordOfBytes _ _ _ _ (j := 2) (n := 6) (by decide) (by decide)).trans
      BitVec.extractLsb'_append_eq_left
  · rw [getLsbD_statusWord, if_neg (by decide), if_neg (by decide), if_neg (by decide), BitVec.getLsbD_append]
    rfl

theorem busy_eq_decide (p : Phase) : busy p = decide (p ≠ .accept ∧ p ≠ .done) := by
  cases p <;> rfl

theorem statusValid_eq_decide (s : State) : statusValid s = decide (s.phase = .done ∧ s.err = 0) := by
  simp [statusValid, statusDone, statusErrAny]

/-- Settles O13: the flags, then the fields from bit 8 on. -/
theorem rdStatusReadsStatus : Obligations.RdStatusReadsStatus := by
  unfold Obligations.RdStatusReadsStatus
  refine ⟨decodeBus_read rfl, fun s => ⟨statusWord s, rfl, ?_⟩⟩
  obtain ⟨h11, h22, h31⟩ := statusWord_reserved s
  have hflag := fun i => getLsbD_statusWord_flag s (i := i)
  exact ⟨hflag 0 (by decide), (hflag 1 (by decide)).trans (busy_eq_decide s.phase), hflag 2 (by decide),
    (hflag 3 (by decide)).trans (statusValid_eq_decide s), hflag 4 (by decide), hflag 5 (by decide),
    hflag 6 (by decide), hflag 7 (by decide), statusWord_phase s, h11, statusWord_t s, h22, statusWord_fill s, h31⟩

/-! ### Reads of a file by an index (R178 to R183) -/

theorem wordList_getElem? (v : Words8) (i : BitVec 3) : (wordList v)[i.toNat]? = some (wordAt v i) := by
  unfold wordList wordAt
  match i.toNat, i.isLt with
  | 0, _ | 1, _ | 2, _ | 3, _ | 4, _ | 5, _ | 6, _ | 7, _ => rfl

theorem regOf_h (i : BitVec 3) : regOf (0x08 + i.setWidth 8) = .h i := by
  revert i
  decide

theorem regOf_r (i : BitVec 3) : regOf (0x10 + i.setWidth 8) = .r i := by
  revert i
  decide

theorem regOf_blk (j : BitVec 4) : regOf (0x20 + j.setWidth 8) = .blk j := by
  revert j
  decide

theorem regOf_w (t : BitVec 6) : regOf (0x40 + t.setWidth 8) = .w t := by
  revert t
  decide

theorem regOf_k (t : BitVec 6) : regOf (0x80 + t.setWidth 8) = .k t := by
  revert t
  decide

theorem regOf_iv (i : BitVec 3) : regOf (0xC0 + i.setWidth 8) = .iv i := by
  revert i
  decide

/-- Settles O17: the response is a word of `H`. -/
theorem rdHReadsHashState : Obligations.RdHReadsHashState := by
  unfold Obligations.RdHReadsHashState
  exact ⟨fun wd i => decodeBus_read (regOf_h i) wd, fun s i => ⟨_, rfl, wordList_getElem? s.h i⟩⟩

/-- Settles O18: the response is a word of `R`. -/
theorem rdRReadsWorkingRegister : Obligations.RdRReadsWorkingRegister := by
  unfold Obligations.RdRReadsWorkingRegister
  exact ⟨fun wd i => decodeBus_read (regOf_r i) wd, fun s i => ⟨_, rfl, wordList_getElem? s.r i⟩⟩

/-- Settles O21: the response is a word of the ROM. -/
theorem rdKReadsRoundConstant : Obligations.RdKReadsRoundConstant := by
  unfold Obligations.RdKReadsRoundConstant
  exact ⟨fun wd t => decodeBus_read (regOf_k t) wd, fun _ _ => rfl⟩

/-- Settles O22: the response is a word of the ROM. -/
theorem rdIvReadsInitialValue : Obligations.RdIvReadsInitialValue := by
  unfold Obligations.RdIvReadsInitialValue
  exact ⟨fun wd i => decodeBus_read (regOf_iv i) wd, fun _ i => ⟨_, rfl, wordList_getElem? initialValue i⟩⟩

/-- Byte `k` of word `j` of `BUF`, byte 0 the most significant, where it has been written (R46). -/
theorem extractLsb'_blkWord {s : State} {j k : Nat} {b : Byte} (hk : k < 4)
    (hb : Memory.read? (4 * j + k) s.buf = some b) : (blkWord s j).extractLsb' (24 - 8 * k) 8 = b := by
  have hfield := extractLsb'_wordOfBytes (bufByte s (4 * j)) (bufByte s (4 * j + 1)) (bufByte s (4 * j + 2))
    (bufByte s (4 * j + 3)) (j := 3 - k) (n := 0) (k := 8) (by omega) (by decide)
  rw [← bufByte_of_read hb, blkWord, show 24 - 8 * k = 8 * (3 - k) + 0 by omega, hfield]
  match k, hk with
  | 0, _ | 1, _ | 2, _ | 3, _ => exact BitVec.extractLsb'_eq_self

/-- A read that may draw changes the response and the count of draws only (R15, R170). -/
theorem noteDraw_respond_frame {s t : State} {d : Bool} {v : Word} (ht : t = noteDraw d (respond v s)) :
    t = { s with rspRdata := t.rspRdata, rspErr := false, draws := t.draws } := by
  rw [ht, noteDraw_eq]
  rfl

/-- Settles O19: the four bytes written; each byte that is written. -/
theorem rdBlkReadsBlockBuffer : Obligations.RdBlkReadsBlockBuffer := by
  unfold Obligations.RdBlkReadsBlockBuffer
  refine ⟨fun wd j => decodeBus_read (regOf_blk j) wd, fun s j b0 b1 b2 b3 h0 h1 h2 h3 => ?_, fun s j => ?_⟩
  · have hword : blkWord s j.toNat = wordOfBytes b0 b1 b2 b3 := by
      rw [blkWord, bufByte_of_read h0, bufByte_of_read h1, bufByte_of_read h2, bufByte_of_read h3]
    have hwritten : blkUnwritten s j.toNat = false := by simp [blkUnwritten, bufUnwritten, h0, h1, h2, h3]
    rw [exec, execRdBlk, hwritten, hword]
    rfl
  · refine ⟨_, rfl, noteDraw_respond_frame rfl, fun k b hk hb => ?_⟩
    rw [noteDraw_rspRdata]
    exact extractLsb'_blkWord hk hb

/-- Settles O20: a written word; any word. -/
theorem rdWReadsScheduleMemory : Obligations.RdWReadsScheduleMemory := by
  unfold Obligations.RdWReadsScheduleMemory
  refine ⟨fun wd t => decodeBus_read (regOf_w t) wd, fun s t v hv => ?_, fun s t => ?_⟩
  · rw [exec, execRdW, schedWord_of_read hv, schedUnwritten_of_written (by rw [hv]; rfl)]
    rfl
  · exact ⟨_, rfl, noteDraw_respond_frame rfl⟩

/-! ### Writes of `CFG` and `CTRL` (R173, R190 to R193) -/

/-- Settles O23: the low three bits are the operand. -/
theorem wrCfgStoresThreeBits : Obligations.WrCfgStoresThreeBits := by
  unfold Obligations.WrCfgStoresThreeBits
  refine ⟨fun hi v => ?_, fun _ _ => rfl⟩
  have hbits : (hi ++ v).extractLsb' 0 3 = v := BitVec.extractLsb'_append_eq_right
  rw [decodeBus_write (r := .cfg) rfl, decodeWrite, hbits]

/-- Settles O24: the response alone. -/
theorem nopChangesNothing : Obligations.NopChangesNothing := by
  unfold Obligations.NopChangesNothing
  exact ⟨fun hi => decodeBus_write_ctrl hi 0, fun _ => rfl⟩

/-- Settles O25: `INIT` looks at nothing of the state. -/
theorem initStartsNewMessage : Obligations.InitStartsNewMessage := by
  unfold Obligations.InitStartsNewMessage
  exact ⟨fun hi => decodeBus_write_ctrl hi 1, fun _ => rfl⟩

theorem exec_final_of_accept {s : State} (hp : s.phase = .accept) :
    exec .final s = .next (respond 0 { s with fin := true, phase := .pad1 }) :=
  if_neg (not_not.2 hp)

theorem exec_cont_of_halt {s : State} (hh : s.halt = true) :
    exec .cont s = .next (respond 0 { s with halt := false }) :=
  if_neg (by simp [hh])

/-- Settles O26: accepted in `ACCEPT`, and `E_SEQ`. -/
theorem finalEndsMessage : Obligations.FinalEndsMessage := by
  unfold Obligations.FinalEndsMessage
  exact ⟨fun hi => decodeBus_write_ctrl hi 2, fun _ => exec_final_of_accept,
    fun _ hp => exec_of_raisedError_some (x := .eSeq) (if_pos hp)⟩

/-- Settles O27: accepted with `HALT = 1`, and `E_SEQ`. -/
theorem contLeavesHalt : Obligations.ContLeavesHalt := by
  unfold Obligations.ContLeavesHalt
  exact ⟨fun hi => decodeBus_write_ctrl hi 3, fun _ => exec_cont_of_halt,
    fun _ hh => exec_of_raisedError_some (x := .eSeq) (if_pos hh)⟩

/-! ### The illegal transactions (R184, R185, R194) -/

/-- Settles O28: the unmapped numbers are the gaps of the register map, and each gap has its row. -/
theorem unmappedNumberRaisesAddr : Obligations.UnmappedNumberRaisesAddr := by
  unfold Obligations.UnmappedNumberRaisesAddr
  refine ⟨fun we a wd ha => ?_, fun s i hi => ?_⟩
  · rw [unmapped_eq_isGap] at ha
    rw [decodeBus_transactionWord]
    cases hr : regOf a
    case gap18 | gap30 | gapC8 | gapD0 | gapE0 => cases we <;> simp [decodeRead, decodeWrite]
    all_goals
      rw [hr] at ha
      cases ha
  · have hraise : ∀ i ∈ [Instr.illAddr18, .illAddr30, .illAddrC8, .illAddrD0, .illAddrE0],
        raisedError s i = some .eAddr := by simp [raisedError]
    exact exec_of_raisedError_some (hraise i hi)

/-- Settles O29: a write of each read-only register has its row, and so have the reads of `CTRL` and `DIN`. -/
theorem wrongAccessRaisesAccess : Obligations.WrongAccessRaisesAccess := by
  unfold Obligations.WrongAccessRaisesAccess
  refine ⟨fun we a wd _ ha => ?_, fun s i hi => ?_⟩
  · rcases ha with ⟨rfl, ha⟩ | ⟨rfl, rfl | rfl⟩
    · rw [readOnly_eq_isReadOnly] at ha
      rw [decodeBus_write rfl]
      cases hr : regOf a
      case id | status | err | lenLo | lenHi | h | r | blk | w | k | iv => simp [decodeWrite]
      all_goals
        rw [hr] at ha
        cases ha
    · rw [decodeBus_read rfl]
      decide
    · rw [decodeBus_read rfl]
      decide
  · have hraise : ∀ i ∈ [Instr.illAccessWrId, .illAccessRdCtrl, .illAccessWrStatus, .illAccessWrErr,
        .illAccessRdDin, .illAccessWrLen, .illAccessWrH, .illAccessWrR, .illAccessWrBlk, .illAccessWrW,
        .illAccessWrK, .illAccessWrIv], raisedError s i = some .eAccess := by simp [raisedError]
    exact exec_of_raisedError_some (hraise i hi)

/-- Settles O30: the codes 4 to 7 are those with `WDATA[2] = 1`. -/
theorem reservedCommandRaisesIllCmd : Obligations.ReservedCommandRaisesIllCmd := by
  unfold Obligations.ReservedCommandRaisesIllCmd
  refine ⟨fun hi lo => ?_, fun s => exec_of_raisedError_some (x := .eIllCmd) rfl⟩
  have hcode : ∀ lo : BitVec 2, decodeCommand (1#1 ++ lo) = .illCmd := by decide
  have hassoc : hi ++ 1#1 ++ lo = hi ++ (1#1 ++ lo) := BitVec.append_assoc
  rw [hassoc, decodeBus_write_ctrl, hcode]

/-! ### The micro-operations (R201, R204) -/

/-- A micro-operation is not selected while `HALT = 1` or where `PHASE` decodes to another or to none (R90, R201). -/
theorem not_selected {s : State} {p : Phase} {i : Instr} (hi : decodeMicroOp (phaseCode p) = .ok i)
    (h : s.halt = true ∨ decodeMicroOp (phaseCode s.phase) ≠ .ok i) : ¬ selected p s = true := by
  rw [selected_iff]
  rintro ⟨rfl, hh⟩
  rcases h with h | h
  · exact absurd h (by simp [hh])
  · exact h hi

/-- Settles O40, micro-operation by micro-operation. -/
theorem unselectedMicroOpIsRefused : Obligations.UnselectedMicroOpIsRefused := by
  unfold Obligations.UnselectedMicroOpIsRefused
  intro s i hm h
  cases i
  case uPad1 => exact if_neg (not_selected (p := .pad1) rfl h)
  case uSched => exact if_neg (not_selected (p := .sched) rfl h)
  case uLoad => exact if_neg (not_selected (p := .load) rfl h)
  case uRound => exact if_neg (not_selected (p := .rounds) rfl h)
  case uAccum => exact if_neg (not_selected (p := .accum) rfl h)
  case uPad2 => exact if_neg (not_selected (p := .pad2) rfl h)
  all_goals cases hm

section
variable {s : State} {e : BitVec 5} {c : BitVec 3} (hc : c.getLsbD 0 = s.cfg.getLsbD 0)
include hc

/-- Of `CFG` the hold looks at `STEP` alone, and at nothing of `ERR` (R33). -/
theorem holdIfStep_withErrCfg :
    holdIfStep { s with err := e, cfg := c } = { holdIfStep s with err := e, cfg := c } := by
  simp only [holdIfStep, hc]

theorem startBlock_withErrCfg (buf : List Host.Cell) (last : Bool) :
    startBlock buf last { s with err := e, cfg := c } = { startBlock buf last s with err := e, cfg := c } := by
  simp only [startBlock, holdIfStep, hc]

theorem scheduled_withErrCfg :
    scheduled { s with err := e, cfg := c } = { scheduled s with err := e, cfg := c } := by
  simp only [scheduled, noteDraw_eq, advance_eq, holdIfStep, hc]
  rfl

theorem rounded_withErrCfg :
    rounded { s with err := e, cfg := c } = { rounded s with err := e, cfg := c } := by
  simp only [rounded, noteDraw_eq, advance_eq, holdIfStep, hc]
  rfl

/-- The selected micro-operation does the same under any `ERR` and any `CFG` of the same `STEP` (R201). -/
theorem exec_selected_withErrCfg {i : Instr} (hh : s.halt = false)
    (hi : decodeMicroOp (phaseCode s.phase) = .ok i) :
    exec i { s with err := e, cfg := c } = mapNext (fun t => { t with err := e, cfg := c }) (exec i s) := by
  obtain ⟨p, hp⟩ : ∃ p, s.phase = p := ⟨_, rfl⟩
  rw [hp] at hi
  cases p <;> cases hi
  case pad1 =>
    by_cases hf : s.fill.toNat ≤ 63
    · rw [exec_uPad1_of_selected hp hh hf]
      exact (exec_uPad1_of_selected (s := { s with err := e, cfg := c }) hp hh hf).trans
        (congrArg _ (startBlock_withErrCfg hc _ _))
    · have hstop : exec .uPad1 s = .fault .bufIndexOutside := execUPad1_of_outside (not_le.1 hf) hp hh
      rw [hstop]
      exact execUPad1_of_outside (s := { s with err := e, cfg := c }) (not_le.1 hf) hp hh
  case sched =>
    rw [exec_uSched_of_selected hp hh]
    exact (exec_uSched_of_selected (s := { s with err := e, cfg := c }) hp hh).trans
      (congrArg _ (scheduled_withErrCfg hc))
  case load =>
    rw [exec_uLoad_of_selected hp hh]
    exact (exec_uLoad_of_selected (s := { s with err := e, cfg := c }) hp hh).trans
      (congrArg _ (holdIfStep_withErrCfg (s := { s with r := s.h, phase := .rounds, t := 0 }) hc))
  case rounds =>
    rw [exec_uRound_of_selected hp hh]
    exact (exec_uRound_of_selected (s := { s with err := e, cfg := c }) hp hh).trans
      (congrArg _ (rounded_withErrCfg hc))
  case accum =>
    rw [exec_uAccum_of_selected hp hh]
    exact (exec_uAccum_of_selected (s := { s with err := e, cfg := c }) hp hh).trans
      (congrArg _ (holdIfStep_withErrCfg
        (s := { s with h := addWords s.h s.r, fill := 0, t := 0, phase := afterAccum s }) hc))
  case pad2 =>
    rw [exec_uPad2_of_selected hp hh]
    exact (exec_uPad2_of_selected (s := { s with err := e, cfg := c }) hp hh).trans
      (congrArg _ (startBlock_withErrCfg hc _ _))

end

/-- Settles O41: the selected micro-operation; any other is refused, by `PHASE` and `HALT` alone. -/
theorem microOpsIgnoreErrAndInterrupts : Obligations.MicroOpsIgnoreErrAndInterrupts := by
  unfold Obligations.MicroOpsIgnoreErrAndInterrupts
  intro s i e c hm hc
  by_cases hsel : s.halt = true ∨ decodeMicroOp (phaseCode s.phase) ≠ .ok i
  · rw [unselectedMicroOpIsRefused s i hm hsel]
    exact unselectedMicroOpIsRefused { s with err := e, cfg := c } i hm hsel
  · obtain ⟨hh, hi⟩ := not_or.1 hsel
    exact exec_selected_withErrCfg hc (by simpa using hh) (not_not.1 hi)

end Sys2Proof.Machine
end

section
/-! SUPPORT. From a sound state no step stops (R200, R201), and how many micro-operations a sound state is away from
rest (R246, R250). -/

namespace Sys2Proof.Machine

/-! ### Every step of a sound state answers -/

/-- The engine's part of a step is never refused, and reads no unspecified location (R135, R147, R201). -/
theorem engineStep_of_inv {s : State} (hi : s.Inv) (hs : engineEnabled s = true) :
    ∃ t, engineStep s = .next t ∧ t.draws = s.draws := by
  obtain ⟨hbusy, hh⟩ := (engineEnabled_iff s).1 hs
  obtain ⟨p, hp⟩ : ∃ p, s.phase = p := ⟨_, rfl⟩
  rw [hp] at hbusy
  cases p
  case accept | done => cases hbusy
  case pad1 =>
    rw [engineStep_eq (i := .uPad1) (by rw [hp]; rfl), exec_uPad1_of_selected hp hh (hi.fill_le (.inr hp))]
    exact ⟨_, rfl, startBlock_draws ..⟩
  case sched =>
    rw [engineStep_eq (i := .uSched) (by rw [hp]; rfl), exec_uSched_of_selected hp hh]
    exact ⟨_, rfl, scheduled_draws (nextSchedUnwritten_of_inv hi hp)⟩
  case load =>
    rw [engineStep_eq (i := .uLoad) (by rw [hp]; rfl), exec_uLoad_of_selected hp hh]
    exact ⟨_, rfl, holdIfStep_draws _⟩
  case rounds =>
    rw [engineStep_eq (i := .uRound) (by rw [hp]; rfl), exec_uRound_of_selected hp hh]
    exact ⟨_, rfl, by simp [rounded, schedUnwritten_of_inv hi hp]⟩
  case accum =>
    rw [engineStep_eq (i := .uAccum) (by rw [hp]; rfl), exec_uAccum_of_selected hp hh]
    exact ⟨_, rfl, holdIfStep_draws _⟩
  case pad2 =>
    rw [engineStep_eq (i := .uPad2) (by rw [hp]; rfl), exec_uPad2_of_selected hp hh]
    exact ⟨_, rfl, startBlock_draws ..⟩

theorem engineTurn_of_inv {s : State} (hi : s.Inv) (go : Bool) :
    ∃ t, engineTurn go s = .next t ∧ t.draws = s.draws := by
  by_cases hidle : go = false ∨ engineEnabled s = false
  · exact ⟨s, engineTurn_of_idle hidle, rfl⟩
  · simp only [not_or, Bool.not_eq_false] at hidle
    obtain ⟨t, ht, hdraws⟩ := engineStep_of_inv hi hidle.2
    exact ⟨t, by simp [engineTurn, hidle, ht], hdraws⟩

/-- A transaction is answered in every sound state: with an error or without (R200, R212). -/
theorem exec_transaction_of_inv {s : State} {i : Instr} (hi : s.Inv) (hm : isMicroOp i = false) :
    ∃ t, exec i s = .next t := by
  cases h : raisedError s i with
  | some x => exact ⟨_, exec_of_raisedError_some h⟩
  | none =>
    obtain ⟨t, ht, _⟩ := exec_of_raisedError_none hm (fun hp => hi.fill_le (.inl hp)) h
    exact ⟨t, ht⟩

/-- Settles O50: reset; a transaction and then the engine; the engine alone. -/
theorem soundStepNeverStops : Obligations.SoundStepNeverStops := by
  unfold Obligations.SoundStepNeverStops
  intro s hi
  have htake : (takePins s).Inv := (sameData_takePins s).inv hi
  cases hrst : (nextPins s).rst with
  | true => exact ⟨hardReset (takePins s), by simp [step, cycle, hrst], fun _ => rfl⟩
  | false =>
    cases hreq : (nextPins s).reqValid with
    | true =>
      obtain ⟨u, hu⟩ := exec_transaction_of_inv htake (isMicroOp_decodeBus (pinsWord (nextPins s)))
      obtain ⟨t, ht, _⟩ := engineTurn_of_inv (inv_of_exec htake hu) ((nextPins s).engine && engineEnabled s)
      exact ⟨t, (step_of_transaction hrst hreq hu).trans ht, by simp⟩
    | false =>
      obtain ⟨t, ht, hdraws⟩ := engineTurn_of_inv ((sameData_respond 0 _).inv htake) (nextPins s).engine
      exact ⟨t, (step_of_no_transaction hrst hreq).trans ht, fun _ => hdraws⟩

/-! ### The way to rest (R250) -/

/-- Micro-operations after the block in work: none, or `uPAD2` and the block of the length (R111). -/
def stepsAfterBlock (s : State) : Nat := if s.fin && !s.lastblk then 1 + blockSteps else 0

/-- Micro-operations from a sound state to the next phase that needs the host. -/
def stepsToRest (s : State) : Nat :=
  match s.phase with
  | .accept | .done => 0
  | .pad1 => 1 + blockSteps + if s.fill.toNat ≤ 55 then 0 else 1 + blockSteps
  | .sched => (64 - s.t.toNat) + 66 + stepsAfterBlock s
  | .load => 66 + stepsAfterBlock s
  | .rounds => (64 - s.t.toNat) + 1 + stepsAfterBlock s
  | .accum => 1 + stepsAfterBlock s
  | .pad2 => 1 + blockSteps

section
variable {s : State}

theorem stepsToRest_accept (hp : s.phase = .accept) : stepsToRest s = 0 := by rw [stepsToRest, hp]

theorem stepsToRest_pad1 (hp : s.phase = .pad1) :
    stepsToRest s = 1 + blockSteps + if s.fill.toNat ≤ 55 then 0 else 1 + blockSteps := by rw [stepsToRest, hp]

theorem stepsToRest_sched (hp : s.phase = .sched) :
    stepsToRest s = (64 - s.t.toNat) + 66 + stepsAfterBlock s := by rw [stepsToRest, hp]

theorem stepsToRest_load (hp : s.phase = .load) : stepsToRest s = 66 + stepsAfterBlock s := by rw [stepsToRest, hp]

theorem stepsToRest_rounds (hp : s.phase = .rounds) :
    stepsToRest s = (64 - s.t.toNat) + 1 + stepsAfterBlock s := by rw [stepsToRest, hp]

theorem stepsToRest_accum (hp : s.phase = .accum) : stepsToRest s = 1 + stepsAfterBlock s := by rw [stepsToRest, hp]

theorem stepsToRest_pad2 (hp : s.phase = .pad2) : stepsToRest s = 1 + blockSteps := by rw [stepsToRest, hp]

theorem stepsAfterBlock_le (s : State) : stepsAfterBlock s ≤ 131 := by
  unfold stepsAfterBlock
  split <;> decide

/-- The most a state is away from rest: two blocks and the two paddings (R250). -/
theorem stepsToRest_le (s : State) : stepsToRest s ≤ 262 := by
  have hafter := stepsAfterBlock_le s
  cases hp : s.phase with
  | pad1 =>
    rw [stepsToRest_pad1 hp]
    split <;> decide
  | pad2 =>
    rw [stepsToRest_pad2 hp]
    decide
  | accept | done | sched | load | rounds | accum =>
    simp only [stepsToRest, hp]
    omega

/-- The two phases that need the host are those with no way to go. -/
theorem stepsToRest_eq_zero (h : stepsToRest s = 0) : s.phase = .accept ∨ s.phase = .done := by
  cases hp : s.phase <;> simp [stepsToRest, hp, blockSteps] at h ⊢

theorem stepsAfterBlock_congr {t : State} (hfin : t.fin = s.fin) (hlast : t.lastblk = s.lastblk) :
    stepsAfterBlock t = stepsAfterBlock s := by
  rw [stepsAfterBlock, stepsAfterBlock, hfin, hlast]

/-- The padding is one step, and leaves a block of 130 (R110, R112). -/
theorem stepsToRest_startBlock (buf : List Host.Cell) (last : Bool) (hfin : s.fin = true) :
    stepsToRest (startBlock buf last s) = blockSteps + if last then 0 else 1 + blockSteps := by
  rw [stepsToRest_sched rfl, startBlock_t, stepsAfterBlock, startBlock_fin, startBlock_lastblk, hfin]
  cases last <;> rfl

theorem stepsToRest_scheduled (hp : s.phase = .sched) : stepsToRest (scheduled s) + 1 = stepsToRest s := by
  have hafter : stepsAfterBlock (scheduled s) = stepsAfterBlock s :=
    stepsAfterBlock_congr (by simp [scheduled]) (by simp [scheduled])
  have ht := s.t.isLt
  rw [stepsToRest_sched hp]
  by_cases hlast : s.t.toNat = 63
  · obtain ⟨hp', _⟩ := scheduled_position_of_last hlast
    rw [stepsToRest_load hp']
    omega
  · obtain ⟨hp', ht'⟩ := scheduled_position_of_more hp hlast
    rw [stepsToRest_sched hp', ht']
    omega

theorem stepsToRest_rounded (hp : s.phase = .rounds) : stepsToRest (rounded s) + 1 = stepsToRest s := by
  have hafter : stepsAfterBlock (rounded s) = stepsAfterBlock s :=
    stepsAfterBlock_congr (by simp [rounded]) (by simp [rounded])
  have ht := s.t.isLt
  rw [stepsToRest_rounds hp]
  by_cases hlast : s.t.toNat = 63
  · obtain ⟨hp', _⟩ := rounded_position_of_last hlast
    rw [stepsToRest_accum hp']
    omega
  · obtain ⟨hp', ht'⟩ := rounded_position_of_more hp hlast
    rw [stepsToRest_rounds hp', ht']
    omega

/-- After a block the engine rests, but where the block of the length follows (R157). -/
theorem stepsToRest_of_afterAccum {t : State} (hp : t.phase = afterAccum s) :
    stepsToRest t = stepsAfterBlock s := by
  rw [afterAccum_eq] at hp
  cases hfin : s.fin <;> cases hlast : s.lastblk <;> rw [hfin, hlast] at hp <;>
    simp [stepsToRest, stepsAfterBlock, hp, hfin, hlast]

/-- Each micro-operation is one of the steps to rest. -/
theorem stepsToRest_engineStep {t : State} (hi : s.Inv) (h : engineStep s = .next t) :
    stepsToRest t + 1 = stepsToRest s := by
  rcases engineStep_cases h with ⟨_, h⟩ | ⟨_, h⟩ | ⟨_, h⟩ | ⟨_, h⟩ | ⟨_, h⟩ | ⟨_, h⟩
  · obtain ⟨hp, _, _, rfl⟩ := execUPad1_cases h
    obtain ⟨_, _, _, hfin, _⟩ := (phaseFacts_pad1 hp).1 hi.phaseFacts
    rw [padded1, stepsToRest_startBlock _ _ hfin, stepsToRest_pad1 hp]
    simp only [decide_eq_true_eq]
    omega
  · obtain ⟨hp, _, rfl⟩ := execUSched_cases h
    exact stepsToRest_scheduled hp
  · obtain ⟨hp, _, rfl⟩ := execULoad_cases h
    rw [stepsToRest_load hp, stepsToRest_rounds rfl]
    change 65 + stepsAfterBlock s + 1 = 66 + stepsAfterBlock s
    omega
  · obtain ⟨hp, _, rfl⟩ := execURound_cases h
    exact stepsToRest_rounded hp
  · obtain ⟨hp, _, rfl⟩ := execUAccum_cases h
    rw [stepsToRest_of_afterAccum (s := s) rfl, stepsToRest_accum hp, Nat.add_comm]
  · obtain ⟨hp, _, rfl⟩ := execUPad2_cases h
    obtain ⟨_, _, hfin, _⟩ := (phaseFacts_pad2 hp).1 hi.phaseFacts
    rw [stepsToRest_startBlock _ _ hfin, stepsToRest_pad2 hp]
    rfl

end

theorem stepsToRest_quiet (s : State) : stepsToRest (quiet s) = stepsToRest s := rfl

theorem busy_of_stepsToRest {s : State} {n : Nat} (h : stepsToRest s = n + 1) : busy s.phase = true := by
  cases hp : s.phase <;> simp [stepsToRest, hp, busy] at h ⊢

/-- A free-running engine left alone goes all the way, and writes neither `ERR`, `NBYTES` nor `FIN` on it (R201). -/
theorem run_stepsToRest (n : Nat) : ∀ {s : State}, s.Inv → RunsAlone s → stepsToRest s = n →
    ∃ t, core.run n s = .next t ∧ (t.phase = .accept ∨ t.phase = .done) ∧ t.err = s.err ∧ t.nbytes = s.nbytes ∧
      t.fin = s.fin := by
  induction n with
  | zero => exact fun {s} _ _ h => ⟨s, rfl, stepsToRest_eq_zero h, rfl, rfl, rfl⟩
  | succ n ih =>
    intro s hi halone h
    have hquiet : (quiet s).Inv := (sameData_respond 0 s).inv hi
    have hs : engineEnabled (quiet s) = true := (engineEnabled_iff _).2 ⟨busy_of_stepsToRest h, halone.halt⟩
    obtain ⟨u, hengine, _⟩ := engineStep_of_inv hquiet hs
    have hturn : engineTurn true (quiet s) = .next u := by simpa [engineTurn, hs] using hengine
    have hstep : step s = .next u := (step_of_no_inputs halone.inputs).trans hturn
    obtain ⟨herr, hfin, hn, hcfg, _, _, hin⟩ := engineTurn_keeps hturn
    obtain ⟨i, hm, hexec⟩ := engineStep_exec hengine
    have halone' : RunsAlone u :=
      ⟨(exec_microOp_halt hm hexec).trans halone.free, hcfg ▸ halone.free, hin.trans halone.inputs⟩
    have hrest := stepsToRest_engineStep hquiet hengine
    rw [stepsToRest_quiet, h] at hrest
    obtain ⟨t, hrun, hp, herr', hn', hfin'⟩ :=
      ih (stepKeepsInvariant s u hi hstep) halone' (Nat.succ.inj hrest)
    exact ⟨t, (run_succ_of_step (M := core) hstep n).trans hrun, hp, herr'.trans herr, hn'.trans hn, hfin'.trans hfin⟩

/-- Settles O57: the steps to rest are at most 262. -/
theorem engineComesToRest : Obligations.EngineComesToRest := by
  unfold Obligations.EngineComesToRest
  intro s hi hh hfree hin
  obtain ⟨t, ht⟩ := run_stepsToRest (stepsToRest s) hi ⟨hh, hfree, hin⟩ rfl
  exact ⟨_, t, stepsToRest_le s, ht⟩

end Sys2Proof.Machine
end

section
/-! SUPPORT. The host of R203 beside the engine: what a turn of the two can do, that the facts of each place of the
listing are kept in every interleaving (R71, R164, R203, R204), and that the host finishes where both act in every
step (R70, R193). -/

namespace Sys2Proof.Machine

/-! ### The engine in a turn (R70, R77) -/

/-- What is no micro-operation is encoded as a transaction word, which decodes to it (R81). -/
theorem exists_encode_of_transaction {i : Instr} (hm : isMicroOp i = false) :
    ∃ tw, encode i = .transaction tw ∧ decodeBus tw = i := by
  have hdecode := decodeInvertsEncode i
  cases he : encode i with
  | transaction tw =>
    rw [he] at hdecode
    exact ⟨tw, rfl, Except.ok.inj hdecode⟩
  | microOp p =>
    cases i
    case uPad1 | uSched | uLoad | uRound | uAccum | uPad2 => cases hm
    all_goals cases he

section
variable {plan : HostPlan} {m : List Byte} {turn : Turn} {b b' : Bench} {i : Instr}

/-- In a turn with a transaction it is performed, and the engine then takes its turn if it was enabled before. -/
theorem benchStep_performs (h : benchStep plan m turn b = .next b') (hr : turnRequest turn.host b.host = some i)
    (hm : isMicroOp i = false) :
    ∃ u, exec i { b.engine with inputs := [] } = .next u ∧
      engineTurn (turn.engine && engineEnabled b.engine) u = .next b'.engine := by
  obtain ⟨tw, he, hi⟩ := exists_encode_of_transaction hm
  obtain ⟨u, hexec, hturn⟩ := benchStep_transaction h hr he
  rw [transactionWord_fields, hi] at hexec
  exact ⟨u, hexec, hturn⟩

/-- Where the engine had no step, the turn is the transaction alone. -/
theorem benchStep_performs_alone (h : benchStep plan m turn b = .next b')
    (hr : turnRequest turn.host b.host = some i) (hm : isMicroOp i = false) (hs : engineEnabled b.engine = false) :
    exec i { b.engine with inputs := [] } = .next b'.engine := by
  obtain ⟨u, hexec, hturn⟩ := benchStep_performs h hr hm
  rw [hs, Bool.and_false] at hturn
  cases hturn
  exact hexec

/-- A sound engine answers in every turn. -/
theorem benchStep_of_inv (plan : HostPlan) (m : List Byte) (turn : Turn) (hi : b.engine.Inv) :
    ∃ b', benchStep plan m turn b = .next b' := by
  obtain ⟨t, ht, _⟩ := soundStepNeverStops
    { b.engine with inputs := [turnPins (turnRequest turn.host b.host) turn.engine] } ((sameData_withInputs _ _).inv hi)
  exact benchStep_next ht

end

/-! ### A turn that leaves the data to the engine -/

/-- The host writes none of the data, nor `ERR` nor `HALT`, and leaves `CFG` at `c`; then the engine has its turn. -/
def Undisturbed (c : BitVec 3) (go : Bool) (s t : State) : Prop :=
  ∃ u, SameData s u ∧ u.err = s.err ∧ u.halt = s.halt ∧ u.cfg = c ∧ engineTurn go u = .next t

theorem engineEnabled_congr {s u : State} (hsame : SameData s u) (hh : u.halt = s.halt) :
    engineEnabled u = engineEnabled s := by
  rw [engineEnabled, engineEnabled, hsame.phase, hh]

theorem engineEnabled_of_accept {s : State} (hp : s.phase = .accept) : engineEnabled s = false := by
  simp [engineEnabled, hp, busy]

theorem engineEnabled_of_done {s : State} (hp : s.phase = .done) : engineEnabled s = false := by
  simp [engineEnabled, hp, busy]

theorem engineEnabled_of_halt {s : State} (hh : s.halt = true) : engineEnabled s = false := by
  simp [engineEnabled, hh]

theorem stepsToRest_congr {s u : State} (h : SameData s u) : stepsToRest u = stepsToRest s := by
  simp only [stepsToRest, stepsAfterBlock, h.phase, h.fill, h.t, h.fin, h.lastblk]

section
variable {c : BitVec 3} {go : Bool} {s t : State} {m : List Byte} (hu : Undisturbed c go s t)
include hu

theorem Undisturbed.hashing (hm : Hashing m s) : Hashing m t := by
  obtain ⟨u, hsame, _, _, _, hturn⟩ := hu
  exact hashing_of_engineTurn (hsame.hashing hm) hturn

theorem Undisturbed.inv (hi : s.Inv) : t.Inv := by
  obtain ⟨u, hsame, _, _, _, hturn⟩ := hu
  rcases engineTurn_cases hturn with ⟨rfl, _⟩ | ⟨_, _, hstep⟩
  · exact hsame.inv hi
  · obtain ⟨i, _, hexec⟩ := engineStep_exec hstep
    exact inv_of_exec (hsame.inv hi) hexec

theorem Undisturbed.keeps : t.err = s.err ∧ t.fin = s.fin ∧ t.nbytes = s.nbytes ∧ t.cfg = c := by
  obtain ⟨u, hsame, herr, _, hcfg, hturn⟩ := hu
  obtain ⟨herr', hfin, hn, hcfg', _⟩ := engineTurn_keeps hturn
  exact ⟨herr'.trans herr, hfin.trans hsame.fin, hn.trans hsame.nbytes, hcfg'.trans hcfg⟩

theorem Undisturbed.sent (hs : Sent m s) : Sent m t := ⟨hu.hashing hs.1, hu.keeps.1.trans hs.2⟩

/-- Where the engine has no step, nothing is written at all. -/
theorem Undisturbed.idle (hs : engineEnabled s = false) : SameData s t ∧ t.halt = s.halt := by
  obtain ⟨u, hsame, _, hh, _, hturn⟩ := hu
  cases engineTurn_of_not_enabled ((engineEnabled_congr hsame hh).trans hs) hturn
  exact ⟨hsame, hh⟩

/-- An engine that runs free is not held (R33). -/
theorem Undisturbed.halt (hfree : c.getLsbD 0 = false) (hs : s.halt = false) : t.halt = false := by
  obtain ⟨u, _, _, hh, hcfg, hturn⟩ := hu
  rcases engineTurn_cases hturn with ⟨rfl, _⟩ | ⟨_, _, hstep⟩
  · exact hh.trans hs
  · obtain ⟨i, hm, hexec⟩ := engineStep_exec hstep
    rw [exec_microOp_halt hm hexec, hcfg, hfree]

end

/-- An engine that has a step and is given its turn is one step nearer to rest. -/
theorem Undisturbed.stepsToRest_succ {c : BitVec 3} {s t : State} (hu : Undisturbed c true s t) (hi : s.Inv)
    (hs : engineEnabled s = true) : stepsToRest t + 1 = stepsToRest s := by
  obtain ⟨u, hsame, _, hh, _, hturn⟩ := hu
  have hs' : engineEnabled u = true := (engineEnabled_congr hsame hh).trans hs
  have hstep : engineStep u = .next t := by simpa [engineTurn, hs'] using hturn
  rw [← stepsToRest_congr hsame]
  exact stepsToRest_engineStep (hsame.inv hi) hstep

/-- R204's liberties write none of the data, nor `ERR` nor `HALT`. -/
theorem exec_of_liberty {i : Instr} (s : State) (hi : liberty i = true) :
    ∃ u, exec i s = .next u ∧ SameData s u ∧ u.err = s.err ∧ u.halt = s.halt := by
  cases i
  case rdBlk | rdW => exact ⟨_, rfl, sameData_noteDraw_respond _ _ _, noteDraw_err _ _, noteDraw_halt _ _⟩
  case nop | wrCfg | rdId | rdCfg | rdStatus | rdErr | rdLenLo | rdLenHi | rdH | rdR | rdK | rdIv =>
    exact ⟨_, rfl, ⟨rfl, rfl, rfl, rfl, rfl, rfl, rfl, rfl, rfl, rfl⟩, rfl, rfl⟩
  all_goals cases hi

theorem isMicroOp_of_liberty {i : Instr} (hi : liberty i = true) : isMicroOp i = false := by
  cases i
  case uPad1 | uSched | uLoad | uRound | uAccum | uPad2 => cases hi
  all_goals rfl

theorem SameData.trans {s t u : State} (h : SameData s t) (h' : SameData t u) : SameData s u :=
  ⟨h'.h.trans h.h, h'.r.trans h.r, h'.w.trans h.w, h'.buf.trans h.buf, h'.fill.trans h.fill,
    h'.nbytes.trans h.nbytes, h'.fin.trans h.fin, h'.lastblk.trans h.lastblk, h'.phase.trans h.phase, h'.t.trans h.t⟩

section
variable {plan : HostPlan} {m : List Byte} {turn : Turn} {b b' : Bench} {i : Instr}

/-- A turn without a transaction leaves the data to the engine. -/
theorem benchStep_undisturbed_of_none (h : benchStep plan m turn b = .next b')
    (hr : turnRequest turn.host b.host = none) : Undisturbed b.engine.cfg turn.engine b.engine b'.engine :=
  ⟨_, (sameData_withInputs b.engine []).trans (sameData_respond 0 _), rfl, rfl, rfl, benchStep_silent h hr⟩

/-- So does a transaction that writes none of it, and the host is given its answer. -/
theorem benchStep_undisturbed_of_some {u : State} (h : benchStep plan m turn b = .next b')
    (hr : turnRequest turn.host b.host = some i) (hi : liberty i = true)
    (hexec : exec i { b.engine with inputs := [] } = .next u) :
    Undisturbed u.cfg turn.engine b.engine b'.engine ∧ b'.engine.rspRdata = u.rspRdata := by
  obtain ⟨u', hu', hsame, herr, hh⟩ := exec_of_liberty { b.engine with inputs := [] } hi
  cases hexec.symm.trans hu'
  obtain ⟨v, hv, hturn⟩ := benchStep_performs h hr (isMicroOp_of_liberty hi)
  cases hexec.symm.trans hv
  have hsame' := (sameData_withInputs b.engine []).trans hsame
  obtain ⟨_, _, _, _, hrdata, _⟩ := engineTurn_keeps hturn
  refine ⟨⟨u, hsame', herr, hh, rfl, ?_⟩, hrdata⟩
  rwa [← engineEnabled_congr hsame' hh, engineTurn, Bool.and_assoc, Bool.and_self] at hturn

end

/-! ### What the host reads in `STATUS` (R42, R92, R203) -/

theorem waitReadyEnds_statusWord (s : State) : waitReadyEnds (statusWord s) = decide (s.phase = .accept) :=
  getLsbD_statusWord_flag s (i := 0) (by decide)

theorem waitDoneEnds_statusWord (s : State) : waitDoneEnds (statusWord s) = decide (s.phase = .done) :=
  getLsbD_statusWord_flag s (i := 2) (by decide)

theorem statusSaysValid_statusWord (s : State) :
    statusSaysValid (statusWord s) = decide (s.phase = .done ∧ s.err = 0) :=
  (getLsbD_statusWord_flag s (i := 3) (by decide)).trans (statusValid_eq_decide s)

theorem statusSaysHalt_statusWord (s : State) : statusSaysHalt (statusWord s) = s.halt :=
  getLsbD_statusWord_flag s (i := 4) (by decide)

/-- `READY = 1` with a byte left. -/
theorem afterPollReady_of_byte (plan : HostPlan) {s : State} (hp : s.phase = .accept) (p : HostPlace) (b : Byte)
    (bs : List Byte) (digest : List Word) (f : Nat) :
    afterPollReady plan (statusWord s) ⟨p, b :: bs, digest, f⟩ =
      ⟨.push b (bytesAfterNext plan (statusWord s)), bs, digest, f⟩ :=
  if_pos ((waitReadyEnds_statusWord s).trans (decide_eq_true hp))

/-- `READY = 1` with all bytes accepted. -/
theorem afterPollReady_of_nil (plan : HostPlan) {s : State} (hp : s.phase = .accept) (p : HostPlace)
    (digest : List Word) (f : Nat) :
    afterPollReady plan (statusWord s) ⟨p, [], digest, f⟩ = ⟨.final, [], digest, f⟩ :=
  if_pos ((waitReadyEnds_statusWord s).trans (decide_eq_true hp))

/-- `READY = 0`: `HALT` decides. -/
theorem afterPollReady_of_busy (plan : HostPlan) {s : State} (hp : s.phase ≠ .accept) (h : HostSide) :
    afterPollReady plan (statusWord s) h = if s.halt then { h with place := .cont false } else h := by
  rw [afterPollReady, waitReadyEnds_statusWord, statusSaysHalt_statusWord, if_neg (by simpa using hp)]

/-- The branches of the last loop, by the engine: without an error `DONE` is `VALID`. -/
theorem afterPollDone_statusWord {s : State} (herr : s.err = 0) (h : HostSide) :
    afterPollDone (statusWord s) h =
      if s.phase = .done then { h with place := .readDigest readDigest }
      else if s.halt then { h with place := .cont true }
      else h := by
  rw [afterPollDone, waitDoneEnds_statusWord, statusSaysValid_statusWord, statusSaysHalt_statusWord]
  by_cases hp : s.phase = .done <;> simp [hp, herr]

/-- The bytes that may follow the next one have room in `BUF` (R71). -/
theorem fill_add_bytesAfterNext_le (plan : HostPlan) {s : State} (hfill : s.fill.toNat ≤ 63) :
    s.fill.toNat + bytesAfterNext plan (statusWord s) ≤ 63 := by
  rw [bytesAfterNext, statusFill, statusWord_fill]
  split <;> omega

/-! ### What a turn in which the host proceeds can do (R203) -/

/-- The rules of R203's listing, one for each branch, from a bench where the facts of its place hold. -/
inductive Proceeds (plan : HostPlan) (go : Bool) : Bench → Bench → Prop
  /-- `WR CFG` -/
  | writesCfg {v rest digest f s t} : Undisturbed v go s t →
      Proceeds plan go ⟨⟨.writeCfg v, rest, digest, f⟩, s⟩ ⟨⟨hostBegin plan, rest, digest, f⟩, t⟩
  /-- `INIT` -/
  | starts {rest digest f s} :
      Proceeds plan go ⟨⟨.init, rest, digest, f⟩, s⟩
        ⟨⟨.pollReady, rest, digest, f⟩, respond 0 (initMessage { s with inputs := [] })⟩
  /-- `READY = 1` and a byte is left -/
  | findsReady {byte rest digest f s t} : s.phase = .accept → Undisturbed s.cfg go s t →
      Proceeds plan go ⟨⟨.pollReady, byte :: rest, digest, f⟩, s⟩
        ⟨⟨.push byte (bytesAfterNext plan (statusWord s)), rest, digest, f⟩, t⟩
  /-- `READY = 1` and all bytes are accepted -/
  | findsAllSent {digest f s t} : s.phase = .accept → Undisturbed s.cfg go s t →
      Proceeds plan go ⟨⟨.pollReady, [], digest, f⟩, s⟩ ⟨⟨.final, [], digest, f⟩, t⟩
  /-- `READY = 0` and `HALT = 1` -/
  | findsHalted {rest digest f s t} : s.halt = true → Undisturbed s.cfg go s t →
      Proceeds plan go ⟨⟨.pollReady, rest, digest, f⟩, s⟩ ⟨⟨.cont false, rest, digest, f⟩, t⟩
  /-- `READY = 0` -/
  | findsBusy {rest digest f s t} : s.phase ≠ .accept → s.halt = false → Undisturbed s.cfg go s t →
      Proceeds plan go ⟨⟨.pollReady, rest, digest, f⟩, s⟩ ⟨⟨.pollReady, rest, digest, f⟩, t⟩
  /-- `PUSH`, and the next byte follows at once -/
  | pushesOn {byte next left rest digest f s} :
      Proceeds plan go ⟨⟨.push byte (left + 1), next :: rest, digest, f⟩, s⟩
        ⟨⟨.push next left, rest, digest, f⟩, pushed byte { s with inputs := [] }⟩
  /-- `PUSH`, and a read of `STATUS` follows -/
  | pushes {byte left rest digest f s} :
      Proceeds plan go ⟨⟨.push byte left, rest, digest, f⟩, s⟩
        ⟨⟨.pollReady, rest, digest, f⟩, pushed byte { s with inputs := [] }⟩
  /-- `FINAL` -/
  | ends {rest digest f s} :
      Proceeds plan go ⟨⟨.final, rest, digest, f⟩, s⟩
        ⟨⟨if plan.useIrq then .waitIrq else .pollDone, rest, digest, f⟩,
          respond 0 { s with inputs := [], fin := true, phase := .pad1 }⟩
  /-- `irq` -/
  | seesIrq {rest digest f s t} : Undisturbed s.cfg go s t →
      Proceeds plan go ⟨⟨.waitIrq, rest, digest, f⟩, s⟩ ⟨⟨.pollDone, rest, digest, f⟩, t⟩
  /-- no `irq` yet -/
  | seesNoIrq {rest digest f s t} : irq t = false → Undisturbed s.cfg go s t →
      Proceeds plan go ⟨⟨.waitIrq, rest, digest, f⟩, s⟩ ⟨⟨.waitIrq, rest, digest, f⟩, t⟩
  /-- `DONE = 1` and `VALID = 1` -/
  | findsDone {rest digest f s t} : s.phase = .done → Undisturbed s.cfg go s t →
      Proceeds plan go ⟨⟨.pollDone, rest, digest, f⟩, s⟩ ⟨⟨.readDigest readDigest, rest, digest, f⟩, t⟩
  /-- `DONE = 0` and `HALT = 1` -/
  | findsHaltedAtEnd {rest digest f s t} : s.halt = true → Undisturbed s.cfg go s t →
      Proceeds plan go ⟨⟨.pollDone, rest, digest, f⟩, s⟩ ⟨⟨.cont true, rest, digest, f⟩, t⟩
  /-- `DONE = 0` -/
  | findsBusyAtEnd {rest digest f s t} : s.phase ≠ .done → s.halt = false → Undisturbed s.cfg go s t →
      Proceeds plan go ⟨⟨.pollDone, rest, digest, f⟩, s⟩ ⟨⟨.pollDone, rest, digest, f⟩, t⟩
  /-- `CONT` -/
  | continues {last rest digest f s} :
      Proceeds plan go ⟨⟨.cont last, rest, digest, f⟩, s⟩
        ⟨⟨if last then .pollDone else .pollReady, rest, digest, f⟩,
          respond 0 { s with inputs := [], halt := false }⟩
  /-- a word of the digest, and another follows -/
  | readsWord {i next left rest digest f s t} : Undisturbed s.cfg go s t →
      Proceeds plan go ⟨⟨.readDigest (.rdH i :: next :: left), rest, digest, f⟩, s⟩
        ⟨⟨.readDigest (next :: left), rest, digest ++ [wordAt s.h i], f⟩, t⟩
  /-- the last word -/
  | readsLastWord {i rest digest f s t} : Undisturbed s.cfg go s t →
      Proceeds plan go ⟨⟨.readDigest [.rdH i], rest, digest, f⟩, s⟩
        ⟨⟨.finished, rest, digest ++ [wordAt s.h i], f⟩, t⟩
  /-- nothing more to do -/
  | rests {rest digest f s t} : Undisturbed s.cfg go s t →
      Proceeds plan go ⟨⟨.finished, rest, digest, f⟩, s⟩ ⟨⟨.finished, rest, digest, f⟩, t⟩

section
variable {plan : HostPlan} {m : List Byte} {go : Bool} {rest : List Byte} {digest : List Word} {f : Nat} {s : State}
  {b' : Bench}

/-- After a turn in which the host proceeds, what is left to know is the engine. -/
theorem eq_of_benchStep_proceed {b : Bench} (h : benchStep plan m ⟨.proceed, go⟩ b = .next b') :
    b' = ⟨hostReceive plan m b'.engine.rspRdata (irq b'.engine) b.host, b'.engine⟩ := by
  obtain ⟨host, t⟩ := b'
  exact congrArg (Bench.mk · t) (benchStep_cases h).2

theorem proceeds_writeCfg {v : BitVec 3}
    (h : benchStep plan m ⟨.proceed, go⟩ ⟨⟨.writeCfg v, rest, digest, f⟩, s⟩ = .next b') :
    Proceeds plan go ⟨⟨.writeCfg v, rest, digest, f⟩, s⟩ b' := by
  rw [eq_of_benchStep_proceed h]
  exact .writesCfg (benchStep_undisturbed_of_some (i := .wrCfg v) h rfl rfl rfl).1

theorem proceeds_init (h : benchStep plan m ⟨.proceed, go⟩ ⟨⟨.init, rest, digest, f⟩, s⟩ = .next b') :
    Proceeds plan go ⟨⟨.init, rest, digest, f⟩, s⟩ b' := by
  obtain ⟨u, hexec, hturn⟩ := benchStep_performs (i := .init) h rfl rfl
  cases hexec
  rw [eq_of_benchStep_proceed h, engineTurn_of_not_enabled (engineEnabled_of_accept rfl) hturn]
  exact .starts

theorem proceeds_pollReady (h : benchStep plan m ⟨.proceed, go⟩ ⟨⟨.pollReady, rest, digest, f⟩, s⟩ = .next b') :
    Proceeds plan go ⟨⟨.pollReady, rest, digest, f⟩, s⟩ b' := by
  obtain ⟨hu, hstatus⟩ := benchStep_undisturbed_of_some (i := .rdStatus) h rfl rfl rfl
  have hstatus : b'.engine.rspRdata = statusWord s := hstatus
  rw [eq_of_benchStep_proceed h, hstatus]
  change Proceeds plan go _ ⟨afterPollReady plan (statusWord s) _, _⟩
  by_cases hp : s.phase = .accept
  · cases rest with
    | nil =>
      rw [afterPollReady_of_nil plan hp]
      exact .findsAllSent hp hu
    | cons byte rest =>
      rw [afterPollReady_of_byte plan hp]
      exact .findsReady hp hu
  · rw [afterPollReady_of_busy plan hp]
    by_cases hh : s.halt = true
    · rw [if_pos hh]
      exact .findsHalted hh hu
    · rw [if_neg hh]
      exact .findsBusy hp (by simpa using hh) hu

theorem proceeds_pollDone (herr : s.err = 0)
    (h : benchStep plan m ⟨.proceed, go⟩ ⟨⟨.pollDone, rest, digest, f⟩, s⟩ = .next b') :
    Proceeds plan go ⟨⟨.pollDone, rest, digest, f⟩, s⟩ b' := by
  obtain ⟨hu, hstatus⟩ := benchStep_undisturbed_of_some (i := .rdStatus) h rfl rfl rfl
  have hstatus : b'.engine.rspRdata = statusWord s := hstatus
  rw [eq_of_benchStep_proceed h, hstatus]
  change Proceeds plan go _ ⟨afterPollDone (statusWord s) _, _⟩
  rw [afterPollDone_statusWord herr]
  by_cases hp : s.phase = .done
  · rw [if_pos hp]
    exact .findsDone hp hu
  · rw [if_neg hp]
    by_cases hh : s.halt = true
    · rw [if_pos hh]
      exact .findsHaltedAtEnd hh hu
    · rw [if_neg hh]
      exact .findsBusyAtEnd hp (by simpa using hh) hu

theorem proceeds_push {byte : Byte} {left : Nat} (hp : s.phase = .accept) (hn : s.nbytes.toNat ≠ 2 ^ 61 - 1)
    (hf : s.fill.toNat ≤ 63)
    (h : benchStep plan m ⟨.proceed, go⟩ ⟨⟨.push byte left, rest, digest, f⟩, s⟩ = .next b') :
    Proceeds plan go ⟨⟨.push byte left, rest, digest, f⟩, s⟩ b' := by
  have hexec := benchStep_performs_alone (i := .push byte) h rfl rfl (engineEnabled_of_accept hp)
  have ht : b'.engine = pushed byte { s with inputs := [] } :=
    (Host.Outcome.next.inj ((exec_push_of_room (s := { s with inputs := [] }) byte hp hn hf).symm.trans hexec)).symm
  rw [eq_of_benchStep_proceed h, ht]
  match left, rest with
  | left + 1, next :: rest => exact .pushesOn
  | left + 1, [] => exact .pushes
  | 0, _ => exact .pushes

theorem proceeds_final (hp : s.phase = .accept)
    (h : benchStep plan m ⟨.proceed, go⟩ ⟨⟨.final, rest, digest, f⟩, s⟩ = .next b') :
    Proceeds plan go ⟨⟨.final, rest, digest, f⟩, s⟩ b' := by
  have hexec := benchStep_performs_alone (i := .final) h rfl rfl (engineEnabled_of_accept hp)
  have ht : b'.engine = respond 0 { s with inputs := [], fin := true, phase := .pad1 } :=
    (Host.Outcome.next.inj ((exec_final_of_accept (s := { s with inputs := [] }) hp).symm.trans hexec)).symm
  rw [eq_of_benchStep_proceed h, ht]
  exact .ends

theorem proceeds_waitIrq (h : benchStep plan m ⟨.proceed, go⟩ ⟨⟨.waitIrq, rest, digest, f⟩, s⟩ = .next b') :
    Proceeds plan go ⟨⟨.waitIrq, rest, digest, f⟩, s⟩ b' := by
  have hu := benchStep_undisturbed_of_none h rfl
  rw [eq_of_benchStep_proceed h, hostReceive]
  by_cases hline : irq b'.engine = true
  · rw [if_pos hline]
    exact .seesIrq hu
  · rw [if_neg hline]
    exact .seesNoIrq (by simpa using hline) hu

theorem proceeds_cont {last : Bool} (hh : s.halt = true)
    (h : benchStep plan m ⟨.proceed, go⟩ ⟨⟨.cont last, rest, digest, f⟩, s⟩ = .next b') :
    Proceeds plan go ⟨⟨.cont last, rest, digest, f⟩, s⟩ b' := by
  have hexec := benchStep_performs_alone (i := .cont) h rfl rfl (engineEnabled_of_halt hh)
  have ht : b'.engine = respond 0 { s with inputs := [], halt := false } :=
    (Host.Outcome.next.inj ((exec_cont_of_halt (s := { s with inputs := [] }) hh).symm.trans hexec)).symm
  rw [eq_of_benchStep_proceed h, ht]
  exact .continues

theorem proceeds_readDigest {i : BitVec 3} {left : List Instr}
    (h : benchStep plan m ⟨.proceed, go⟩ ⟨⟨.readDigest (.rdH i :: left), rest, digest, f⟩, s⟩ = .next b') :
    Proceeds plan go ⟨⟨.readDigest (.rdH i :: left), rest, digest, f⟩, s⟩ b' := by
  obtain ⟨hu, hword⟩ := benchStep_undisturbed_of_some (i := .rdH i) h rfl rfl rfl
  have hword : b'.engine.rspRdata = wordAt s.h i := hword
  rw [eq_of_benchStep_proceed h, hword]
  cases left with
  | nil => exact .readsLastWord hu
  | cons next left => exact .readsWord hu

theorem proceeds_finished (h : benchStep plan m ⟨.proceed, go⟩ ⟨⟨.finished, rest, digest, f⟩, s⟩ = .next b') :
    Proceeds plan go ⟨⟨.finished, rest, digest, f⟩, s⟩ b' := by
  rw [eq_of_benchStep_proceed h]
  exact .rests (benchStep_undisturbed_of_none h rfl)

end

/-- A byte of the message that is still to be pushed has a count below the limit (R107, R108). -/
theorem Sent.nbytes_ne {m sent rest : List Byte} {byte : Byte} {s : State} (hm : m.length < 2 ^ 61)
    (hs : Sent sent s) (hsent : sent ++ byte :: rest = m) : s.nbytes.toNat ≠ 2 ^ 61 - 1 := by
  have hcount := hs.1.count
  have hlen := congrArg List.length hsent
  simp only [List.length_append, List.length_cons] at hlen
  omega

/-- The reads of the digest still to do are `RD.H` from word `k` on. -/
theorem drop_readDigest {k : Nat} (hk : k < 8) :
    readDigest.drop k = .rdH (BitVec.ofNat 3 k) :: readDigest.drop (k + 1) := by
  match k, hk with
  | 0, _ | 1, _ | 2, _ | 3, _ | 4, _ | 5, _ | 6, _ | 7, _ => rfl

/-- Every turn in which the host proceeds follows one of the rules. -/
theorem proceeds_of_benchStep {plan : HostPlan} {m : List Byte} {go : Bool} {b b' : Bench} (hm : m.length < 2 ^ 61)
    (hb : ProtocolFacts plan m b) (h : benchStep plan m ⟨.proceed, go⟩ b = .next b') : Proceeds plan go b b' := by
  obtain ⟨⟨place, rest, digest, f⟩, s⟩ := b
  obtain ⟨_, _, hplace⟩ := hb
  cases place with
  | writeCfg v => exact proceeds_writeCfg h
  | init => exact proceeds_init h
  | pollReady => exact proceeds_pollReady h
  | push byte left =>
    obtain ⟨_, hp, hroom, sent, hsent, hs⟩ := hplace
    exact proceeds_push hp (hs.nbytes_ne hm hsent) (le_trans (Nat.le_add_right _ left) hroom) h
  | final =>
    obtain ⟨_, hp, _⟩ := hplace
    exact proceeds_final hp h
  | waitIrq => exact proceeds_waitIrq h
  | pollDone =>
    obtain ⟨_, _, hs⟩ := hplace
    exact proceeds_pollDone hs.2 h
  | cont last =>
    obtain ⟨_, hh, _⟩ := hplace
    exact proceeds_cont hh h
  | readErr => exact hplace.elim
  | readDigest left =>
    obtain ⟨_, _, k, hk, rfl, _⟩ := hplace
    rw [drop_readDigest hk] at h ⊢
    exact proceeds_readDigest h
  | finished => exact proceeds_finished h

/-! ### The facts of each place are kept (R71, R164, R203) -/

theorem Sent.fin_of_accept {sent : List Byte} {s : State} (hs : Sent sent s) (hp : s.phase = .accept) :
    s.fin = false :=
  (hs.1.of_accept hp).1

theorem readyFor_of_undisturbed {plan : HostPlan} {c : BitVec 3} {go : Bool} {s t : State}
    (hu : Undisturbed c go s t) (hr : readyFor plan s) : readyFor plan t := by
  obtain ⟨hi, hfresh⟩ := hr
  refine ⟨hu.inv hi, fun hinit => ?_⟩
  obtain ⟨hm, hp, herr⟩ := hfresh hinit
  obtain ⟨hsame, _⟩ := hu.idle (engineEnabled_of_accept hp)
  exact ⟨hu.hashing hm, hsame.phase.trans hp, hu.keeps.1.trans herr⟩

/-- Where the message starts, nothing is sent yet: `INIT` will see to it, or reset has. -/
theorem protocolFacts_begin {plan : HostPlan} {s : State} (m : List Byte) (hr : readyFor plan s) :
    ProtocolFacts plan m ⟨⟨hostBegin plan, m, [], 0⟩, s⟩ := by
  obtain ⟨hi, hfresh⟩ := hr
  cases hinit : plan.init with
  | true =>
    rw [hostBegin, if_pos hinit]
    exact ⟨rfl, hi, rfl, rfl⟩
  | false =>
    obtain ⟨hm, hp, herr⟩ := hfresh hinit
    have hs : Sent [] s := ⟨hm, herr⟩
    rw [hostBegin, if_neg (by simp [hinit])]
    exact ⟨rfl, hi, rfl, hs.fin_of_accept hp, [], rfl, hs⟩

theorem protocolFacts_start {plan : HostPlan} {s : State} (m : List Byte) (hr : readyFor plan s) :
    ProtocolFacts plan m (benchStart plan m s) := by
  unfold benchStart hostStart
  cases plan.cfg with
  | none => exact protocolFacts_begin m hr
  | some v => exact ⟨rfl, hr.1, rfl, rfl, hr⟩

theorem inv_of_protocolFacts {plan : HostPlan} {m : List Byte} {b : Bench} (hb : ProtocolFacts plan m b) :
    b.engine.Inv := by
  obtain ⟨_, hi, _⟩ := hb
  exact hi

/-- A turn that leaves the data to the engine keeps what holds at the place of a host that stays where it is. -/
theorem protocolFacts_of_undisturbed {plan : HostPlan} {m : List Byte} {host : HostSide} {c : BitVec 3} {go : Bool}
    {s t : State} (hu : Undisturbed c go s t) (hb : ProtocolFacts plan m ⟨host, s⟩) :
    ProtocolFacts plan m ⟨host, t⟩ := by
  obtain ⟨place, rest, digest, f⟩ := host
  obtain ⟨hf, hi, hplace⟩ := hb
  obtain ⟨_, hfin, _⟩ := hu.keeps
  refine ⟨hf, hu.inv hi, ?_⟩
  cases place
  case writeCfg v =>
    obtain ⟨hrest, hdigest, hr⟩ := hplace
    exact ⟨hrest, hdigest, readyFor_of_undisturbed hu hr⟩
  case init => exact hplace
  case pollReady =>
    obtain ⟨hdigest, hopen, sent, hsent, hs⟩ := hplace
    exact ⟨hdigest, hfin.trans hopen, sent, hsent, hu.sent hs⟩
  case push byte left =>
    obtain ⟨hdigest, hp, hroom, sent, hsent, hs⟩ := hplace
    obtain ⟨hsame, _⟩ := hu.idle (engineEnabled_of_accept hp)
    exact ⟨hdigest, hsame.phase.trans hp, (congrArg (BitVec.toNat · + left) hsame.fill).trans_le hroom, sent, hsent,
      hu.sent hs⟩
  case final =>
    obtain ⟨hdigest, hp, hs⟩ := hplace
    obtain ⟨hsame, _⟩ := hu.idle (engineEnabled_of_accept hp)
    exact ⟨hdigest, hsame.phase.trans hp, hu.sent hs⟩
  case waitIrq | pollDone =>
    obtain ⟨hdigest, hclosed, hs⟩ := hplace
    exact ⟨hdigest, hfin.trans hclosed, hu.sent hs⟩
  case cont last =>
    obtain ⟨hdigest, hh, hlast, sent, hs, hsent⟩ := hplace
    obtain ⟨_, hh'⟩ := hu.idle (engineEnabled_of_halt hh)
    exact ⟨hdigest, hh'.trans hh, hfin.trans hlast, sent, hu.sent hs, hsent⟩
  case readErr => exact hplace
  case readDigest left =>
    obtain ⟨hp, hs, k, hk, hleft, hdigest⟩ := hplace
    obtain ⟨hsame, _⟩ := hu.idle (engineEnabled_of_done hp)
    exact ⟨hsame.phase.trans hp, hu.sent hs, k, hk, hleft, hdigest.trans (by rw [hsame.h])⟩
  case finished => exact hplace

/-- The samples that wait are not the engine's (log entry 1). -/
theorem sent_withInputs {sent : List Byte} {s : State} (hs : Sent sent s) (x : List Inputs) :
    Sent sent { s with inputs := x } :=
  ⟨(sameData_withInputs s x).hashing hs.1, hs.2⟩

/-- The `PUSH` of such a byte is accepted. -/
theorem Sent.pushed {m sent rest : List Byte} {byte : Byte} {s : State} (hs : Sent sent s) (hm : m.length < 2 ^ 61)
    (hsent : sent ++ byte :: rest = m) (hp : s.phase = .accept) :
    Sent (sent ++ [byte]) (pushed byte { s with inputs := [] }) :=
  ⟨hashing_pushed byte (sent_withInputs hs []).1 hp ((lengthFull_eq_false_iff s).2 (hs.nbytes_ne hm hsent)), hs.2⟩

/-- The words read up to word `k`, with that word. -/
theorem take_wordList_succ (v : Words8) {k : Nat} (hk : k < 8) :
    (wordList v).take k ++ [wordAt v (BitVec.ofNat 3 k)] = (wordList v).take (k + 1) := by
  match k, hk with
  | 0, _ | 1, _ | 2, _ | 3, _ | 4, _ | 5, _ | 6, _ | 7, _ => rfl

/-- The eight words of `H` are the digest port (R158, R203). -/
theorem hostDigest_wordList {h : HostSide} {s : State} (hd : h.digest = wordList s.h) :
    hostDigest h = some (digestPort s) := by
  rw [hostDigest, hd]
  rfl

theorem sent_initMessage {s : State} (hi : s.Inv) : Sent [] (respond 0 (initMessage s)) :=
  ⟨(sameData_respond 0 _).hashing (hashing_initMessage hi), rfl⟩

theorem sent_final {sent : List Byte} {s : State} (hs : Sent sent s) (hp : s.phase = .accept) :
    Sent sent (respond 0 { s with fin := true, phase := .pad1 }) :=
  ⟨(sameData_respond 0 _).hashing (hashing_final hs.1 hp), hs.2⟩

theorem sent_continue {sent : List Byte} {s : State} (hs : Sent sent s) :
    Sent sent (respond 0 { s with inputs := [], halt := false }) :=
  ⟨SameData.hashing (s := s) ⟨rfl, rfl, rfl, rfl, rfl, rfl, rfl, rfl, rfl, rfl⟩ hs.1, hs.2⟩

/-- Which word the next read is of. -/
theorem readDigest_drop_eq_cons {k : Nat} (hk : k < 8) {i : BitVec 3} {left : List Instr}
    (h : .rdH i :: left = readDigest.drop k) : i = BitVec.ofNat 3 k ∧ left = readDigest.drop (k + 1) := by
  rw [drop_readDigest hk] at h
  exact ⟨Instr.rdH.inj (List.cons.inj h).1, (List.cons.inj h).2⟩

theorem lt_of_readDigest_drop_ne_nil {k : Nat} (h : readDigest.drop k ≠ []) : k < 8 :=
  not_le.1 fun hk => h (List.drop_eq_nil_of_le hk)

/-- Every rule of the listing leads to the facts of the place it leads to. -/
theorem protocolFacts_of_proceeds {plan : HostPlan} {m : List Byte} {go : Bool} {b b' : Bench}
    (hm : m.length < 2 ^ 61) (hb : ProtocolFacts plan m b) (h : Proceeds plan go b b') : ProtocolFacts plan m b' := by
  cases h with
  | writesCfg hu =>
    obtain ⟨rfl, _, rfl, rfl, hr⟩ := hb
    exact protocolFacts_begin _ (readyFor_of_undisturbed hu hr)
  | starts =>
    obtain ⟨rfl, hi, rfl, rfl⟩ := hb
    have hs := sent_initMessage ((sameData_withInputs _ []).inv hi)
    exact ⟨rfl, hs.1.inv, rfl, rfl, [], rfl, hs⟩
  | findsReady hp hu =>
    have hroom := fill_add_bytesAfterNext_le plan ((inv_of_protocolFacts hb).fill_le (.inl hp))
    obtain ⟨hf, hi, hdigest, _, sent, hsent, hs⟩ := protocolFacts_of_undisturbed hu hb
    obtain ⟨hsame, _⟩ := hu.idle (engineEnabled_of_accept hp)
    rw [← hsame.fill] at hroom
    exact ⟨hf, hi, hdigest, hsame.phase.trans hp, hroom, sent, hsent, hs⟩
  | findsAllSent hp hu =>
    obtain ⟨hf, hi, hdigest, _, sent, hsent, hs⟩ := protocolFacts_of_undisturbed hu hb
    obtain ⟨hsame, _⟩ := hu.idle (engineEnabled_of_accept hp)
    obtain rfl : sent = m := (List.append_nil sent).symm.trans hsent
    exact ⟨hf, hi, hdigest, hsame.phase.trans hp, hs⟩
  | findsHalted hh hu =>
    obtain ⟨hf, hi, hdigest, hopen, sent, hsent, hs⟩ := protocolFacts_of_undisturbed hu hb
    obtain ⟨_, hh'⟩ := hu.idle (engineEnabled_of_halt hh)
    exact ⟨hf, hi, hdigest, hh'.trans hh, hopen, sent, hs, hsent⟩
  | findsBusy _ _ hu => exact protocolFacts_of_undisturbed hu hb
  | pushesOn =>
    obtain ⟨hf, hi, hdigest, hp, hroom, sent, hsent, hs⟩ := hb
    have hs' := hs.pushed hm hsent hp
    have hfill := toNat_fill_succ (hi.fill_le (.inl hp))
    dsimp only at hroom hfill
    refine ⟨hf, hs'.1.inv, hdigest, if_neg (by dsimp only; omega), ?_, _, ?_, hs'⟩
    · exact (congrArg (· + _) hfill).trans_le (by omega)
    · exact (List.append_assoc _ _ _).trans hsent
  | pushes =>
    obtain ⟨hf, hi, hdigest, hp, _, sent, hsent, hs⟩ := hb
    have hs' := hs.pushed hm hsent hp
    exact ⟨hf, hs'.1.inv, hdigest, hs.fin_of_accept hp, _, (List.append_assoc _ _ _).trans hsent, hs'⟩
  | ends =>
    obtain ⟨hf, _, hdigest, hp, hs⟩ := hb
    have hs' := sent_final (sent_withInputs hs []) hp
    refine ⟨hf, hs'.1.inv, ?_⟩
    cases plan.useIrq <;> exact ⟨hdigest, rfl, hs'⟩
  | seesIrq hu =>
    obtain ⟨hf, hi, hdigest, hclosed, hs⟩ := protocolFacts_of_undisturbed hu hb
    exact ⟨hf, hi, hdigest, hclosed, hs⟩
  | seesNoIrq _ hu => exact protocolFacts_of_undisturbed hu hb
  | findsDone hp hu =>
    obtain ⟨hf, hi, hdigest, _, hs⟩ := protocolFacts_of_undisturbed hu hb
    obtain ⟨hsame, _⟩ := hu.idle (engineEnabled_of_done hp)
    exact ⟨hf, hi, hsame.phase.trans hp, hs, 0, by decide, rfl, hdigest⟩
  | findsHaltedAtEnd hh hu =>
    obtain ⟨hf, hi, hdigest, hclosed, hs⟩ := protocolFacts_of_undisturbed hu hb
    obtain ⟨_, hh'⟩ := hu.idle (engineEnabled_of_halt hh)
    exact ⟨hf, hi, hdigest, hh'.trans hh, hclosed, m, hs, rfl⟩
  | findsBusyAtEnd _ _ hu => exact protocolFacts_of_undisturbed hu hb
  | @continues last =>
    obtain ⟨hf, _, hdigest, _, hlast, sent, hs, hsent⟩ := hb
    have hs' := sent_continue hs
    refine ⟨hf, hs'.1.inv, ?_⟩
    cases last with
    | false => exact ⟨hdigest, hlast, sent, hsent, hs'⟩
    | true =>
      obtain rfl : sent = m := hsent
      exact ⟨hdigest, hlast, hs'⟩
  | readsWord hu =>
    have hb' := protocolFacts_of_undisturbed hu hb
    obtain ⟨_, _, hdone, _⟩ := hb
    obtain ⟨hf, hi, hp, hs, k, hk, hleft, hdigest⟩ := hb'
    obtain ⟨rfl, hnext⟩ := readDigest_drop_eq_cons hk hleft
    have hk' : k + 1 < 8 := lt_of_readDigest_drop_ne_nil (hnext ▸ List.cons_ne_nil _ _)
    obtain ⟨hsame, _⟩ := hu.idle (engineEnabled_of_done hdone)
    rw [← hsame.h]
    exact ⟨hf, hi, hp, hs, k + 1, hk', hnext, (congrArg (· ++ _) hdigest).trans (take_wordList_succ _ hk)⟩
  | readsLastWord hu =>
    have hb' := protocolFacts_of_undisturbed hu hb
    obtain ⟨_, _, hdone, _⟩ := hb
    obtain ⟨hf, hi, hp, hs, k, hk, hleft, hdigest⟩ := hb'
    obtain ⟨rfl, hnil⟩ := readDigest_drop_eq_cons hk hleft
    obtain rfl : k = 7 := by
      have hlen : 8 ≤ k + 1 := List.drop_eq_nil_iff.1 hnil.symm
      omega
    obtain ⟨hsame, _⟩ := hu.idle (engineEnabled_of_done hdone)
    obtain ⟨hsha, _⟩ := doneShowsSha256OfAcceptedBytes m _ hs.1 hp
    rw [← hsame.h]
    refine ⟨hf, hi, Eq.trans (hostDigest_wordList ?_) hsha.symm⟩
    exact (congrArg (· ++ _) hdigest).trans (take_wordList_succ _ hk)
  | rests hu => exact protocolFacts_of_undisturbed hu hb

/-- A host that waits or takes one of R204's liberties stays where it is. -/
theorem benchStep_of_aside {plan : HostPlan} {m : List Byte} {turn : Turn} {b b' : Bench}
    (hhost : turn.host ≠ .proceed) (hlawful : lawfulTurn turn = true) (h : benchStep plan m turn b = .next b') :
    b'.host = b.host ∧ ∃ c, Undisturbed c turn.engine b.engine b'.engine := by
  obtain ⟨act, go⟩ := turn
  have hstay := (benchStep_cases h).2
  cases act with
  | wait => exact ⟨hstay, _, benchStep_undisturbed_of_none h rfl⟩
  | proceed => exact absurd rfl hhost
  | other i =>
    obtain ⟨u, hexec, _⟩ := exec_of_liberty { b.engine with inputs := [] } hlawful
    exact ⟨hstay, _, (benchStep_undisturbed_of_some h rfl hlawful hexec).1⟩

/-- In every interleaving a turn is answered and keeps the facts of the host's place. -/
theorem protocolFacts_of_turn {plan : HostPlan} {m : List Byte} (hm : m.length < 2 ^ 61) (turn : Turn) (b : Bench)
    (hlawful : lawfulTurn turn = true) (hb : ProtocolFacts plan m b) :
    ∃ b', benchStep plan m turn b = .next b' ∧ ProtocolFacts plan m b' := by
  obtain ⟨b', h⟩ := benchStep_of_inv plan m turn (inv_of_protocolFacts hb)
  refine ⟨b', h, ?_⟩
  by_cases hhost : turn.host = .proceed
  · obtain ⟨act, go⟩ := turn
    obtain rfl : act = .proceed := hhost
    exact protocolFacts_of_proceeds hm hb (proceeds_of_benchStep hm hb h)
  · obtain ⟨hstay, _, hu⟩ := benchStep_of_aside hhost hlawful h
    obtain ⟨host, t⟩ := b'
    obtain rfl : host = b.host := hstay
    exact protocolFacts_of_undisturbed hu hb

/-- What the facts say of a host that has finished. -/
theorem protocolFacts_finished {plan : HostPlan} {m : List Byte} {b : Bench} (hb : ProtocolFacts plan m b)
    (hp : b.host.place = .finished) : hostDigest b.host = sha256 m ∧ b.host.failures = 0 := by
  obtain ⟨hf, _, hplace⟩ := hb
  rw [hp] at hplace
  exact ⟨hplace, hf⟩

/-- Settles O59: the facts hold at the start and every lawful turn keeps them. -/
theorem hostProtocolReadsSha256 : Obligations.HostProtocolReadsSha256 := by
  unfold Obligations.HostProtocolReadsSha256
  intro plan m s turns hm hr hlawful
  obtain ⟨b, hrun, hb⟩ := benchRun_preserves (P := ProtocolFacts plan m) (protocolFacts_of_turn hm) hlawful
    (protocolFacts_start m hr)
  exact ⟨b, hrun, hb, protocolFacts_finished hb⟩

end Sys2Proof.Machine
end

section
/-! SUPPORT. Where host and engine act in every step the host of R203 finishes (R70, R193, R200): how many steps a host at
each place of the listing still needs at most, and that every step in which both act is one of them. -/

namespace Sys2Proof.Machine

/-! ### A host that waits for `irq` (R220) -/

/-- `IE_DONE = 1` and `STEP = 0` (R40). -/
def AsksIrq (cfg : BitVec 3) : Prop := cfg.getLsbD 1 = true ∧ cfg.getLsbD 0 = false

/-- The engine will raise `irq` in `DONE`, and is not held on its way there. -/
def RunsToIrq (s : State) : Prop := AsksIrq s.cfg ∧ s.halt = false

/-- What a host that waits for `irq` has seen to at each place of the listing. -/
def IrqFacts (plan : HostPlan) (b : Bench) : Prop :=
  match b.host.place with
  | .writeCfg v => plan.useIrq = true → AsksIrq v ∧ (plan.init = true ∨ b.engine.halt = false)
  | .init => plan.useIrq = true → AsksIrq b.engine.cfg
  | .waitIrq => RunsToIrq b.engine
  | _ => plan.useIrq = true → RunsToIrq b.engine

theorem Undisturbed.runsToIrq {go : Bool} {s t : State} (hu : Undisturbed s.cfg go s t) (hs : RunsToIrq s) :
    RunsToIrq t := by
  obtain ⟨⟨henabled, hfree⟩, hh⟩ := hs
  obtain ⟨_, _, _, hcfg⟩ := hu.keeps
  exact ⟨hcfg ▸ ⟨henabled, hfree⟩, hu.halt hfree hh⟩

theorem irq_of_done {s : State} (hs : RunsToIrq s) (hp : s.phase = .done) : irq s = true := by
  obtain ⟨⟨henabled, _⟩, _⟩ := hs
  exact (irq_iff s).2 (.inl ⟨henabled, hp⟩)

theorem irqFacts_begin {plan : HostPlan} {s : State} (rest : List Byte) (digest : List Word) (f : Nat)
    (hs : plan.useIrq = true → AsksIrq s.cfg ∧ (plan.init = true ∨ s.halt = false)) :
    IrqFacts plan ⟨⟨hostBegin plan, rest, digest, f⟩, s⟩ := by
  cases hinit : plan.init with
  | true =>
    rw [hostBegin, if_pos hinit]
    exact fun hirq => (hs hirq).1
  | false =>
    rw [hostBegin, if_neg (by simp [hinit])]
    intro hirq
    obtain ⟨hasks, hhalt⟩ := hs hirq
    exact ⟨hasks, hhalt.resolve_left (by simp [hinit])⟩

/-- Every rule of the listing keeps them. -/
theorem irqFacts_of_proceeds {plan : HostPlan} {go : Bool} {b b' : Bench} (hb : IrqFacts plan b)
    (h : Proceeds plan go b b') : IrqFacts plan b' := by
  cases h with
  | writesCfg hu =>
    refine irqFacts_begin _ _ _ fun hirq => ?_
    obtain ⟨hasks, hrun⟩ := hb hirq
    obtain ⟨_, _, _, hcfg⟩ := hu.keeps
    exact ⟨hcfg ▸ hasks, hrun.imp_right (hu.halt hasks.2)⟩
  | starts => exact fun hirq => ⟨hb hirq, rfl⟩
  | findsReady _ hu | findsAllSent _ hu | findsHalted _ hu | findsBusy _ _ hu | findsDone _ hu
  | findsHaltedAtEnd _ hu | findsBusyAtEnd _ _ hu | readsWord hu | readsLastWord hu | rests hu =>
    exact fun hirq => hu.runsToIrq (hb hirq)
  | pushesOn | pushes => exact hb
  | ends =>
    cases hirq : plan.useIrq with
    | true => exact hb hirq
    | false => exact fun h => absurd (hirq.symm.trans h) (by decide)
  | seesIrq hu => exact fun _ => hu.runsToIrq hb
  | seesNoIrq _ hu => exact hu.runsToIrq hb
  | @continues last => cases last <;> exact fun hirq => ⟨(hb hirq).1, rfl⟩

/-! ### The steps still needed -/

/-- Steps in which a polling host waits for the engine to rest: each micro-operation may be followed by a poll that
shows `HALT = 1` and by `CONT` (R193). -/
def waitSteps (s : State) : Nat := 3 * stepsToRest s + if s.halt then 2 else 0

/-- Steps for the bytes still to be pushed, for the blocks they fill, and for the end of the message. A byte pays for its
poll, its `PUSH`, and a 64th of the wait for its block, of which those in `BUF` have paid their share. -/
def sendSteps (rest : List Byte) (s : State) : Nat := 10 * rest.length + 7 * (s.nbytes.toNat % 64) + 797

/-- The steps a host still needs at most, where both act in every step. -/
def stepsLeft (b : Bench) : Nat :=
  match b.host.place with
  | .writeCfg _ => 10 * b.host.rest.length + 801
  | .init => 10 * b.host.rest.length + 799
  | .pollReady => waitSteps b.engine + sendSteps b.host.rest b.engine + 1
  | .push byte _ => waitSteps b.engine + sendSteps (byte :: b.host.rest) b.engine
  | .final => waitSteps b.engine + sendSteps [] b.engine
  | .waitIrq => waitSteps b.engine + 10
  | .pollDone => waitSteps b.engine + 9
  | .cont false => 3 * stepsToRest b.engine + 1 + sendSteps b.host.rest b.engine + 1
  | .cont true => 3 * stepsToRest b.engine + 1 + 9
  | .readErr => 0
  | .readDigest left => left.length
  | .finished => 0

section
variable {c : BitVec 3} {s t : State}

theorem waitSteps_of_halt (hh : s.halt = true) : waitSteps s = 3 * stepsToRest s + 2 := by
  rw [waitSteps, if_pos hh]

theorem waitSteps_of_accept_le (hp : s.phase = .accept) : waitSteps s ≤ 2 := by
  rw [waitSteps, stepsToRest_accept hp]
  split <;> decide

theorem Undisturbed.waitSteps_idle {go : Bool} (hu : Undisturbed c go s t) (hs : engineEnabled s = false) :
    waitSteps t = waitSteps s ∧ stepsToRest t = stepsToRest s := by
  obtain ⟨hsame, hh⟩ := hu.idle hs
  rw [waitSteps, waitSteps, stepsToRest_congr hsame, hh]
  exact ⟨rfl, rfl⟩

/-- A micro-operation is worth three steps, of which a hold leaves two. -/
theorem Undisturbed.waitSteps_lt (hu : Undisturbed c true s t) (hi : s.Inv) (hs : engineEnabled s = true) :
    waitSteps t < waitSteps s := by
  have hrest := hu.stepsToRest_succ hi hs
  obtain ⟨_, hh⟩ := (engineEnabled_iff s).1 hs
  have hhold : (if t.halt = true then 2 else 0) ≤ 2 := by split <;> decide
  rw [waitSteps, waitSteps, hh]
  simp only [Bool.false_eq_true, if_false]
  omega

theorem Undisturbed.waitSteps_le (hu : Undisturbed c true s t) (hi : s.Inv) : waitSteps t ≤ waitSteps s := by
  cases hs : engineEnabled s with
  | false => exact (hu.waitSteps_idle hs).1.le
  | true => exact (hu.waitSteps_lt hi hs).le

theorem Undisturbed.sendSteps_eq {go : Bool} (hu : Undisturbed c go s t) (rest : List Byte) :
    sendSteps rest t = sendSteps rest s := by
  obtain ⟨_, _, hn, _⟩ := hu.keeps
  rw [sendSteps, sendSteps, hn]

/-- While the message is open the engine rests in `ACCEPT` alone. -/
theorem State.Inv.enabled_of_open (hi : s.Inv) (hfin : s.fin = false) (hp : s.phase ≠ .accept)
    (hh : s.halt = false) : engineEnabled s = true := by
  refine (engineEnabled_iff s).2 ⟨?_, hh⟩
  rw [busy_eq_decide, decide_eq_true_iff]
  refine ⟨hp, fun hdone => ?_⟩
  obtain ⟨_, _, hclosed, _⟩ := (phaseFacts_done hdone).1 hi.phaseFacts
  rw [hfin] at hclosed
  cases hclosed

/-- Once it is closed the engine rests in `DONE` alone. -/
theorem State.Inv.enabled_of_closed (hi : s.Inv) (hfin : s.fin = true) (hp : s.phase ≠ .done)
    (hh : s.halt = false) : engineEnabled s = true := by
  refine (engineEnabled_iff s).2 ⟨?_, hh⟩
  rw [busy_eq_decide, decide_eq_true_iff]
  refine ⟨fun haccept => ?_, hp⟩
  obtain ⟨_, _, _, hopen, _⟩ := (phaseFacts_accept haccept).1 hi.phaseFacts
  rw [hfin] at hopen
  cases hopen

theorem stepsToRest_pushed (byte : Byte) (hfin : s.fin = false) :
    stepsToRest (pushed byte { s with inputs := [] }) = if s.fill.toNat = 63 then blockSteps else 0 := by
  by_cases hfull : s.fill.toNat = 63
  · have hafter : stepsAfterBlock (pushed byte { s with inputs := [] }) = 0 := if_neg (by simp [pushed, hfin])
    have ht : (pushed byte { s with inputs := [] }).t = 0 := if_pos hfull
    rw [stepsToRest_sched (if_pos hfull), if_pos hfull, hafter, ht]
    rfl
  · rw [stepsToRest_accept (if_neg hfull), if_neg hfull]

/-- What a byte adds to the wait is paid by the shares of the bytes of its block. -/
theorem sendSteps_pushed (byte : Byte) (rest : List Byte) (hi : s.Inv) (hp : s.phase = .accept) :
    waitSteps (pushed byte { s with inputs := [] }) + sendSteps rest (pushed byte { s with inputs := [] }) + 3 ≤
      waitSteps s + sendSteps (byte :: rest) s := by
  obtain ⟨hfill, hcount, _, hfin, _⟩ := (phaseFacts_accept hp).1 hi.phaseFacts
  have hn : (pushed byte { s with inputs := [] }).nbytes.toNat % 64 = (s.nbytes.toNat % 64 + 1) % 64 :=
    nbytes_succ_mod s
  have hh : (pushed byte { s with inputs := [] }).halt = s.halt := rfl
  simp only [waitSteps, sendSteps, stepsToRest_pushed byte hfin, stepsToRest_accept hp, hn, hh, ← hcount, blockSteps,
    List.length_cons]
  by_cases hfull : s.fill.toNat = 63
  · rw [if_pos hfull]
    omega
  · rw [if_neg hfull]
    omega

end

/-- After `FINAL` there are two blocks and two paddings at most (R250). -/
theorem waitSteps_final_le (s : State) :
    waitSteps (respond 0 { s with inputs := [], fin := true, phase := .pad1 }) ≤ waitSteps s + 786 := by
  have hrest := stepsToRest_le (respond 0 { s with inputs := [], fin := true, phase := .pad1 })
  have hh : (respond 0 { s with inputs := [], fin := true, phase := .pad1 }).halt = s.halt := rfl
  rw [waitSteps, waitSteps, hh]
  omega

/-- Where the message starts the host needs the steps of its bytes and no more. -/
theorem stepsLeft_begin {plan : HostPlan} {s : State} (rest : List Byte) (digest : List Word) (f : Nat)
    (hr : readyFor plan s) : stepsLeft ⟨⟨hostBegin plan, rest, digest, f⟩, s⟩ ≤ 10 * rest.length + 800 := by
  cases hinit : plan.init with
  | true =>
    rw [hostBegin, if_pos hinit]
    change 10 * rest.length + 799 ≤ 10 * rest.length + 800
    omega
  | false =>
    obtain ⟨hm, hp, _⟩ := hr.2 hinit
    have hn : s.nbytes.toNat = 0 := hm.count
    have hwait := waitSteps_of_accept_le hp
    rw [hostBegin, if_neg (by simp [hinit])]
    simp only [stepsLeft, sendSteps, hn]
    omega

/-- Every step in which both act is one of the steps still needed. -/
theorem stepsLeft_of_proceeds {plan : HostPlan} {m : List Byte} {b b' : Bench} (hb : ProtocolFacts plan m b)
    (hirq : IrqFacts plan b) (h : Proceeds plan true b b') : stepsLeft b' ≤ stepsLeft b - 1 := by
  cases h with
  | writesCfg hu =>
    obtain ⟨_, _, _, _, hr⟩ := hb
    exact stepsLeft_begin _ _ _ (readyFor_of_undisturbed hu hr)
  | @starts rest _ _ s =>
    have hwait : waitSteps (respond 0 (initMessage { s with inputs := [] })) = 0 := rfl
    have hsend : sendSteps rest (respond 0 (initMessage { s with inputs := [] })) = 10 * rest.length + 797 := rfl
    simp only [stepsLeft, hwait, hsend]
    omega
  | findsReady hp hu | findsAllSent hp hu =>
    obtain ⟨hwait, _⟩ := hu.waitSteps_idle (engineEnabled_of_accept hp)
    simp only [stepsLeft, hwait, hu.sendSteps_eq]
    omega
  | findsHalted hh hu | findsHaltedAtEnd hh hu =>
    obtain ⟨_, hrest⟩ := hu.waitSteps_idle (engineEnabled_of_halt hh)
    simp only [stepsLeft, waitSteps_of_halt hh, hrest, hu.sendSteps_eq]
    omega
  | findsBusy hp hh hu =>
    obtain ⟨_, hi, _, hopen, _⟩ := hb
    have hwait := hu.waitSteps_lt hi (hi.enabled_of_open hopen hp hh)
    simp only [stepsLeft, hu.sendSteps_eq]
    omega
  | @pushesOn byte next _ rest _ _ s =>
    obtain ⟨_, hi, _, hp, _⟩ := hb
    have hpush := sendSteps_pushed (s := s) byte (next :: rest) hi hp
    simp only [stepsLeft]
    omega
  | @pushes byte _ rest _ _ s =>
    obtain ⟨_, hi, _, hp, _⟩ := hb
    have hpush := sendSteps_pushed (s := s) byte rest hi hp
    simp only [stepsLeft]
    omega
  | @ends _ _ _ s =>
    have hwait := waitSteps_final_le s
    have hsend : 797 ≤ sendSteps [] s := Nat.le_add_left 797 _
    cases plan.useIrq <;> simp only [stepsLeft, ↓reduceIte, Bool.false_eq_true] <;> omega
  | seesIrq hu =>
    have hwait := hu.waitSteps_le (inv_of_protocolFacts hb)
    simp only [stepsLeft]
    omega
  | seesNoIrq hline hu =>
    obtain ⟨_, hi, _, hclosed, _⟩ := hb
    have hp : _ ≠ Phase.done := fun hdone => by
      obtain ⟨hsame, _⟩ := hu.idle (engineEnabled_of_done hdone)
      rw [irq_of_done (hu.runsToIrq hirq) (hsame.phase.trans hdone)] at hline
      cases hline
    have hwait := hu.waitSteps_lt hi (hi.enabled_of_closed hclosed hp hirq.2)
    simp only [stepsLeft]
    omega
  | findsDone _ hu => exact Nat.le_add_left 8 _
  | findsBusyAtEnd hp hh hu =>
    obtain ⟨_, hi, _, hclosed, _⟩ := hb
    have hwait := hu.waitSteps_lt hi (hi.enabled_of_closed hclosed hp hh)
    simp only [stepsLeft]
    omega
  | @continues last rest _ _ s =>
    cases last with
    | false =>
      change 3 * stepsToRest s + sendSteps rest s + 1 ≤ 3 * stepsToRest s + 1 + sendSteps rest s + 1 - 1
      omega
    | true =>
      change 3 * stepsToRest s + 9 ≤ 3 * stepsToRest s + 1 + 9 - 1
      omega
  | readsWord hu => exact Nat.le_refl _
  | readsLastWord hu => exact Nat.le_refl _
  | rests hu => exact Nat.le_refl _

theorem stepsLeft_start {plan : HostPlan} {m : List Byte} {s : State} (hr : readyFor plan s) :
    stepsLeft (benchStart plan m s) ≤ 10 * m.length + 801 := by
  unfold benchStart hostStart
  cases plan.cfg with
  | none => exact (stepsLeft_begin _ _ _ hr).trans (Nat.le_succ _)
  | some v => exact Nat.le_refl _

theorem irqFacts_start {plan : HostPlan} {s : State} (m : List Byte)
    (hs : plan.useIrq = true → AsksIrq (plan.cfg.getD s.cfg) ∧ (plan.init = true ∨ s.halt = false)) :
    IrqFacts plan (benchStart plan m s) := by
  unfold benchStart hostStart
  cases hcfg : plan.cfg with
  | none =>
    rw [hcfg] at hs
    exact irqFacts_begin _ _ _ hs
  | some v =>
    rw [hcfg] at hs
    exact hs

/-! ### The run -/

/-- No step left means that the host has finished. -/
theorem finished_of_stepsLeft {plan : HostPlan} {m : List Byte} {b : Bench} (hb : ProtocolFacts plan m b)
    (h : stepsLeft b = 0) : b.host.place = .finished := by
  obtain ⟨⟨place, rest, digest, f⟩, s⟩ := b
  obtain ⟨_, _, hplace⟩ := hb
  cases place with
  | finished => rfl
  | readErr => exact hplace.elim
  | readDigest left =>
    obtain ⟨_, _, k, hk, rfl, _⟩ := hplace
    rw [drop_readDigest hk] at h
    cases h
  | cont last => cases last <;> simp [stepsLeft] at h
  | writeCfg | init | pollReady | push | final | waitIrq | pollDone => simp [stepsLeft, sendSteps] at h

theorem benchRun_finishes {plan : HostPlan} {m : List Byte} (hm : m.length < 2 ^ 61) (n : Nat) : ∀ {b : Bench},
    ProtocolFacts plan m b → IrqFacts plan b → stepsLeft b ≤ n →
    ∃ b', benchRun plan m (List.replicate n ⟨.proceed, true⟩) b = .next b' ∧ ProtocolFacts plan m b' ∧
      b'.host.place = .finished := by
  induction n with
  | zero => exact fun {b} hb _ hn => ⟨b, rfl, hb, finished_of_stepsLeft hb (Nat.le_zero.1 hn)⟩
  | succ n ih =>
    intro b hb hirq hn
    obtain ⟨u, hstep, hu⟩ := protocolFacts_of_turn hm ⟨.proceed, true⟩ b rfl hb
    have hrule := proceeds_of_benchStep hm hb hstep
    have hleft := stepsLeft_of_proceeds hb hirq hrule
    obtain ⟨b', hrun, hb'⟩ := ih hu (irqFacts_of_proceeds hirq hrule) (by omega)
    refine ⟨b', ?_, hb'⟩
    rw [List.replicate_succ, benchRun, hstep]
    exact hrun

/-- Settles O60: the steps needed at the start are fewer than those given. -/
theorem hostProtocolFinishes : Obligations.HostProtocolFinishes := by
  unfold Obligations.HostProtocolFinishes
  intro plan m s hm hr hirq
  have hstart : stepsLeft (benchStart plan m s) ≤ 10 * m.length + 1000 := (stepsLeft_start hr).trans (by omega)
  have hasks : IrqFacts plan (benchStart plan m s) := irqFacts_start m fun h => by
    obtain ⟨henabled, hfree, hrun⟩ := hirq h
    exact ⟨⟨henabled, hfree⟩, hrun⟩
  obtain ⟨b, hrun, hb, hp⟩ := benchRun_finishes hm _ (protocolFacts_start m hr) hasks hstart
  exact ⟨b, hrun, hp, (protocolFacts_finished hb hp).1⟩

end Sys2Proof.Machine
end

section
/-! SUPPORT. A step with `rst = 1` (R240): it is the hardware reset whatever else the pins carry, and what sets it apart
from `INIT` (R191). -/

namespace Sys2Proof.Machine

/-- With `rst = 1` neither the transaction nor the engine is looked at (R240). -/
theorem step_of_rst {s : State} (hrst : (nextPins s).rst = true) : step s = .next (hardReset (takePins s)) :=
  if_pos hrst

/-- Reset does all that `INIT` does, clears `CFG` and `R` too, and leaves `W` and `BUF` unwritten (R191, R240). -/
theorem hardReset_eq_of_init {s t : State} (h : exec .init s = .next t) :
    hardReset s = { t with cfg := 0, r := ⟨0, 0, 0, 0, 0, 0, 0, 0⟩, w := [], buf := [] } := by
  cases h
  rfl

/-- Settles O2: the step is the hardware reset, whose fields are those of the reset state. -/
theorem resetStepLeavesResetValues : Obligations.ResetStepLeavesResetValues := by
  unfold Obligations.ResetStepLeavesResetValues
  intro s p rest hin hrst
  have hpins : (nextPins s).rst = true := by simpa [nextPins, hin] using hrst
  have hrest : (takePins s).inputs = rest := by simp [takePins, hin]
  refine ⟨hardReset (takePins s), step_of_rst hpins, rfl, rfl, rfl, rfl, rfl, rfl, rfl, rfl, rfl, rfl, rfl,
    Memory.read?_nil, Memory.read?_nil, rfl, rfl, hrest, fun t hinit => ?_⟩
  calc hardReset (takePins s) = { hardReset s with inputs := rest } := by rw [← hrest]; rfl
    _ = _ := by rw [hardReset_eq_of_init hinit]; rfl

end Sys2Proof.Machine
end
